-- ==== Sys2Proof/Word.lean ====
section
/-! DEFINITION. The widths of the block: a register and a bus word are 32 bits, a codeword and a field
element 8 bits, a bus address 20 bits, a position 16 bits, a module 1 bit (00_scope.md R8, R9). -/

namespace Sys2Proof

/-- A register, a bus word and a command word: REG_WIDTH = 32 bits (R8, R9). -/
abbrev Word := BitVec 32

/-- A codeword, a field element and a GF table entry: 8 bits (R9). -/
abbrev Byte := BitVec 8

/-- A bus address: ADDR_WIDTH = 20 bits, a byte address (R8, R70). -/
abbrev Addr := BitVec 20

/-- An error position: 16 bits (R9). -/
abbrev Position := BitVec 16

/-- A module of the grid: 1 bit, 1 = dark (R9, R45). -/
abbrev Module := BitVec 1

end Sys2Proof
end

