-- ==== Sys2Proof/Syntax.lean ====
section
/-! DEFINITION. The commands: one constructor for each row of spec/opcode_table.json, in its order
(30_encoding.md R102). A command word has no register, immediate or mode field (R100), so no
constructor has an argument. -/

namespace Sys2Proof

/-- The 24 commands of the opcode map (R102). -/
inductive Instr where
  | nop
  | gfAdd
  | gfMul
  | gfDiv
  | gfPow
  | gfExp
  | gfLog
  | rsGenpoly
  | rsEncode
  | rsSyndrome
  | rsLocator
  | rsChien
  | rsForney
  | rsCorrect
  | rsCorrectBitflip
  | geoSelect
  | geoLookup
  | geoInfo
  | gridInit
  | geoClassify
  | placeWrite
  | placeRead
  | placeMap
  | placeUnmap
  deriving DecidableEq, Repr

end Sys2Proof
end

