-- ==== Sys2Proof/WellFormed.lean ====
section
/-! DEFINITION. Which command words are well formed (30_encoding.md R100, R103). A command has no operand
field, so every term of `Instr` is well formed; the two checks are about the word that carries it, and
they are written from R103's ranges, not from the decoder. -/

namespace Sys2Proof

/-- Every command is well formed: the format has no field besides OP and RSV (R100). -/
def Instr.wellFormed (_ : Instr) : Bool := true

/-- First check: the reserved field RSV, bits 31:8, is 0 (R100, R103). -/
def rsvIsZero (w : Word) : Bool := w.extractLsb' 8 24 == 0#24

/-- Second check: OP, bits 7:0, is none of the illegal values 0x07-0x0F, 0x18-0x1F, 0x25-0x2F and
0x34-0xFF (R103). -/
def opIsAssigned (w : Word) : Bool :=
  let op := (w.extractLsb' 0 8).toNat
  !((0x07 ≤ op && op ≤ 0x0F) || (0x18 ≤ op && op ≤ 0x1F) || (0x25 ≤ op && op ≤ 0x2F) || 0x34 ≤ op)

/-- A word that R103 does not call illegal. -/
def wellFormedWord (w : Word) : Bool := rsvIsZero w && opIsAssigned w

end Sys2Proof
end

