-- ==== Sys2Proof/Decode.lean ====
section
/-! DEFINITION. Decoding a command word, total on every 32-bit word (30_encoding.md R101, R102), and after
it the encoder. -/

namespace Sys2Proof

/-- Why a word is no command. Both raise ILLEGAL_COMMAND (R101). -/
inductive DecodeReject where
  /-- RSV, bits 31:8, is not 0. -/
  | reservedBitsSet
  /-- OP, bits 7:0, is not an opcode of R102. -/
  | unassignedOpcode
  deriving DecidableEq, Repr

/-- The opcode map of R102, read from OP = w[7:0]. -/
def decodeOp (op : Nat) : Option Instr :=
  match op with
  | 0x00 => some .nop
  | 0x01 => some .gfAdd
  | 0x02 => some .gfMul
  | 0x03 => some .gfDiv
  | 0x04 => some .gfPow
  | 0x05 => some .gfExp
  | 0x06 => some .gfLog
  | 0x10 => some .rsGenpoly
  | 0x11 => some .rsEncode
  | 0x12 => some .rsSyndrome
  | 0x13 => some .rsLocator
  | 0x14 => some .rsChien
  | 0x15 => some .rsForney
  | 0x16 => some .rsCorrect
  | 0x17 => some .rsCorrectBitflip
  | 0x20 => some .geoSelect
  | 0x21 => some .geoLookup
  | 0x22 => some .geoInfo
  | 0x23 => some .gridInit
  | 0x24 => some .geoClassify
  | 0x30 => some .placeWrite
  | 0x31 => some .placeRead
  | 0x32 => some .placeMap
  | 0x33 => some .placeUnmap
  | _ => none

/-- Decoding, in the order of R101: the reserved bits first, then the opcode. -/
def decode (w : Word) : Except DecodeReject Instr :=
  if w.extractLsb' 8 24 ≠ 0#24 then .error .reservedBitsSet
  else
    match decodeOp (w.extractLsb' 0 8).toNat with
    | some i => .ok i
    | none => .error .unassignedOpcode

/-- The opcode of a command, written from R102's table. -/
def opcode : Instr → Byte
  | .nop => 0x00
  | .gfAdd => 0x01
  | .gfMul => 0x02
  | .gfDiv => 0x03
  | .gfPow => 0x04
  | .gfExp => 0x05
  | .gfLog => 0x06
  | .rsGenpoly => 0x10
  | .rsEncode => 0x11
  | .rsSyndrome => 0x12
  | .rsLocator => 0x13
  | .rsChien => 0x14
  | .rsForney => 0x15
  | .rsCorrect => 0x16
  | .rsCorrectBitflip => 0x17
  | .geoSelect => 0x20
  | .geoLookup => 0x21
  | .geoInfo => 0x22
  | .gridInit => 0x23
  | .geoClassify => 0x24
  | .placeWrite => 0x30
  | .placeRead => 0x31
  | .placeMap => 0x32
  | .placeUnmap => 0x33

/-- The command word of a command: RSV = 0 in bits 31:8, OP in bits 7:0 (R100). -/
def encode (i : Instr) : Word := 0#24 ++ opcode i

/-- The word that `nbits` bits `w` of the opcode table stand for: the bits above `nbits` are 0. -/
def tableWord (nbits w : Nat) : Word := BitVec.ofNat 32 (w % 2 ^ nbits)

/-- What the decoder reads from a row of the opcode table: a command is one 32-bit word, so bit i of the
row's number is bit i of the command word; no byte order is involved (R76). A row wider than a command
word is refused. -/
def decodeTableWord (nbits w : Nat) : Option Instr :=
  if nbits ≤ 32 then
    match decode (tableWord nbits w) with
    | .ok i => some i
    | .error _ => none
  else none

end Sys2Proof
end

