-- ==== Sys2Proof/Config.lean ====
section
/-! DEFINITION. The implementation parameters of 00_scope.md R8, and the one free value of the model.
SIZE_TABLE stands in Machine/SizeTable.lean and the GF ROMs in Machine/Field.lean. -/

namespace Sys2Proof.Config

/-- PRIM_POLY = 0x12D, x^8+x^5+x^3+x^2+1 (R8). -/
def primPoly : Nat := 0x12D

/-- MSG_CAP: elements of MSG (R8, R43). -/
def msgCap : Nat := 4096

/-- BUF_CAP: elements of each of GEN, SYN, LOC, EVAL, POS, MAG (R8, R43). -/
def bufCap : Nat := 1024

/-- NSYM_MAX: the largest number of error-correction codewords (R8, R176). -/
def nsymMax : Nat := 1023

/-- GRID_DIM: rows, columns and row stride of the GRID memory (R8, R45). -/
def gridDim : Nat := 144

/-- The free value EXEC_LATENCY (R8, R417: OPEN, at least 1, may differ from command to command).
`execDelay k` is EXEC_LATENCY - 1 of the accepted command number `k`: the steps that pass between its
accepted CMD write and the engine's step, not counting the engine's own. It has no value that a proof
could see, so a claim holds for every latency. DESIGN CHOICE, safe: log entry 2. -/
opaque execDelay : Nat → Nat

end Sys2Proof.Config
end

