-- ==== Sys2Proof/Machine/State.lean ====
section
/-! DEFINITION. The state of the block (10_state.md), as plain data, and its value after reset
(70_reset_and_hazards.md R400). -/

namespace Sys2Proof.Machine

/-- The six error codes of 60_exceptions.md R360, besides NONE. -/
inductive ErrorKind where
  /-- 1: GF_DIV with divisor 0. -/
  | divisionByZero
  /-- 2: a correction command cannot produce a validated correction. -/
  | uncorrectable
  /-- 3: GEO_LOOKUP with no matching entry. -/
  | unsupportedSymbolSize
  /-- 4: GEO_SELECT with k > 1558. -/
  | dataTooLong
  /-- 5: a command word with RSV not 0 or an unassigned opcode. -/
  | illegalCommand
  /-- 6: an operand register out of the command's range. -/
  | badParameter
  deriving DecidableEq, Repr

/-- The fields of STATUS (R32). ERR is `none` for code 0; the reserved codes 7..15 are never written
(R360), so no value of this type has one. The bits 31:12 and 7:5 hold nothing: they read 0. -/
structure Status where
  busy : Bool
  done : Bool
  synz : Bool
  corr : Bool
  haz : Bool
  err : Option ErrorKind
  deriving DecidableEq, Repr

/-- The registers of R30 but for STATUS, in the order of their offsets. -/
structure Regs where
  cmd : Word
  opa : Word
  opb : Word
  result : Word
  len : Word
  nsym : Word
  nerr : Word
  nfound : Word
  sizeIdx : Word
  rows : Word
  cols : Word
  dataCw : Word
  ecCw : Word
  bitidx : Word
  row : Word
  col : Word
  deriving DecidableEq, Repr

/-- The element memories: the seven buffers of R43 and GRID (R45). -/
inductive BufId where
  | msg
  | gen
  | syn
  | loc
  | eval
  | pos
  | mag
  | grid
  deriving DecidableEq, Repr

/-- One element memory of width `w`: the elements that have a value, as (index, value) pairs with
strictly rising indexes (`Buffer.wf` in Ops.lean). An element that is not listed has no value (R46).
For w = 8 the pairs are Host.Cell. -/
abbrev Buffer (w : Nat) := List (Nat × BitVec w)

/-- The eight element memories with the widths of R43 and R45. Element `r * 144 + c` of `grid` is
GRID[r][c] (R71). -/
structure Memory where
  msg : Buffer 8
  gen : Buffer 8
  syn : Buffer 8
  loc : Buffer 8
  eval : Buffer 8
  pos : Buffer 16
  mag : Buffer 8
  grid : Buffer 1
  deriving DecidableEq, Repr

/-- An operation the outside still has to issue (20_memory.md R70; 30_encoding.md R106; R400). -/
inductive Input where
  /-- A bus transaction `read(addr)`. -/
  | read (addr : Addr)
  /-- A bus transaction `write(addr, data)`. -/
  | write (addr : Addr) (data : Word)
  /-- The host's `wait` (R106): reads of STATUS until bit 0 of the data is 0. -/
  | poll
  /-- The reset input (R400, R401). -/
  | reset
  deriving DecidableEq, Repr

/-- The answer to a bus transaction with response OK. -/
inductive Reply where
  | readOk (addr : Addr) (data : Word)
  | writeOk (addr : Addr)
  deriving DecidableEq, Repr

/-- The whole state. `wait`, `accepted`, `inputs` and `replies` are the model's own fields (log entries 1
and 2): what is left of the running command's EXEC_LATENCY, the number of accepted commands, the
operations the outside still has to issue, and the answers the host has had, newest first. -/
structure State where
  regs : Regs
  status : Status
  pending : Option Word
  mem : Memory
  wait : Nat
  accepted : Nat
  inputs : List Input
  replies : List Reply
  deriving DecidableEq, Repr

/-- Why a step stops. -/
inductive Fault where
  /-- "read of unwritten element" (R46): raised by a command or a host read that reads element `i` of
  buffer `b`, which nothing has written since reset. Safe: the hardware goes on with some value. -/
  | unwrittenRead (b : BufId) (i : Nat)
  /-- "bus error at addr" (R74): raised by a host access to a misaligned or unmapped address. Safe: the
  hardware answers BUSERR, changes nothing and goes on. -/
  | busError (addr : Addr)
  deriving DecidableEq, Repr

/-- Why the model gives no outcome. -/
inductive Refusal where
  /-- Raised by `exec` for an instruction that has no meaning yet. Safe. -/
  | notModelled (mnemonic : String)
  deriving DecidableEq, Repr

/-- STATUS after reset: every field 0 (R400). -/
def Status.reset : Status :=
  { busy := false, done := false, synz := false, corr := false, haz := false, err := none }

/-- The registers after reset: each 0x00000000 (R30, R400). -/
def Regs.reset : Regs :=
  { cmd := 0, opa := 0, opb := 0, result := 0, len := 0, nsym := 0, nerr := 0, nfound := 0,
    sizeIdx := 0, rows := 0, cols := 0, dataCw := 0, ecCw := 0, bitidx := 0, row := 0, col := 0 }

/-- The memories after reset: no element has a value (R46, R400). -/
def Memory.reset : Memory :=
  { msg := [], gen := [], syn := [], loc := [], eval := [], pos := [], mag := [], grid := [] }

/-- The machine right after reset (R400): registers and STATUS 0, no pending command, no element with a
value. The last four are the model's own fields (log entries 1 and 2): nothing waits, nothing is asked. -/
def State.reset : State :=
  { regs := Regs.reset, status := Status.reset, pending := none, mem := Memory.reset,
    wait := 0, accepted := 0, inputs := [], replies := [] }

end Sys2Proof.Machine
end

