-- ==== Sys2Proof/Machine/Flags.lean ====
section
/-! DEFINITION. STATUS: its word, and every way its fields change (10_state.md R32, R33, R36, R37, R48). -/

namespace Sys2Proof.Machine

/-- The error codes of 60_exceptions.md R360. -/
def ErrorKind.code : ErrorKind → BitVec 4
  | .divisionByZero => 1
  | .uncorrectable => 2
  | .unsupportedSymbolSize => 3
  | .dataTooLong => 4
  | .illegalCommand => 5
  | .badParameter => 6

/-- The ERR field: 0 for no error (R360). -/
def errField : Option ErrorKind → BitVec 4
  | none => 0
  | some k => k.code

/-- The STATUS word a read returns: ERR in bits 11:8, HAZ, CORR, SYNZ, DONE and BUSY in bits 4 to 0, the
other bits 0 (R32). -/
def Status.word (st : Status) : Word :=
  0#20 ++ errField st.err ++ 0#3 ++ BitVec.ofBool st.haz ++ BitVec.ofBool st.corr ++
    BitVec.ofBool st.synz ++ BitVec.ofBool st.done ++ BitVec.ofBool st.busy

/-- An accepted CMD write: BUSY <- 1, DONE <- 0, ERR <- 0 (R36). -/
def Status.accept (st : Status) : Status := { st with busy := true, done := false, err := none }

/-- Completion without error: BUSY <- 0, DONE <- 1, ERR stays (R37). -/
def Status.complete (st : Status) : Status := { st with busy := false, done := true }

/-- Completion with an error: BUSY <- 0, DONE <- 1, ERR <- code (R37, R363). -/
def Status.raise (k : ErrorKind) (st : Status) : Status :=
  { st with busy := false, done := true, err := some k }

/-- RS_SYNDROME's flag: SYNZ <- z (R182). -/
def Status.setSynz (z : Bool) (st : Status) : Status := { st with synz := z }

/-- A correction's flags: SYNZ <- z, CORR <- c (R213, R214). -/
def Status.setSynzCorr (z c : Bool) (st : Status) : Status := { st with synz := z, corr := c }

/-- A host write dropped because BUSY = 1: HAZ <- 1 (R410). -/
def Status.setHaz (st : Status) : Status := { st with haz := true }

/-- A host write of STATUS while BUSY = 0: HAZ <- 0 if bit 4 of the word is 1, nothing else (R33). -/
def Status.hostWrite (v : Word) (st : Status) : Status :=
  if v.getLsbD 4 then { st with haz := false } else st

end Sys2Proof.Machine
end

