-- ==== Sys2Proof/Machine/Ops.lean ====
section
/-! DEFINITION. The shared operations: element memories, a command's run against the state, completion,
and raising an error (this block's way of taking an exception). -/

namespace Sys2Proof.Machine

/-- The value of element `i`, or none where nothing has written it (10_state.md R46). -/
def Buffer.read {w : Nat} : Buffer w → Nat → Option (BitVec w)
  | [], _ => none
  | (k, v) :: rest, i => if i = k then some v else Buffer.read rest i

/-- Store `v` in element `i`, keeping the indexes rising (10_state.md R44). -/
def Buffer.write {w : Nat} : Buffer w → Nat → BitVec w → Buffer w
  | [], i, v => [(i, v)]
  | (k, u) :: rest, i, v =>
    if i < k then (i, v) :: (k, u) :: rest
    else if i = k then (i, v) :: rest
    else (k, u) :: Buffer.write rest i v

/-- Store the values `vs` in the elements `i`, `i+1`, ... -/
def Buffer.writeRange {w : Nat} (b : Buffer w) (i : Nat) : List (BitVec w) → Buffer w
  | [] => b
  | v :: vs => Buffer.writeRange (Buffer.write b i v) (i + 1) vs

/-- A buffer whose elements are exactly `f 0`, ..., `f (n-1)`: every element written (43_geometry.md R263). -/
def Buffer.fill {w : Nat} (n : Nat) (f : Nat → BitVec w) : Buffer w :=
  (List.range n).map (fun i => (i, f i))

/-- The canonical form of a buffer of `cap` elements: indexes strictly rising and below `cap`. An unlisted
element has no value, so no entry can be equal to what an unlisted element reads as. -/
abbrev Buffer.wf {w : Nat} (cap : Nat) (b : Buffer w) : Prop :=
  b.Pairwise (fun p q => p.1 < q.1) ∧ ∀ p ∈ b, p.1 < cap

/-- The number of elements of each memory (R43, R45). -/
def BufId.cap : BufId → Nat
  | .msg => Config.msgCap
  | .gen => Config.bufCap
  | .syn => Config.bufCap
  | .loc => Config.bufCap
  | .eval => Config.bufCap
  | .pos => Config.bufCap
  | .mag => Config.bufCap
  | .grid => Config.gridDim * Config.gridDim

/-- The canonical form of all eight memories. -/
abbrev Memory.wf (m : Memory) : Prop :=
  Buffer.wf BufId.msg.cap m.msg ∧ Buffer.wf BufId.gen.cap m.gen ∧ Buffer.wf BufId.syn.cap m.syn ∧
  Buffer.wf BufId.loc.cap m.loc ∧ Buffer.wf BufId.eval.cap m.eval ∧ Buffer.wf BufId.pos.cap m.pos ∧
  Buffer.wf BufId.mag.cap m.mag ∧ Buffer.wf BufId.grid.cap m.grid

/-- One element as the bus reads it, zero-extended to a word; none where it has no value (R44, R46). -/
def Memory.elem (m : Memory) (b : BufId) (i : Nat) : Option Word :=
  match b with
  | .msg => (Buffer.read m.msg i).map (·.setWidth 32)
  | .gen => (Buffer.read m.gen i).map (·.setWidth 32)
  | .syn => (Buffer.read m.syn i).map (·.setWidth 32)
  | .loc => (Buffer.read m.loc i).map (·.setWidth 32)
  | .eval => (Buffer.read m.eval i).map (·.setWidth 32)
  | .pos => (Buffer.read m.pos i).map (·.setWidth 32)
  | .mag => (Buffer.read m.mag i).map (·.setWidth 32)
  | .grid => (Buffer.read m.grid i).map (·.setWidth 32)

/-- A host write of one element: the low W bits of the word, the rest discarded (R44, R75). -/
def Memory.setElem (m : Memory) (b : BufId) (i : Nat) (v : Word) : Memory :=
  match b with
  | .msg => { m with msg := Buffer.write m.msg i (v.setWidth 8) }
  | .gen => { m with gen := Buffer.write m.gen i (v.setWidth 8) }
  | .syn => { m with syn := Buffer.write m.syn i (v.setWidth 8) }
  | .loc => { m with loc := Buffer.write m.loc i (v.setWidth 8) }
  | .eval => { m with eval := Buffer.write m.eval i (v.setWidth 8) }
  | .pos => { m with pos := Buffer.write m.pos i (v.setWidth 16) }
  | .mag => { m with mag := Buffer.write m.mag i (v.setWidth 8) }
  | .grid => { m with grid := Buffer.write m.grid i (v.setWidth 1) }

/-- The cell of GRID that holds GRID[r][c]: row stride GRID_DIM (R45, R71). -/
def gridIndex (r c : Nat) : Nat := r * Config.gridDim + c

/-- Why a command's pseudocode ends before it returns. -/
inductive Stop where
  /-- It executes `raise Error(k)` (00_scope.md R11). -/
  | raise (k : ErrorKind)
  /-- It reads an element that has no value (10_state.md R46). -/
  | unwritten (b : BufId) (i : Nat)
  deriving DecidableEq, Repr

/-- A command without error completes: BUSY <- 0, DONE <- 1, the pending command is gone (R37). -/
def State.complete (s : State) : State :=
  { s with status := s.status.complete, pending := none }

/-- `raise Error(k)` (R37, R363, R364): nothing changes but BUSY <- 0, DONE <- 1, ERR <- k, and the pending
command is gone. There is no vector, no saved state and no return (R363, R365). -/
def State.raiseError (k : ErrorKind) (s : State) : State :=
  { s with status := s.status.raise k, pending := none }

/-- One command, all at once (R36, R37). `r` is the pseudocode run against the state as it stands: the state
with the command's writes, or why it ended early. An error discards every write (transactional). -/
def runCommand (s : State) (r : Except Stop State) : Host.Outcome State Fault Refusal :=
  match r with
  | .ok t => .next t.complete
  | .error (.raise k) => .next (s.raiseError k)
  | .error (.unwritten b i) => .fault (.unwrittenRead b i)

/-- An accepted CMD write of the word `w` (R31, R36): CMD <- w, BUSY <- 1, DONE <- 0, ERR <- 0, and `w` is the
pending command; `delay` steps pass before the engine's (R417). -/
def State.accept (w : Word) (delay : Nat) (s : State) : State :=
  { s with regs := { s.regs with cmd := w }, status := s.status.accept, pending := some w, wait := delay }

/-- The reset input (R400, R401): the block is as `State.reset` says, whatever it was doing. The outside
world is not reset: the operations still to issue and the answers stay, and so does the count that
indexes the free latencies (log entry 9). -/
def State.afterReset (s : State) : State :=
  { State.reset with accepted := s.accepted, inputs := s.inputs, replies := s.replies }

/-- RESULT <- v. -/
def State.setResult (v : Word) (s : State) : State := { s with regs := { s.regs with result := v } }

end Sys2Proof.Machine
end

