-- ==== Sys2Proof/Machine/Bus.lean ====
section
/-! DEFINITION. The host bus: the address map, reads and writes of registers and elements, the rules while a
command runs, and one operation of the outside (20_memory.md, 70_reset_and_hazards.md section 2). -/

namespace Sys2Proof.Machine

/-- The 17 registers, in the order of their offsets (10_state.md R30). -/
inductive RegId where
  | cmd
  | status
  | opa
  | opb
  | result
  | len
  | nsym
  | nerr
  | nfound
  | sizeIdx
  | rows
  | cols
  | dataCw
  | ecCw
  | bitidx
  | row
  | col
  deriving DecidableEq, Repr

/-- What a mapped address names (20_memory.md R71). -/
inductive Target where
  | reg (r : RegId)
  | elem (b : BufId) (i : Nat)
  deriving DecidableEq, Repr

/-- The register at a byte offset (R30). -/
def regAt (offset : Nat) : Option RegId :=
  match offset with
  | 0x000 => some .cmd
  | 0x004 => some .status
  | 0x008 => some .opa
  | 0x00C => some .opb
  | 0x010 => some .result
  | 0x014 => some .len
  | 0x018 => some .nsym
  | 0x01C => some .nerr
  | 0x020 => some .nfound
  | 0x024 => some .sizeIdx
  | 0x028 => some .rows
  | 0x02C => some .cols
  | 0x030 => some .dataCw
  | 0x034 => some .ecCw
  | 0x038 => some .bitidx
  | 0x03C => some .row
  | 0x040 => some .col
  | _ => none

/-- The byte offset of a register (R30). -/
def RegId.offset : RegId → Nat
  | .cmd => 0x000
  | .status => 0x004
  | .opa => 0x008
  | .opb => 0x00C
  | .result => 0x010
  | .len => 0x014
  | .nsym => 0x018
  | .nerr => 0x01C
  | .nfound => 0x020
  | .sizeIdx => 0x024
  | .rows => 0x028
  | .cols => 0x02C
  | .dataCw => 0x030
  | .ecCw => 0x034
  | .bitidx => 0x038
  | .row => 0x03C
  | .col => 0x040

/-- The address of a memory's element 0 (R71). -/
def BufId.base : BufId → Nat
  | .msg => 0x10000
  | .gen => 0x14000
  | .syn => 0x15000
  | .loc => 0x16000
  | .eval => 0x17000
  | .pos => 0x18000
  | .mag => 0x19000
  | .grid => 0x40000

/-- The element of memory `b` at a byte address, if the address lies in b's range (R71). -/
def elemAt (b : BufId) (a : Nat) : Option Target :=
  if b.base ≤ a ∧ a < b.base + 4 * b.cap then some (.elem b ((a - b.base) / 4)) else none

/-- The eight ranges of the map above the registers, in its order (R71). -/
def mappedBuffers : List BufId := [.msg, .gen, .syn, .loc, .eval, .pos, .mag, .grid]

/-- The address map (R71): none for a misaligned (R72) or unmapped (R73) address. -/
def targetAt (addr : Addr) : Option Target :=
  if addr.toNat % 4 ≠ 0 then none
  else
    match regAt addr.toNat with
    | some r => some (.reg r)
    | none => mappedBuffers.findSome? (fun b => elemAt b addr.toNat)

/-- addr(T) of a register or element (R71; 30_encoding.md R106). -/
def Target.addr : Target → Addr
  | .reg r => BitVec.ofNat 20 r.offset
  | .elem b i => BitVec.ofNat 20 (b.base + 4 * i)

/-- The word a register read returns while BUSY = 0, and STATUS always (R30 to R33). -/
def State.readReg (s : State) : RegId → Word
  | .cmd => s.regs.cmd
  | .status => s.status.word
  | .opa => s.regs.opa
  | .opb => s.regs.opb
  | .result => s.regs.result
  | .len => s.regs.len
  | .nsym => s.regs.nsym
  | .nerr => s.regs.nerr
  | .nfound => s.regs.nfound
  | .sizeIdx => s.regs.sizeIdx
  | .rows => s.regs.rows
  | .cols => s.regs.cols
  | .dataCw => s.regs.dataCw
  | .ecCw => s.regs.ecCw
  | .bitidx => s.regs.bitidx
  | .row => s.regs.row
  | .col => s.regs.col

/-- A host write of a register while BUSY = 0 (R75): CMD accepts the word and starts its command (R31, R36),
with the free latency of this accepted command; STATUS clears HAZ (R33); an RW register stores the word
(R41); an RO register ignores it (R42). -/
def State.writeReg (s : State) (r : RegId) (v : Word) : State :=
  match r with
  | .cmd => { s.accept v (Config.execDelay s.accepted) with accepted := s.accepted + 1 }
  | .status => { s with status := s.status.hostWrite v }
  | .opa => { s with regs := { s.regs with opa := v } }
  | .opb => { s with regs := { s.regs with opb := v } }
  | .result => s
  | .len => { s with regs := { s.regs with len := v } }
  | .nsym => { s with regs := { s.regs with nsym := v } }
  | .nerr => { s with regs := { s.regs with nerr := v } }
  | .nfound => { s with regs := { s.regs with nfound := v } }
  | .sizeIdx => { s with regs := { s.regs with sizeIdx := v } }
  | .rows => { s with regs := { s.regs with rows := v } }
  | .cols => { s with regs := { s.regs with cols := v } }
  | .dataCw => s
  | .ecCw => s
  | .bitidx => { s with regs := { s.regs with bitidx := v } }
  | .row => { s with regs := { s.regs with row := v } }
  | .col => { s with regs := { s.regs with col := v } }

/-- A host read of a mapped, aligned address: MemRead of R75 while BUSY = 0; while BUSY = 1 data 0, but for
STATUS (R411). An element without a value is the fault of R46. -/
def hostRead (s : State) (t : Target) : Except Fault Word :=
  match t with
  | .reg .status => .ok s.status.word
  | .reg r => if s.status.busy then .ok 0 else .ok (s.readReg r)
  | .elem b i =>
    if s.status.busy then .ok 0
    else
      match s.mem.elem b i with
      | some v => .ok v
      | none => .error (.unwrittenRead b i)

/-- A host write of a mapped, aligned address: MemWrite of R75 while BUSY = 0; while BUSY = 1 it is dropped
and HAZ <- 1 (R410). -/
def hostWrite (s : State) (t : Target) (v : Word) : State :=
  if s.status.busy then { s with status := s.status.setHaz }
  else
    match t with
    | .reg r => s.writeReg r v
    | .elem b i => { s with mem := s.mem.setElem b i v }

/-- One operation of the outside takes effect (R70): the next one of `inputs`. With none left the block only
waits (log entry 12). A BUSERR is the fault of R74, whether or not BUSY = 1 (R412). `poll` reads STATUS and
stays the next operation while the BUSY it read is 1 (30_encoding.md R106). -/
def hostStep (s : State) : Host.Outcome State Fault Refusal :=
  match s.inputs with
  | [] => .next s
  | .reset :: rest => .next { s.afterReset with inputs := rest }
  | .read a :: rest =>
    match targetAt a with
    | none => .fault (.busError a)
    | some t =>
      match hostRead s t with
      | .error f => .fault f
      | .ok v => .next { s with inputs := rest, replies := .readOk a v :: s.replies }
  | .write a v :: rest =>
    match targetAt a with
    | none => .fault (.busError a)
    | some t =>
      .next { hostWrite s t v with inputs := rest, replies := .writeOk a :: s.replies }
  | .poll :: rest =>
    .next { s with
      inputs := if s.status.busy then s.inputs else rest
      replies := .readOk (Target.reg .status).addr s.status.word :: s.replies }

end Sys2Proof.Machine
end

