-- ==== Sys2Proof/Machine/SizeTable.lean ====
section
/-! DEFINITION. SIZE_TABLE, the ROM of the 30 symbol sizes (43_geometry.md R250). The values are the spec's
default for this parameter, which it marks as general knowledge: PRESUMED, log entry 7. -/

namespace Sys2Proof.Machine

/-- SymbolSize, "immutable tuple (rows, cols, data_cw, ec_cw)" (00_scope.md R16). -/
structure SymbolSize where
  rows : Nat
  cols : Nat
  dataCw : Nat
  ecCw : Nat
  deriving DecidableEq, Repr

/-- SIZE_TABLE, indexes 0 to 29 (R250). -/
def sizeTable : List SymbolSize :=
  [ ⟨10, 10, 3, 5⟩, ⟨12, 12, 5, 7⟩, ⟨8, 18, 5, 7⟩, ⟨14, 14, 8, 10⟩, ⟨8, 32, 10, 11⟩ ] ++
  [ ⟨16, 16, 12, 12⟩, ⟨12, 26, 16, 14⟩, ⟨18, 18, 18, 14⟩, ⟨20, 20, 22, 18⟩, ⟨12, 36, 22, 18⟩ ] ++
  [ ⟨22, 22, 30, 20⟩, ⟨16, 36, 32, 24⟩, ⟨24, 24, 36, 24⟩, ⟨26, 26, 44, 28⟩, ⟨16, 48, 49, 28⟩ ] ++
  [ ⟨32, 32, 62, 36⟩, ⟨36, 36, 86, 42⟩, ⟨40, 40, 114, 48⟩, ⟨44, 44, 144, 56⟩, ⟨48, 48, 174, 68⟩ ] ++
  [ ⟨52, 52, 204, 84⟩, ⟨64, 64, 280, 112⟩, ⟨72, 72, 368, 144⟩, ⟨80, 80, 456, 192⟩, ⟨88, 88, 576, 224⟩ ] ++
  [ ⟨96, 96, 696, 272⟩, ⟨104, 104, 816, 336⟩, ⟨120, 120, 1050, 408⟩, ⟨132, 132, 1304, 496⟩,
    ⟨144, 144, 1558, 620⟩ ]

/-- SIZE_TABLE[i]. Every reader has checked i <= 29; past the end there is no entry, and the value given
there is never used. -/
def sizeAt (i : Nat) : SymbolSize := sizeTable.getD i ⟨0, 0, 0, 0⟩

/-- N = data_cw + ec_cw, the codewords of a symbol (30_encoding.md R104). -/
def SymbolSize.codewords (e : SymbolSize) : Nat := e.dataCw + e.ecCw

/-- The bit budget B = (data_cw + ec_cw) * 8 (44_placement.md R291). -/
def SymbolSize.budget (e : SymbolSize) : Nat := 8 * e.codewords

/-- The interior size I = (rows - 2) * (cols - 2) (44_placement.md R291). -/
def SymbolSize.interior (e : SymbolSize) : Nat := (e.rows - 2) * (e.cols - 2)

end Sys2Proof.Machine
end

