-- ==== Sys2Proof/Machine/Operands.lean ====
section
/-! DEFINITION. Every operand form of 30_encoding.md R104 and R105: a register as an unsigned number with its
range check, an element of a buffer, a run of elements, an entry of SIZE_TABLE. -/

namespace Sys2Proof.Machine

/-- `if c: raise Error(k)`. -/
def raiseIf (c : Bool) (k : ErrorKind) : Except Stop Unit :=
  if c then .error (.raise k) else .ok ()

/-- A field-element operand: `if w > 255: raise Error(BAD_PARAMETER)`, then w[7:0] (R105; 40_gf256.md R140). -/
def byteOperand (w : Word) : Except Stop Byte :=
  if w.toNat > 255 then .error (.raise .badParameter) else .ok (w.setWidth 8)

/-- NSYM in 1..NSYM_MAX, else BAD_PARAMETER (41_rs_encode.md R180). -/
def nsymOperand (s : State) : Except Stop Nat :=
  if s.regs.nsym.toNat < 1 ∨ s.regs.nsym.toNat > Config.nsymMax then .error (.raise .badParameter)
  else .ok s.regs.nsym.toNat

/-- `rs_check()`: NSYM in 1..1023, then NSYM <= LEN <= 4096; answers (LEN, NSYM) (41_rs_encode.md R176). -/
def rsCheck (s : State) : Except Stop (Nat × Nat) := do
  let nsym ← nsymOperand s
  if s.regs.len.toNat < nsym ∨ s.regs.len.toNat > Config.msgCap then .error (.raise .badParameter)
  else .ok (s.regs.len.toNat, nsym)

/-- `if SIZE_IDX > 29: raise Error(BAD_PARAMETER)`, then the entry SIZE_TABLE[SIZE_IDX]
(43_geometry.md R262; `place_check()` of 44_placement.md section 3). -/
def sizeOperand (s : State) : Except Stop SymbolSize :=
  if s.regs.sizeIdx.toNat > 29 then .error (.raise .badParameter)
  else .ok (sizeAt s.regs.sizeIdx.toNat)

/-- `BUF[i]`: the element's value, or the stop of R46 where nothing has written it. `b` names the buffer
that `buf` is. -/
def readElem {w : Nat} (b : BufId) (buf : Buffer w) (i : Nat) : Except Stop (BitVec w) :=
  match Buffer.read buf i with
  | some v => .ok v
  | none => .error (.unwritten b i)

/-- `f i`, `f (i+1)`, ..., `n` of them in that order, ending at the first that stops. -/
def collect {α : Type} (f : Nat → Except Stop α) (i : Nat) : Nat → Except Stop (List α)
  | 0 => .ok []
  | n + 1 => do
    let v ← f i
    let vs ← collect f (i + 1) n
    .ok (v :: vs)

/-- `BUF[i..i+n-1]`, read in ascending order. -/
def readRange {w : Nat} (b : BufId) (buf : Buffer w) (i n : Nat) : Except Stop (List (BitVec w)) :=
  collect (readElem b buf) i n

end Sys2Proof.Machine
end

