-- ==== Sys2Proof/Machine/Control.lean ====
section
/-! DEFINITION. The control command (45_control.md). -/

namespace Sys2Proof.Machine

/-- NOP (R320): complete without effect. -/
def execNop (s : State) : Host.Outcome State Fault Refusal := runCommand s (.ok s)

end Sys2Proof.Machine
end

