-- ==== Sys2Proof/Machine/Geometry.lean ====
section
/-! DEFINITION. The geometry commands (43_geometry.md): size selection and lookup, the finder pattern,
GEO_SELECT, GEO_LOOKUP, GEO_INFO, GRID_INIT, GEO_CLASSIFY. -/

namespace Sys2Proof.Machine

/-- `select(k)`: the first entry with data_cw >= k (R252). -/
def selectSize (k : Nat) : Except Stop Nat :=
  match sizeTable.findIdx? (fun e => decide (e.dataCw ≥ k)) with
  | some i => .ok i
  | none => .error (.raise .dataTooLong)

/-- `lookup(rows, cols)`: the entry with these dimensions (R253). -/
def lookupSize (rows cols : Nat) : Except Stop Nat :=
  match sizeTable.findIdx? (fun e => decide (e.rows = rows ∧ e.cols = cols)) with
  | some i => .ok i
  | none => .error (.raise .unsupportedSymbolSize)

/-- `finder(r, c)`: (is_finder, value) of a cell of a symbol rows x cols (R255). -/
def finder (rows cols r c : Nat) : Bool × Bool :=
  if r = rows - 1 then (true, true)
  else if c = 0 then (true, true)
  else if r = 0 then (true, c % 2 = 0)
  else if c = cols - 1 then (true, (r + 1) % 2 = 0)
  else (false, false)

/-- SIZE_IDX <- i. -/
def Regs.setSizeIdx (i : Nat) (g : Regs) : Regs := { g with sizeIdx := BitVec.ofNat 32 i }

/-- ROWS, COLS <- the entry's dimensions. -/
def Regs.setDims (e : SymbolSize) (g : Regs) : Regs :=
  { g with rows := BitVec.ofNat 32 e.rows, cols := BitVec.ofNat 32 e.cols }

/-- DATA_CW, EC_CW <- the entry's codeword counts. -/
def Regs.setCounts (e : SymbolSize) (g : Regs) : Regs :=
  { g with dataCw := BitVec.ofNat 32 e.dataCw, ecCw := BitVec.ofNat 32 e.ecCw }

/-- GEO_SELECT (R260): the smallest symbol for OPA data codewords. -/
def execGeoSelect (s : State) : Host.Outcome State Fault Refusal :=
  runCommand s (do
    let i ← selectSize s.regs.opa.toNat
    .ok { s with regs := ((s.regs.setSizeIdx i).setDims (sizeAt i)).setCounts (sizeAt i) })

/-- GEO_LOOKUP (R261): the entry of the dimensions in ROWS and COLS, which stay. -/
def execGeoLookup (s : State) : Host.Outcome State Fault Refusal :=
  runCommand s (do
    let i ← lookupSize s.regs.rows.toNat s.regs.cols.toNat
    .ok { s with regs := (s.regs.setSizeIdx i).setCounts (sizeAt i) })

/-- GEO_INFO (R262): the registers of the entry SIZE_IDX. -/
def execGeoInfo (s : State) : Host.Outcome State Fault Refusal :=
  runCommand s (do
    let e ← sizeOperand s
    .ok { s with regs := (s.regs.setDims e).setCounts e })

/-- The value GRID_INIT gives GRID[r][c]: the finder value of a finder module of the symbol, else 0; cells
outside the symbol are 0 too (R263). -/
def gridInitModule (e : SymbolSize) (r c : Nat) : Module :=
  if r < e.rows ∧ c < e.cols then
    (if (finder e.rows e.cols r c).1 then BitVec.ofBool (finder e.rows e.cols r c).2 else 0)
  else 0

/-- GRID_INIT (R263): every cell of the 144 x 144 memory gets a value. -/
def execGridInit (s : State) : Host.Outcome State Fault Refusal :=
  runCommand s (do
    let e ← sizeOperand s
    .ok { s with
      mem := { s.mem with
        grid := Buffer.fill (Config.gridDim * Config.gridDim)
          (fun i => gridInitModule e (i / Config.gridDim) (i % Config.gridDim)) } })

/-- The class { (1 - f), v, f } of a module: bit 2 data, bit 1 finder value, bit 0 finder (R264). -/
def classOf (fv : Bool × Bool) : Word :=
  (BitVec.ofBool (!fv.1) ++ BitVec.ofBool fv.2 ++ BitVec.ofBool fv.1).setWidth 32

/-- GEO_CLASSIFY (R264): the class of the module (ROW, COL) of the entry SIZE_IDX. -/
def execGeoClassify (s : State) : Host.Outcome State Fault Refusal :=
  runCommand s (do
    let e ← sizeOperand s
    raiseIf (s.regs.row.toNat ≥ e.rows || s.regs.col.toNat ≥ e.cols) .badParameter
    .ok (s.setResult (classOf (finder e.rows e.cols s.regs.row.toNat s.regs.col.toNat))))

end Sys2Proof.Machine
end

