-- ==== Sys2Proof/Machine/Field.lean ====
section
/-! DEFINITION. GF(256): the ROMs EXP and LOG and the field functions (40_gf256.md R130 to R139). The ROMs'
contents are fixed by R131's construction; Laws/Field.lean proves that these rows are that construction. -/

namespace Sys2Proof.Machine

/-- The contents of the EXP ROM, 512 entries of 8 bits, 16 a row (R131). EXP[511] = EXP[1] = 2. -/
def expRows : List (List Nat) :=
  [ [1, 2, 4, 8, 16, 32, 64, 128, 45, 90, 180, 69, 138, 57, 114, 228],
    [229, 231, 227, 235, 251, 219, 155, 27, 54, 108, 216, 157, 23, 46, 92, 184],
    [93, 186, 89, 178, 73, 146, 9, 18, 36, 72, 144, 13, 26, 52, 104, 208],
    [141, 55, 110, 220, 149, 7, 14, 28, 56, 112, 224, 237, 247, 195, 171, 123],
    [246, 193, 175, 115, 230, 225, 239, 243, 203, 187, 91, 182, 65, 130, 41, 82],
    [164, 101, 202, 185, 95, 190, 81, 162, 105, 210, 137, 63, 126, 252, 213, 135],
    [35, 70, 140, 53, 106, 212, 133, 39, 78, 156, 21, 42, 84, 168, 125, 250],
    [217, 159, 19, 38, 76, 152, 29, 58, 116, 232, 253, 215, 131, 43, 86, 172] ] ++
  [ [117, 234, 249, 223, 147, 11, 22, 44, 88, 176, 77, 154, 25, 50, 100, 200],
    [189, 87, 174, 113, 226, 233, 255, 211, 139, 59, 118, 236, 245, 199, 163, 107],
    [214, 129, 47, 94, 188, 85, 170, 121, 242, 201, 191, 83, 166, 97, 194, 169],
    [127, 254, 209, 143, 51, 102, 204, 181, 71, 142, 49, 98, 196, 165, 103, 206],
    [177, 79, 158, 17, 34, 68, 136, 61, 122, 244, 197, 167, 99, 198, 161, 111],
    [222, 145, 15, 30, 60, 120, 240, 205, 183, 67, 134, 33, 66, 132, 37, 74],
    [148, 5, 10, 20, 40, 80, 160, 109, 218, 153, 31, 62, 124, 248, 221, 151],
    [3, 6, 12, 24, 48, 96, 192, 173, 119, 238, 241, 207, 179, 75, 150, 1] ] ++
  [ [2, 4, 8, 16, 32, 64, 128, 45, 90, 180, 69, 138, 57, 114, 228, 229],
    [231, 227, 235, 251, 219, 155, 27, 54, 108, 216, 157, 23, 46, 92, 184, 93],
    [186, 89, 178, 73, 146, 9, 18, 36, 72, 144, 13, 26, 52, 104, 208, 141],
    [55, 110, 220, 149, 7, 14, 28, 56, 112, 224, 237, 247, 195, 171, 123, 246],
    [193, 175, 115, 230, 225, 239, 243, 203, 187, 91, 182, 65, 130, 41, 82, 164],
    [101, 202, 185, 95, 190, 81, 162, 105, 210, 137, 63, 126, 252, 213, 135, 35],
    [70, 140, 53, 106, 212, 133, 39, 78, 156, 21, 42, 84, 168, 125, 250, 217],
    [159, 19, 38, 76, 152, 29, 58, 116, 232, 253, 215, 131, 43, 86, 172, 117] ] ++
  [ [234, 249, 223, 147, 11, 22, 44, 88, 176, 77, 154, 25, 50, 100, 200, 189],
    [87, 174, 113, 226, 233, 255, 211, 139, 59, 118, 236, 245, 199, 163, 107, 214],
    [129, 47, 94, 188, 85, 170, 121, 242, 201, 191, 83, 166, 97, 194, 169, 127],
    [254, 209, 143, 51, 102, 204, 181, 71, 142, 49, 98, 196, 165, 103, 206, 177],
    [79, 158, 17, 34, 68, 136, 61, 122, 244, 197, 167, 99, 198, 161, 111, 222],
    [145, 15, 30, 60, 120, 240, 205, 183, 67, 134, 33, 66, 132, 37, 74, 148],
    [5, 10, 20, 40, 80, 160, 109, 218, 153, 31, 62, 124, 248, 221, 151, 3],
    [6, 12, 24, 48, 96, 192, 173, 119, 238, 241, 207, 179, 75, 150, 1, 2] ]

/-- The contents of the LOG ROM, 256 entries of 8 bits, 16 a row (R131, R132). LOG[0] = 0; no rule reads it. -/
def logRows : List (List Nat) :=
  [ [0, 0, 1, 240, 2, 225, 241, 53, 3, 38, 226, 133, 242, 43, 54, 210],
    [4, 195, 39, 114, 227, 106, 134, 28, 243, 140, 44, 23, 55, 118, 211, 234],
    [5, 219, 196, 96, 40, 222, 115, 103, 228, 78, 107, 125, 135, 8, 29, 162],
    [244, 186, 141, 180, 45, 99, 24, 49, 56, 13, 119, 153, 212, 199, 235, 91],
    [6, 76, 220, 217, 197, 11, 97, 184, 41, 36, 223, 253, 116, 138, 104, 193],
    [229, 86, 79, 171, 108, 165, 126, 145, 136, 34, 9, 74, 30, 32, 163, 84],
    [245, 173, 187, 204, 142, 81, 181, 190, 46, 88, 100, 159, 25, 231, 50, 207],
    [57, 147, 14, 67, 120, 128, 154, 248, 213, 167, 200, 63, 236, 110, 92, 176] ] ++
  [ [7, 161, 77, 124, 221, 102, 218, 95, 198, 90, 12, 152, 98, 48, 185, 179],
    [42, 209, 37, 132, 224, 52, 254, 239, 117, 233, 139, 22, 105, 27, 194, 113],
    [230, 206, 87, 158, 80, 189, 172, 203, 109, 175, 166, 62, 127, 247, 146, 66],
    [137, 192, 35, 252, 10, 183, 75, 216, 31, 83, 33, 73, 164, 144, 85, 170],
    [246, 65, 174, 61, 188, 202, 205, 157, 143, 169, 82, 72, 182, 215, 191, 251],
    [47, 178, 89, 151, 101, 94, 160, 123, 26, 112, 232, 21, 51, 238, 208, 131],
    [58, 69, 148, 18, 15, 16, 68, 17, 121, 149, 129, 19, 155, 59, 249, 70],
    [214, 250, 168, 71, 201, 156, 64, 60, 237, 130, 111, 20, 93, 122, 177, 150] ]

/-- EXP[i], i in 0..511 (R131). -/
def gexp (i : Nat) : Byte := BitVec.ofNat 8 ((expRows.getD (i / 16) []).getD (i % 16) 0)

/-- LOG[x], x in 0..255 (R132), as a number. -/
def glog (x : Byte) : Nat := (logRows.getD (x.toNat / 16) []).getD (x.toNat % 16) 0

/-- One step of R131's construction, multiplication by the element x: shift left, and if bit 8 is set, xor
with 0x12D (R130). -/
def xtime (x : Byte) : Byte :=
  let y := x.toNat * 2
  BitVec.ofNat 8 (if y ≥ 256 then y ^^^ Config.primPoly else y)

/-- Addition, and subtraction: exclusive-or (R134). -/
def gadd (a b : Byte) : Byte := a ^^^ b

/-- Multiplication (R135). -/
def gmul (a b : Byte) : Byte :=
  if a = 0 ∨ b = 0 then 0 else gexp ((glog a + glog b) % 255)

/-- The quotient of R136 for a divisor that is not 0: 0 for the dividend 0, else
EXP[(LOG[a] + 255 - LOG[b]) mod 255]. Used where the divisor has been shown not to be 0. -/
def gquot (a b : Byte) : Byte :=
  if a = 0 then 0 else gexp ((glog a + 255 - glog b) % 255)

/-- Division (R136): the divisor is tested first, so 0 / 0 raises DIVISION_BY_ZERO too. -/
def gdiv (a b : Byte) : Except Stop Byte :=
  if b = 0 then .error (.raise .divisionByZero) else .ok (gquot a b)

/-- Power, for a natural exponent; power(0, 0) = 1 (R137). -/
def gpow (a : Byte) (n : Nat) : Byte :=
  if a = 0 then (if n = 0 then 1 else 0) else gexp (glog a * n % 255)

/-- `α^e` = EXP[e mod 255] (R139; 00_scope.md R13). -/
def alphaPow (e : Nat) : Byte := gexp (e % 255)

/-- `α^(-e)` = EXP[(255 - (e mod 255)) mod 255] (R139). -/
def alphaInv (e : Nat) : Byte := gexp ((255 - e % 255) % 255)

end Sys2Proof.Machine
end

