-- ==== Sys2Proof/Machine/Gf.lean ====
section
/-! DEFINITION. The six GF commands (40_gf256.md section 4). Each writes RESULT on success and nothing else. -/

namespace Sys2Proof.Machine

/-- GF_ADD (R140). -/
def execGfAdd (s : State) : Host.Outcome State Fault Refusal :=
  runCommand s (do
    let a ← byteOperand s.regs.opa
    let b ← byteOperand s.regs.opb
    .ok (s.setResult ((gadd a b).setWidth 32)))

/-- GF_MUL (R141). -/
def execGfMul (s : State) : Host.Outcome State Fault Refusal :=
  runCommand s (do
    let a ← byteOperand s.regs.opa
    let b ← byteOperand s.regs.opb
    .ok (s.setResult ((gmul a b).setWidth 32)))

/-- GF_DIV (R142): both operands' ranges first, then the divisor. -/
def execGfDiv (s : State) : Host.Outcome State Fault Refusal :=
  runCommand s (do
    let a ← byteOperand s.regs.opa
    let b ← byteOperand s.regs.opb
    let q ← gdiv a b
    .ok (s.setResult (q.setWidth 32)))

/-- GF_POW (R143): the exponent is the whole 32-bit OPB. -/
def execGfPow (s : State) : Host.Outcome State Fault Refusal :=
  runCommand s (do
    let a ← byteOperand s.regs.opa
    .ok (s.setResult ((gpow a s.regs.opb.toNat).setWidth 32)))

/-- GF_EXP (R144): EXP[OPA], OPA at most 511. -/
def execGfExp (s : State) : Host.Outcome State Fault Refusal :=
  runCommand s (do
    raiseIf (s.regs.opa.toNat > 511) .badParameter
    .ok (s.setResult ((gexp s.regs.opa.toNat).setWidth 32)))

/-- GF_LOG (R145): LOG[OPA], OPA in 1..255. -/
def execGfLog (s : State) : Host.Outcome State Fault Refusal :=
  runCommand s (do
    raiseIf (s.regs.opa.toNat = 0 || s.regs.opa.toNat > 255) .badParameter
    .ok (s.setResult (BitVec.ofNat 32 (glog (s.regs.opa.setWidth 8)))))

end Sys2Proof.Machine
end

