-- ==== Sys2Proof/Machine/Placement.lean ====
section
/-! DEFINITION. Bit placement (44_placement.md): the bit order, the traversal and its closed form,
PLACE_WRITE, PLACE_READ, PLACE_MAP, PLACE_UNMAP. -/

namespace Sys2Proof.Machine

/-- The cells of one row pair (y, y-1), right to left, each column's y first, that lie strictly inside the
finder border: the body of R292's outer loop. `x` counts the columns still to visit. -/
def traversePair (rows cols y : Nat) : Nat → List (Nat × Nat)
  | 0 => []
  | x + 1 =>
    ([(y, x), (y - 1, x)].filter
      (fun p => 1 ≤ p.2 && p.2 ≤ cols - 2 && 1 ≤ p.1 && p.1 ≤ rows - 2)) ++
    traversePair rows cols y x

/-- R292's outer loop: y = rows-2, rows-4, ... down to 1; `fuel` bounds the number of row pairs. -/
def traverseFrom (rows cols : Nat) : Nat → Nat → List (Nat × Nat)
  | 0, _ => []
  | fuel + 1, y =>
    if y ≥ 1 then traversePair rows cols y cols ++ traverseFrom rows cols fuel (y - 2) else []

/-- `traversal(rows, cols)`: the cells, row first, in the order the source's loop visits them (R292). -/
def traversal (rows cols : Nat) : List (Nat × Nat) := traverseFrom rows cols rows (rows - 2)

/-- `cell(k)`, the closed form of the traversal (R293): the module of bit index k, row first. -/
def cellOf (e : SymbolSize) (k : Nat) : Nat × Nat :=
  let w := e.cols - 2
  let q := k / (2 * w)
  let t := k % (2 * w)
  (e.rows - 2 - 2 * q - t % 2, e.cols - 2 - t / 2)

/-- `index(r, c)`, for an interior cell (R293). -/
def indexOf (e : SymbolSize) (r c : Nat) : Nat :=
  let q := (e.rows - 2 - r - r % 2) / 2
  2 * (e.cols - 2) * q + 2 * (e.cols - 2 - c) + r % 2

/-- Bit k of the stream of the codewords `d`: bit 7 - (k mod 8) of codeword k div 8 (R290). -/
def streamBit (d : List Byte) (k : Nat) : Module :=
  BitVec.ofBool ((d.getD (k / 8) 0).getLsbD (7 - k % 8))

/-- The number of cells a symbol's placement writes: min(B, I) (R300). -/
def SymbolSize.placed (e : SymbolSize) : Nat := min e.budget e.interior

/-- The cell of GRID that bit index k goes to. -/
def placeIndex (e : SymbolSize) (k : Nat) : Nat := gridIndex (cellOf e k).1 (cellOf e k).2

/-- Write the bits k, k+1, ..., `n` of them, into the grid (R300). -/
def placeBits (e : SymbolSize) (d : List Byte) (k : Nat) : Nat → Buffer 1 → Buffer 1
  | 0, g => g
  | n + 1, g => placeBits e d (k + 1) n (Buffer.write g (placeIndex e k) (streamBit d k))

/-- PLACE_WRITE (R300): bits 0..min(B, I)-1 of the message into the first cells of the traversal. The
codewords read are those with a bit below min(B, I): MSG[0..N-1] for every entry of SIZE_TABLE. -/
def execPlaceWrite (s : State) : Host.Outcome State Fault Refusal :=
  runCommand s (do
    let e ← sizeOperand s
    let d ← readRange .msg s.mem.msg 0 ((e.placed + 7) / 8)
    .ok { s with mem := { s.mem with grid := placeBits e d 0 e.placed s.mem.grid } })

/-- Bit index k as PLACE_READ reads it: GRID[cell(k)] if k < I, else 0 (R301). -/
def gridBit (e : SymbolSize) (g : Buffer 1) (k : Nat) : Except Stop Module :=
  if k < e.interior then readElem .grid g (placeIndex e k) else .ok 0

/-- v <- v | (bit << (7 - j)) for j = 0..7, from v = 0 (R301). -/
def packByte (bits : List Module) : Byte :=
  bits.zipIdx.foldl (fun (v : Byte) p => v ||| ((p.1.setWidth 8 : Byte) <<< (7 - p.2))) 0

/-- Codeword i as PLACE_READ reads it: bits 8i..8i+7, most significant first (R301). -/
def gridCodeword (e : SymbolSize) (g : Buffer 1) (i : Nat) : Except Stop Byte := do
  let bits ← collect (gridBit e g) (8 * i) 8
  .ok (packByte bits)

/-- PLACE_READ (R301): MSG[0..N-1] from the grid. -/
def execPlaceRead (s : State) : Host.Outcome State Fault Refusal :=
  runCommand s (do
    let e ← sizeOperand s
    let d ← collect (gridCodeword e s.mem.grid) 0 e.codewords
    .ok { s with mem := { s.mem with msg := Buffer.writeRange s.mem.msg 0 d } })

/-- PLACE_MAP (R302): (ROW, COL) <- cell(BITIDX), BITIDX below min(B, I). -/
def execPlaceMap (s : State) : Host.Outcome State Fault Refusal :=
  runCommand s (do
    let e ← sizeOperand s
    raiseIf (s.regs.bitidx.toNat ≥ e.placed) .badParameter
    let rc := cellOf e s.regs.bitidx.toNat
    .ok { s with
      regs := { s.regs with row := BitVec.ofNat 32 rc.1, col := BitVec.ofNat 32 rc.2 } })

/-- PLACE_UNMAP (R303): BITIDX <- index(ROW, COL) of an interior cell, RESULT <- 1 if it is below B. -/
def execPlaceUnmap (s : State) : Host.Outcome State Fault Refusal :=
  runCommand s (do
    let e ← sizeOperand s
    let r := s.regs.row.toNat
    let c := s.regs.col.toNat
    raiseIf (r < 1 || r > e.rows - 2 || c < 1 || c > e.cols - 2) .badParameter
    let k := indexOf e r c
    .ok { s with
      regs := { s.regs with
        bitidx := BitVec.ofNat 32 k
        result := if k < e.budget then 1 else 0 } })

end Sys2Proof.Machine
end

