-- ==== Sys2Proof/Machine/RsCode.lean ====
section
/-! DEFINITION. The Reed-Solomon functions the RS commands run on plain lists of codewords: generator
polynomial, systematic encoding, syndromes (41_rs_encode.md section 1), Berlekamp-Massey, evaluator, Chien
search and Forney (42_rs_decode.md section 1). Array element i of the spec is list element i. -/

namespace Sys2Proof.Machine

/-- Multiply a polynomial stored high-order first by (x + r): R170's loop body. Coefficient j becomes
G[j] xor G[j-1]*r, the new last one G[i-1]*r, and G[0] stays. -/
def mulRoot (g : List Byte) (r : Byte) : List Byte :=
  List.zipWith (fun x y => x ^^^ y) (g ++ [0]) (0 :: g.map (fun c => gmul c r))

/-- `genpoly(nsym)`: the product of (x + α^i) for i = 1..nsym, high-order first (R170). -/
def genpoly : Nat → List Byte
  | 0 => [1]
  | n + 1 => mulRoot (genpoly n) (alphaPow (n + 1))

/-- Xor `p` into the front of `m`, as far as both reach. -/
def xorFront : List Byte → List Byte → List Byte
  | [], m => m
  | _ :: _, [] => []
  | x :: p, y :: m => (y ^^^ x) :: xorFront p m

/-- R171's elimination loop, `k` rounds: take the current leading value c off, and if c is not 0 xor
G[j]*c, j = 1..nsym, into the next nsym values. `gTail` is G[1..nsym]. -/
def longDivision (gTail : List Byte) : Nat → List Byte → List Byte
  | 0, m => m
  | _ + 1, [] => []
  | k + 1, c :: m =>
    longDivision gTail k (if c = 0 then m else xorFront (gTail.map (fun g => gmul g c)) m)

/-- `rs_remainder(D, nsym)`: the error-correction codewords of the data D (R171). -/
def rsRemainder (d : List Byte) (nsym : Nat) : List Byte :=
  longDivision (genpoly nsym).tail d.length (d ++ List.replicate nsym 0)

/-- `syndrome(MSG, i)`: the message polynomial at α^i, by Horner's rule (R172). -/
def syndrome (m : List Byte) (i : Nat) : Byte :=
  m.foldl (fun s c => gmul s (alphaPow i) ^^^ c) 0

/-- S_1, ..., S_nsym (R172, R182). -/
def syndromes (m : List Byte) (nsym : Nat) : List Byte :=
  (List.range nsym).map (fun i => syndrome m (i + 1))

/-- Every syndrome is 0. -/
def allZero (s : List Byte) : Bool := s.all (fun v => v == 0)

/-- `peval_lo(Q, d, x)`: Q[0] + Q[1]x + ... + Q[d]x^d by Horner's rule (00_scope.md R14). -/
def pevalLo (q : List Byte) (d : Nat) (x : Byte) : Byte :=
  (q.take (d + 1)).foldr (fun c r => gmul r x ^^^ c) 0

/-- The variables of Berlekamp-Massey (R201). -/
structure BmState where
  c : List Byte
  b : List Byte
  l : Nat
  m : Nat
  delta : Byte
  deriving DecidableEq, Repr

/-- The discrepancy of round r: S[r] xor C[i]*S[r-i], i = 1..L (R201). -/
def discrepancy (s : List Byte) (c : List Byte) (l r : Nat) : Byte :=
  (List.range l).foldl (fun d k => d ^^^ gmul (c.getD (k + 1) 0) (s.getD (r - (k + 1)) 0)) (s.getD r 0)

/-- `for i in 0..N-m: C[i+m] <- C[i+m] xor q*B[i]` on arrays of N+1 elements; nothing when m > N (R201). -/
def xorShifted (c : List Byte) (m : Nat) (q : Byte) (b : List Byte) : List Byte :=
  List.zipWith (fun x y => x ^^^ y) c (List.replicate m 0 ++ b.map (fun v => gmul q v))

/-- Round r of Berlekamp-Massey (R201). `delta` is the spec's b, which is never 0. -/
def bmRound (s : List Byte) (r : Nat) (t : BmState) : BmState :=
  let d := discrepancy s t.c t.l r
  if d = 0 then { t with m := t.m + 1 }
  else if 2 * t.l ≤ r then
    { c := xorShifted t.c t.m (gquot d t.delta) t.b, b := t.c, l := r + 1 - t.l, m := 1, delta := d }
  else
    { t with c := xorShifted t.c t.m (gquot d t.delta) t.b, m := t.m + 1 }

/-- The values of Berlekamp-Massey's variables before round 0, for N syndromes (R201). -/
def bmStart (n : Nat) : BmState :=
  { c := 1 :: List.replicate n 0, b := 1 :: List.replicate n 0, l := 0, m := 1, delta := 1 }

/-- `bm(S)`: the variables after rounds 0..N-1, N = |S| (R201). The results are C[0..N] and L. -/
def bm (s : List Byte) : BmState :=
  (List.range s.length).foldl (fun t r => bmRound s r t) (bmStart s.length)

/-- `evaluator(S, C, L)`: W[i] = the sum of C[j]*S[i-j] over j = 0..min(i, L), for i < N = |S| (R202). -/
def evaluator (s c : List Byte) (l : Nat) : List Byte :=
  (List.range s.length).map (fun i =>
    (List.range (min i l + 1)).foldl (fun w j => w ^^^ gmul (c.getD j 0) (s.getD (i - j) 0)) 0)

/-- deg(p) = n - 1 - p (00_scope.md R15). -/
def degOf (n p : Nat) : Nat := n - 1 - p

/-- The Chien search: the positions p < n, ascending, where the polynomial q of degree at most l is 0 at
α^(-deg(p)) (R203). -/
def chien (q : List Byte) (l n : Nat) : List Nat :=
  (List.range n).filter (fun p => pevalLo q l (alphaInv (degOf n p)) == 0)

/-- The odd numbers i with 1 <= i <= l, ascending. -/
def oddsUpTo (l : Nat) : List Nat := (List.range ((l + 1) / 2)).map (fun j => 2 * j + 1)

/-- `dpeval(Q, L, x)`: the formal derivative, the sum of Q[i]*x^(i-1) over odd i <= L (R204). -/
def dpeval (q : List Byte) (l : Nat) (x : Byte) : Byte :=
  (oddsUpTo l).foldl (fun d i => d ^^^ gmul (q.getD i 0) (gpow x (i - 1))) 0

/-- The Forney corrections of RS_CORRECT at the positions `ps` of the message `m`: M[p] <- M[p] xor e_p, or
none where a denominator is 0 (R204, R213). -/
def forneyApply (c w : List Byte) (l nsym n : Nat) : List Nat → List Byte → Option (List Byte)
  | [], m => some m
  | p :: ps, m =>
    let xi := alphaInv (degOf n p)
    let den := dpeval c l xi
    if den = 0 then none
    else
      forneyApply c w l nsym n ps
        (m.set p (m.getD p 0 ^^^ gquot (pevalLo w (nsym - 1) xi) den))

/-- RS_CORRECT for syndromes `s` of `m` that are not all 0: the number of errors and the corrected message,
or none for UNCORRECTABLE, in the order of R213's pseudocode with its four validations (R205). -/
def correctErrors (m s : List Byte) (nsym : Nat) : Option (Nat × List Byte) :=
  let n := m.length
  if n > 255 then none
  else
    let t := bm s
    if t.l > nsym / 2 then none
    else
      let ps := chien t.c t.l n
      if ps.length ≠ t.l then none
      else
        match forneyApply t.c (evaluator s t.c t.l) t.l nsym n ps m with
        | none => none
        | some m' => if allZero (syndromes m' nsym) then some (t.l, m') else none

/-- Trial number k of the reduced mode: bit k mod 8 of position k div 8 flipped, so positions come first,
ascending, and then bits 0 to 7 (R214). -/
def bitflipTrial (m : List Byte) (k : Nat) : List Byte :=
  m.set (k / 8) (m.getD (k / 8) 0 ^^^ (1#8 <<< (k % 8)))

/-- The first trial whose syndromes are all 0 (R214). -/
def bitflipSearch (m : List Byte) (nsym : Nat) : Option Nat :=
  (List.range (8 * m.length)).find? (fun k => allZero (syndromes (bitflipTrial m k) nsym))

end Sys2Proof.Machine
end

