-- ==== Sys2Proof/Machine/RsDecode.lean ====
section
/-! DEFINITION. RS_LOCATOR, RS_CHIEN, RS_FORNEY, RS_CORRECT and RS_CORRECT_BITFLIP (42_rs_decode.md
section 2). A buffer element is read exactly where the pseudocode reads it (log entry 5). -/

namespace Sys2Proof.Machine

/-- RS_LOCATOR (R210): LOC[0..NSYM], EVAL[0..NSYM-1] and NERR from SYN[0..NSYM-1]. -/
def execRsLocator (s : State) : Host.Outcome State Fault Refusal :=
  runCommand s (do
    let nsym ← nsymOperand s
    let syn ← readRange .syn s.mem.syn 0 nsym
    let t := bm syn
    raiseIf (t.l > nsym / 2) .uncorrectable
    .ok { s with
      regs := { s.regs with nerr := BitVec.ofNat 32 t.l }
      mem := { s.mem with
        loc := Buffer.writeRange s.mem.loc 0 t.c
        eval := Buffer.writeRange s.mem.eval 0 (evaluator syn t.c t.l) } })

/-- RS_CHIEN (R211): POS[0..NFOUND-1] and NFOUND from LOC[0..NERR]. With LEN = 0 the loop runs zero times
and reads no element. -/
def execRsChien (s : State) : Host.Outcome State Fault Refusal :=
  runCommand s (do
    let n := s.regs.len.toNat
    let l := s.regs.nerr.toNat
    raiseIf (n > Config.msgCap || l > Config.nsymMax) .badParameter
    let q ← readRange .loc s.mem.loc 0 (if n = 0 then 0 else l + 1)
    let ps := chien q l n
    raiseIf (ps.length ≠ l) .uncorrectable
    .ok { s with
      regs := { s.regs with nfound := BitVec.ofNat 32 ps.length }
      mem := { s.mem with
        pos := Buffer.writeRange s.mem.pos 0 (ps.map (fun p => BitVec.ofNat 16 p)) } })

/-- `dpeval(LOC, NERR, x)` on the buffer: only the odd elements of LOC are read (R204). -/
def dpevalLoc (loc : Buffer 8) (x : Byte) : List Nat → Byte → Except Stop Byte
  | [], d => .ok d
  | i :: is, d => do
    let q ← readElem .loc loc i
    dpevalLoc loc x is (d ^^^ gmul q (gpow x (i - 1)))

/-- RS_FORNEY's loop over the positions `ps` (R212): `m` is the scratch copy of MSG; answers it and the
magnitudes E[k], in k order. -/
def forneyLoop (s : State) (n l nsym : Nat) :
    List Nat → Buffer 8 → Except Stop (Buffer 8 × List Byte)
  | [], m => .ok (m, [])
  | p :: ps, m => do
    let xi := alphaInv (degOf n p)
    let den ← dpevalLoc s.mem.loc xi (oddsUpTo l) 0
    raiseIf (den = 0) .uncorrectable
    let w ← readRange .eval s.mem.eval 0 nsym
    let e := gquot (pevalLo w (nsym - 1) xi) den
    let v ← readElem .msg m p
    let (m', es) ← forneyLoop s n l nsym ps (Buffer.write m p (v ^^^ e))
    .ok (m', e :: es)

/-- RS_FORNEY's check of one position: POS[k], or BAD_PARAMETER where it is at or above LEN (R212). -/
def forneyPosition (s : State) (k : Nat) : Except Stop Nat := do
  let p ← readElem .pos s.mem.pos k
  if p.toNat ≥ s.regs.len.toNat then .error (.raise .badParameter) else .ok p.toNat

/-- RS_FORNEY (R212): the register ranges, the positions, MSG at the positions, then the loop; writes
MAG[0..NFOUND-1] and MSG at the positions. -/
def execRsForney (s : State) : Host.Outcome State Fault Refusal :=
  runCommand s (do
    let n := s.regs.len.toNat
    let nsym := s.regs.nsym.toNat
    let l := s.regs.nerr.toNat
    let found := s.regs.nfound.toNat
    raiseIf (nsym < 1 || nsym > Config.nsymMax || n > Config.msgCap || l > Config.nsymMax ||
      found > Config.bufCap) .badParameter
    let ps ← collect (forneyPosition s) 0 found
    let _ ← collect (fun k => readElem .msg s.mem.msg (ps.getD k 0)) 0 found
    let (m, es) ← forneyLoop s n l nsym ps s.mem.msg
    .ok { s with
      mem := { s.mem with msg := m, mag := Buffer.writeRange s.mem.mag 0 es } })

/-- A correction that found all syndromes 0: SYN[0..nsym-1] <- 0, NERR <- 0, SYNZ <- 1, CORR <- 0
(R213, R214). -/
def State.noErrors (nsym : Nat) (s : State) : State :=
  { s with
    regs := { s.regs with nerr := 0 }
    status := s.status.setSynzCorr true false
    mem := { s.mem with syn := Buffer.writeRange s.mem.syn 0 (List.replicate nsym 0) } }

/-- A correction that succeeded: MSG as given, SYN[0..nsym-1] <- the input syndromes, NERR <- l, SYNZ <- 0,
CORR <- 1 (R213, R214). -/
def State.corrected (msg : Buffer 8) (syn : List Byte) (l : Nat) (s : State) : State :=
  { s with
    regs := { s.regs with nerr := BitVec.ofNat 32 l }
    status := s.status.setSynzCorr false true
    mem := { s.mem with msg := msg, syn := Buffer.writeRange s.mem.syn 0 syn } }

/-- RS_CORRECT (R213). -/
def execRsCorrect (s : State) : Host.Outcome State Fault Refusal :=
  runCommand s (do
    let (n, nsym) ← rsCheck s
    let m ← readRange .msg s.mem.msg 0 n
    let syn := syndromes m nsym
    if allZero syn then .ok (s.noErrors nsym)
    else
      match correctErrors m syn nsym with
      | none => .error (.raise .uncorrectable)
      | some (l, m') => .ok (s.corrected (Buffer.writeRange s.mem.msg 0 m') syn l))

/-- RS_CORRECT_BITFLIP (R214): the first one-bit flip that makes all syndromes 0; only MSG[p] is written. -/
def execRsCorrectBitflip (s : State) : Host.Outcome State Fault Refusal :=
  runCommand s (do
    let (n, nsym) ← rsCheck s
    let m ← readRange .msg s.mem.msg 0 n
    let syn := syndromes m nsym
    if allZero syn then .ok (s.noErrors nsym)
    else
      match bitflipSearch m nsym with
      | none => .error (.raise .uncorrectable)
      | some k =>
        .ok (s.corrected (Buffer.write s.mem.msg (k / 8) ((bitflipTrial m k).getD (k / 8) 0)) syn 1))

end Sys2Proof.Machine
end

