-- ==== Sys2Proof/Machine/RsEncode.lean ====
section
/-! DEFINITION. RS_GENPOLY, RS_ENCODE and RS_SYNDROME (41_rs_encode.md section 2). -/

namespace Sys2Proof.Machine

/-- RS_GENPOLY (R180): GEN[0..NSYM] <- genpoly(NSYM). -/
def execRsGenpoly (s : State) : Host.Outcome State Fault Refusal :=
  runCommand s (do
    let nsym ← nsymOperand s
    .ok { s with mem := { s.mem with gen := Buffer.writeRange s.mem.gen 0 (genpoly nsym) } })

/-- RS_ENCODE (R181): reads MSG[0..k-1], k = LEN - NSYM; writes MSG[k..LEN-1] and GEN[0..NSYM]. -/
def execRsEncode (s : State) : Host.Outcome State Fault Refusal :=
  runCommand s (do
    let (n, nsym) ← rsCheck s
    let d ← readRange .msg s.mem.msg 0 (n - nsym)
    .ok { s with
      mem := { s.mem with
        msg := Buffer.writeRange s.mem.msg (n - nsym) (rsRemainder d nsym)
        gen := Buffer.writeRange s.mem.gen 0 (genpoly nsym) } })

/-- RS_SYNDROME (R182): SYN[0..NSYM-1] and STATUS.SYNZ. -/
def execRsSyndrome (s : State) : Host.Outcome State Fault Refusal :=
  runCommand s (do
    let (n, nsym) ← rsCheck s
    let m ← readRange .msg s.mem.msg 0 n
    let syn := syndromes m nsym
    .ok { s with
      status := s.status.setSynz (allZero syn)
      mem := { s.mem with syn := Buffer.writeRange s.mem.syn 0 syn } })

end Sys2Proof.Machine
end

