-- ==== Sys2Proof/Machine/Dispatch.lean ====
section
/-! DEFINITION. The dispatch: each command to its meaning. -/

namespace Sys2Proof.Machine

/-- The command `i` run by the engine against the state as it stands (10_state.md R36, R37). -/
def exec (i : Instr) (s : State) : Host.Outcome State Fault Refusal :=
  match i with
  | .nop => Sys2Proof.Machine.execNop s
  | .gfAdd => Sys2Proof.Machine.execGfAdd s
  | .gfMul => Sys2Proof.Machine.execGfMul s
  | .gfDiv => Sys2Proof.Machine.execGfDiv s
  | .gfPow => Sys2Proof.Machine.execGfPow s
  | .gfExp => Sys2Proof.Machine.execGfExp s
  | .gfLog => Sys2Proof.Machine.execGfLog s
  | .rsGenpoly => Sys2Proof.Machine.execRsGenpoly s
  | .rsEncode => Sys2Proof.Machine.execRsEncode s
  | .rsSyndrome => Sys2Proof.Machine.execRsSyndrome s
  | .rsLocator => Sys2Proof.Machine.execRsLocator s
  | .rsChien => Sys2Proof.Machine.execRsChien s
  | .rsForney => Sys2Proof.Machine.execRsForney s
  | .rsCorrect => Sys2Proof.Machine.execRsCorrect s
  | .rsCorrectBitflip => Sys2Proof.Machine.execRsCorrectBitflip s
  | .geoSelect => Sys2Proof.Machine.execGeoSelect s
  | .geoLookup => Sys2Proof.Machine.execGeoLookup s
  | .geoInfo => Sys2Proof.Machine.execGeoInfo s
  | .gridInit => Sys2Proof.Machine.execGridInit s
  | .geoClassify => Sys2Proof.Machine.execGeoClassify s
  | .placeWrite => Sys2Proof.Machine.execPlaceWrite s
  | .placeRead => Sys2Proof.Machine.execPlaceRead s
  | .placeMap => Sys2Proof.Machine.execPlaceMap s
  | .placeUnmap => Sys2Proof.Machine.execPlaceUnmap s

end Sys2Proof.Machine
end

