-- ==== Sys2Proof/Machine/Engine.lean ====
section
/-! DEFINITION. The engine's one step, and the move of one agent (10_state.md R36, R37; 30_encoding.md R101). -/

namespace Sys2Proof.Machine

/-- The engine executes the pending command word `w`: decoding is the first thing it does, and a word that is
no command raises ILLEGAL_COMMAND (R101, R103). -/
def engineStep (w : Word) (s : State) : Host.Outcome State Fault Refusal :=
  match decode w with
  | .ok i => exec i s
  | .error _ => .next (s.raiseError .illegalCommand)

/-- One move. With no pending command the outside moves. With one, the engine executes it when its latency
has run out, and before that the outside moves and the latency left goes down by one (R36, R417, R418). A
reset that aborts the command leaves nothing to wait for. -/
def moveOne (s : State) : Host.Outcome State Fault Refusal :=
  match s.pending with
  | none => hostStep s
  | some w =>
    match s.wait with
    | 0 => engineStep w s
    | k + 1 => hostStep { s with wait := k }

/-- `s` with the word of `nbits` bits `w` as the pending command and no latency left: what an accepted CMD
write of that word leaves (R36), so that the next move executes it. -/
def placeCommand (s : State) (nbits w : Nat) : State := s.accept (tableWord nbits w) 0

end Sys2Proof.Machine
end

