-- ==== Sys2Proof/Machine/Step.lean ====
section
/-! DEFINITION. One step of the machine, and how the host places a command for the next step. -/

namespace Sys2Proof.Machine

/-- One step: one bus transaction, or one poll, or a reset, or the engine's one step, or idling. -/
def step (s : State) : Host.Outcome State Fault Refusal := moveOne s

/-- The block fetches nothing (10_state.md R39): the pending command stands in for the current instruction.
`withFetchWord` stands for an accepted CMD write of the word whose engine step is due (log entry 6). -/
def State.withFetchWord (s : State) (nbits w : Nat) : State := placeCommand s nbits w

end Sys2Proof.Machine
end

