-- ==== Sys2Proof/Machine/HostProgram.lean ====
section
/-! DEFINITION. Host programs: the statements and pseudo-instructions of 30_encoding.md R106 and R107, as the
bus transactions the block sees. A program is run by putting its transactions into `State.inputs`. -/

namespace Sys2Proof.Machine

/-- The statements of R106 and the pseudo-instructions of R107. -/
inductive Stmt where
  | wr (t : Target) (v : Word)
  | wrAddr (a : Addr) (v : Word)
  | rd (t : Target)
  | rdAddr (a : Addr)
  | cmd (i : Instr)
  | wait
  | run (i : Instr)
  | gfAdd (a b : Word)
  | gfMul (a b : Word)
  | gfDiv (a b : Word)
  | gfPow (a n : Word)
  | gfExp (i : Word)
  | gfLog (a : Word)
  | ld (b : BufId) (i : Nat) (vs : List Word)
  | rsGen (nsym : Word)
  | rsEncode (n nsym : Word)
  | rsSyndrome (n nsym : Word)
  | rsCorrect (n nsym : Word)
  | rsCorrect1 (n nsym : Word)
  | geoSelect (k : Word)
  | geoLookup (rows cols : Word)
  | geoInfo (idx : Word)
  | placeMap (i : Word)
  | placeUnmap (r c : Word)
  deriving DecidableEq, Repr

/-- `wr R, v` for a register: one write(addr(R), v) (R106). -/
def wrReg (r : RegId) (v : Word) : List Input := [.write (Target.reg r).addr v]

/-- `run M`: `cmd M`, one write(0x00000, OP(M)), then `wait`, the poll of STATUS (R106, R107). -/
def runInputs (i : Instr) : List Input := wrReg .cmd (encode i) ++ [.poll]

/-- `ld B, i, v0, v1, ...`: one write for each value, at ascending elements (R107). -/
def loadInputs (b : BufId) (i : Nat) : List Word → List Input
  | [] => []
  | v :: vs => .write (Target.elem b i).addr v :: loadInputs b (i + 1) vs

/-- The bus transactions of one statement (R106, R107). -/
def Stmt.expand : Stmt → List Input
  | .wr t v => [.write t.addr v]
  | .wrAddr a v => [.write a v]
  | .rd t => [.read t.addr]
  | .rdAddr a => [.read a]
  | .cmd i => wrReg .cmd (encode i)
  | .wait => [.poll]
  | .run i => runInputs i
  | .gfAdd a b => wrReg .opa a ++ wrReg .opb b ++ runInputs .gfAdd
  | .gfMul a b => wrReg .opa a ++ wrReg .opb b ++ runInputs .gfMul
  | .gfDiv a b => wrReg .opa a ++ wrReg .opb b ++ runInputs .gfDiv
  | .gfPow a n => wrReg .opa a ++ wrReg .opb n ++ runInputs .gfPow
  | .gfExp i => wrReg .opa i ++ runInputs .gfExp
  | .gfLog a => wrReg .opa a ++ runInputs .gfLog
  | .ld b i vs => loadInputs b i vs
  | .rsGen nsym => wrReg .nsym nsym ++ runInputs .rsGenpoly
  | .rsEncode n nsym => wrReg .len n ++ wrReg .nsym nsym ++ runInputs .rsEncode
  | .rsSyndrome n nsym => wrReg .len n ++ wrReg .nsym nsym ++ runInputs .rsSyndrome
  | .rsCorrect n nsym => wrReg .len n ++ wrReg .nsym nsym ++ runInputs .rsCorrect
  | .rsCorrect1 n nsym => wrReg .len n ++ wrReg .nsym nsym ++ runInputs .rsCorrectBitflip
  | .geoSelect k => wrReg .opa k ++ runInputs .geoSelect
  | .geoLookup rows cols => wrReg .rows rows ++ wrReg .cols cols ++ runInputs .geoLookup
  | .geoInfo idx => wrReg .sizeIdx idx ++ runInputs .geoInfo
  | .placeMap i => wrReg .bitidx i ++ runInputs .placeMap
  | .placeUnmap r c => wrReg .row r ++ wrReg .col c ++ runInputs .placeUnmap

/-- The bus transactions of a program (R106). -/
def expandProgram (p : List Stmt) : List Input := (p.map Stmt.expand).flatten

end Sys2Proof.Machine
end

