-- ==== Sys2Proof/Machine/HostSequence.lean ====
section
/-! DEFINITION. The host's encode and decode sequences (49_host_sequences.md). They are surrounding software, not
part of the block (00_scope.md R7); they are given over the block's own bus and command operations so that
the properties of 49 can be stated. A command is run with the shortest latency; no result depends on it
(70_reset_and_hazards.md R417). -/

namespace Sys2Proof.Machine

/-- The host's failures (R330, R331). -/
inductive HostError where
  | divisionByZero
  | uncorrectable
  | unsupportedSymbolSize
  | dataTooLong
  | unsupportedMode
  | hostProgramError
  deriving DecidableEq, Repr

/-- Why a host sequence ends early: a host failure, or a stop of the machine. -/
inductive HostStop where
  | failed (e : HostError)
  | faulted (f : Fault)
  | refused (r : Refusal)
  deriving DecidableEq, Repr

/-- `check()`: the error kind of the ERR code, if it is not 0 (R331). -/
def hostCheck (s : State) : Except HostStop Unit :=
  match s.status.err with
  | none => .ok ()
  | some .divisionByZero => .error (.failed .divisionByZero)
  | some .uncorrectable => .error (.failed .uncorrectable)
  | some .unsupportedSymbolSize => .error (.failed .unsupportedSymbolSize)
  | some .dataTooLong => .error (.failed .dataTooLong)
  | some .illegalCommand => .error (.failed .hostProgramError)
  | some .badParameter => .error (.failed .hostProgramError)

/-- The word the host writes for a number. A value of a host program is below 2^32 (30_encoding.md R106); for a
larger number the host writes the largest word, which no symbol size reaches either, so the block fails as R332
and R334 say. DESIGN CHOICE, log entry 21. -/
def hostWord (n : Nat) : Word := BitVec.ofNat 32 (min n 0xFFFFFFFF)

/-- `wr R, v` of a register (30_encoding.md R106). -/
def wrRegNow (r : RegId) (v : Word) (s : State) : State := hostWrite s (.reg r) v

/-- `run M ; check()`: the command is accepted and executed, and its error code is looked at (R331). -/
def runChecked (i : Instr) (s : State) : Except HostStop State :=
  match engineStep (encode i) (s.accept (encode i) 0) with
  | .next t => do hostCheck t; .ok t
  | .fault f => .error (.faulted f)
  | .refused r => .error (.refused r)

/-- `wr B[i], v0`, `wr B[i+1], v1`, ... -/
def loadNow (b : BufId) (i : Nat) : List Word → State → State
  | [], s => s
  | v :: vs, s => loadNow b (i + 1) vs (hostWrite s (.elem b i) v)

/-- `rd B[i]`, `rd B[i+1]`, ..., n of them. -/
def readNow (b : BufId) (s : State) (i : Nat) : Nat → Except HostStop (List Word)
  | 0 => .ok []
  | n + 1 =>
    match hostRead s (.elem b i) with
    | .error f => .error (.faulted f)
    | .ok v => do
      let vs ← readNow b s (i + 1) n
      .ok (v :: vs)

/-- The codewords of a payload (R332, R333): 232 first if it starts with '(' (40), then each character code
plus 1; a character above 127 fails with UnsupportedMode. -/
def payloadCodewords (payload : List Nat) : Except HostStop (List Byte) :=
  if payload.any (fun ch => decide (ch > 127)) then .error (.failed .unsupportedMode)
  else
    .ok ((if payload.head? = some 40 then [232#8] else []) ++
      payload.map (fun ch => BitVec.ofNat 8 (ch + 1)))

/-- Rows of the symbol's grid as the host reads them: GRID[r][c] for r < rows, c < cols (R332). -/
def readRows (s : State) (cols : Nat) : Nat → Nat → Except HostStop (List (List Word))
  | _, 0 => .ok []
  | r, n + 1 => do
    let row ← readNow .grid s (gridIndex r 0) cols
    let rest ← readRows s cols (r + 1) n
    .ok (row :: rest)

/-- `host_encode(payload)` on the block `s` (R332): the block after it and the grid read. -/
def hostEncode (payload : List Nat) (s : State) : Except HostStop (State × List (List Word)) := do
  let cw ← payloadCodewords payload
  let s ← runChecked .geoSelect (wrRegNow .opa (hostWord cw.length) s)
  let d := s.regs.dataCw.toNat
  let e := s.regs.ecCw.toNat
  let rows := s.regs.rows.toNat
  let cols := s.regs.cols.toNat
  let padded := (cw ++ List.replicate (d - cw.length) 129#8).take d
  let s := loadNow .msg 0 (padded.map (fun v => v.setWidth 32)) s
  let s := wrRegNow .nsym (hostWord e) (wrRegNow .len (hostWord (d + e)) s)
  let s ← runChecked .rsEncode s
  let s ← runChecked .gridInit s
  let s ← runChecked .placeWrite s
  let grid ← readRows s cols 0 rows
  .ok (s, grid)

/-- `interpret(D)`: the text and the flag zero_seen (R335). -/
def interpretFrom : List Byte → List Nat → Bool → Except HostStop (List Nat × Bool)
  | [], text, zero => .ok (text, zero)
  | c :: cs, text, zero =>
    if c.toNat = 232 then interpretFrom cs text zero
    else if c.toNat = 129 then .ok (text, zero)
    else if c.toNat = 0 then interpretFrom cs text true
    else if c.toNat ≤ 128 then interpretFrom cs (text ++ [c.toNat - 1]) zero
    else .error (.failed .unsupportedMode)

/-- `interpret(D[0..d-1])` (R335). -/
def interpretCodewords (d : List Byte) : Except HostStop (List Nat × Bool) := interpretFrom d [] false

/-- The host writes a grid, row r of it into GRID[r][0], GRID[r][1], ... (R334). -/
def loadRows : Nat → List (List Word) → State → State
  | _, [], s => s
  | r, row :: rest, s => loadRows (r + 1) rest (loadNow .grid (gridIndex r 0) row s)

/-- `host_decode(rows, cols, grid)` on the block `s` (R334). The modules written are grid[r][c] for r < rows and
c < cols. -/
def hostDecode (rows cols : Nat) (grid : List (List Word)) (s : State) :
    Except HostStop (State × List Nat × Bool) := do
  let s := wrRegNow .cols (hostWord cols) (wrRegNow .rows (hostWord rows) s)
  let s ← runChecked .geoLookup s
  let s := loadRows 0 ((grid.take rows).map (fun row => row.take cols)) s
  let s ← runChecked .placeRead s
  let d := s.regs.dataCw.toNat
  let e := s.regs.ecCw.toNat
  let s := wrRegNow .nsym (hostWord e) (wrRegNow .len (hostWord (d + e)) s)
  let s ← runChecked .rsCorrect s
  let cw ← readNow .msg s 0 d
  let (text, zero) ← interpretCodewords (cw.map (fun v => v.setWidth 8))
  .ok (s, text, zero)

end Sys2Proof.Machine
end

