-- ==== Sys2Proof/Safety.lean ====
section
/-! DEFINITION. The terms the statements use: what completion and failure leave, what a buffer holds, the
invariant of the machine, and the spec's notions that no command computes. None of them is used by the machine. -/

namespace Sys2Proof.Safety

open Sys2Proof.Machine

/-- What a command that returns leaves (10_state.md R37): its writes `g`, `st`, `m`, BUSY = 0, DONE = 1, ERR as
in `st`, no pending command. All else is as it was. -/
def afterSuccess (s : State) (g : Regs) (st : Status) (m : Memory) : State :=
  { s with regs := g, status := { st with busy := false, done := true }, mem := m, pending := none }

/-- What a command that raises Error(k) leaves (10_state.md R37, 60_exceptions.md R364). -/
def afterError (s : State) (k : ErrorKind) : State :=
  { s with status := { s.status with busy := false, done := true, err := some k }, pending := none }

/-- The elements i, i+1, ... of the buffer hold the values `vs`. -/
def Holds {w : Nat} (b : Buffer w) (i : Nat) (vs : List (BitVec w)) : Prop :=
  ∀ j, j < vs.length → Buffer.read b (i + j) = vs[j]?

/-- The ranges rs_check asks for (41_rs_encode.md R176). -/
def RsRange (s : State) : Prop :=
  1 ≤ s.regs.nsym.toNat ∧ s.regs.nsym.toNat ≤ 1023 ∧
    s.regs.nsym.toNat ≤ s.regs.len.toNat ∧ s.regs.len.toNat ≤ 4096

/-- An encoded message of `nsym` error-correction codewords: all its syndromes are 0 (41_rs_encode.md R172, R173). -/
def IsCodeword (m : List Byte) (nsym : Nat) : Prop := ∀ i, 1 ≤ i → i ≤ nsym → syndrome m i = 0

/-- The number of positions where two messages of one length differ (42_rs_decode.md R206). -/
def distance (a b : List Byte) : Nat := ((a.zip b).filter (fun p => decide (p.1 ≠ p.2))).length

/-- A polynomial stored high-order first at x, by Horner's rule (00_scope.md R14). -/
def pevalHi (p : List Byte) (x : Byte) : Byte := p.foldl (fun r c => gmul r x ^^^ c) 0

/-- The product of a and b as GF(2) polynomials reduced modulo 0x12D (40_gf256.md R130, R138): the sum of
a * x^i over the bits i of b. No table is read. -/
def polyProduct (a b : Byte) : Byte :=
  (List.range 8).foldl (fun r i => if b.getLsbD i then r ^^^ (xtime^[i] a) else r) 0

/-- The Forney magnitude at position p of a message of n codewords: the locator `q` of degree at most `l`, the
evaluator `w` of degree below nsym, at X^-1 = α^(-(n-1-p)) (42_rs_decode.md R204). -/
def magnitude (q w : List Byte) (l nsym n p : Nat) : Byte :=
  gquot (pevalLo w (nsym - 1) (alphaInv (n - 1 - p))) (dpeval q l (alphaInv (n - 1 - p)))

/-- The Forney denominator at position p (42_rs_decode.md R204). -/
def denominator (q : List Byte) (l n p : Nat) : Byte := dpeval q l (alphaInv (n - 1 - p))

/-- Round r of the error-locator algorithm on the syndromes `v` takes the variables `t` to `u`: the body of the loop
of 42_rs_decode.md R201, written element by element (`t.delta` is the spec's b). -/
def LocatorRound (v : List Byte) (r : Nat) (t u : BmState) : Prop :=
  let d := (List.range t.l).foldl
    (fun x k => x ^^^ gmul (t.c.getD (k + 1) 0) (v.getD (r - (k + 1)) 0)) (v.getD r 0)
  (d = 0 → u = { t with m := t.m + 1 }) ∧
  (d ≠ 0 →
    u.c.length = t.c.length ∧
    (∀ j, j < t.c.length → u.c.getD j 0 =
      (if t.m ≤ j then t.c.getD j 0 ^^^ gmul (gquot d t.delta) (t.b.getD (j - t.m) 0)
        else t.c.getD j 0)) ∧
    (2 * t.l ≤ r → u.l = r + 1 - t.l ∧ u.b = t.c ∧ u.delta = d ∧ u.m = 1) ∧
    (r < 2 * t.l → u.l = t.l ∧ u.b = t.b ∧ u.delta = t.delta ∧ u.m = t.m + 1))

/-- The errors each command can raise after decoding (60_exceptions.md R361). -/
def allowedErrors : Instr → List ErrorKind
  | .nop => []
  | .gfDiv => [.badParameter, .divisionByZero]
  | .gfAdd | .gfMul | .gfPow | .gfExp | .gfLog => [.badParameter]
  | .rsGenpoly | .rsEncode | .rsSyndrome => [.badParameter]
  | .rsLocator | .rsChien | .rsForney | .rsCorrect | .rsCorrectBitflip =>
    [.badParameter, .uncorrectable]
  | .geoSelect => [.dataTooLong]
  | .geoLookup => [.unsupportedSymbolSize]
  | .geoInfo | .gridInit | .geoClassify => [.badParameter]
  | .placeWrite | .placeRead | .placeMap | .placeUnmap => [.badParameter]

/-- The commands that read a buffer or GRID (70_reset_and_hazards.md R403). -/
def readsElements : Instr → Bool
  | .rsEncode | .rsSyndrome | .rsCorrect | .rsCorrectBitflip | .rsLocator | .rsChien | .rsForney
  | .placeWrite | .placeRead => true
  | .nop | .gfAdd | .gfMul | .gfDiv | .gfPow | .gfExp | .gfLog | .rsGenpoly
  | .geoSelect | .geoLookup | .geoInfo | .gridInit | .geoClassify | .placeMap | .placeUnmap => false

/-- A register or an element that exists (20_memory.md R71). -/
def validTarget : Target → Prop
  | .reg _ => True
  | .elem b i => i < b.cap

/-- The invariant of the machine: canonical memories; a pending command exactly while BUSY = 1, and it is the
word in CMD (R31, R36); while BUSY = 1, DONE = 0 and ERR = 0 (R36); an error code only after a completion
(R32, R360); the read-only registers hold what commands write there (R35, R42). -/
structure Inv (s : State) : Prop where
  mem_wf : s.mem.wf
  busy_pending : s.status.busy = s.pending.isSome
  pending_cmd : ∀ w, s.pending = some w → s.regs.cmd = w
  busy_clear : s.status.busy = true → s.status.done = false ∧ s.status.err = none
  err_done : s.status.err ≠ none → s.status.done = true
  result_byte : s.regs.result.toNat < 256
  counts_entry : (s.regs.dataCw = 0 ∧ s.regs.ecCw = 0) ∨
    ∃ i, i < 30 ∧ s.regs.dataCw.toNat = (sizeAt i).dataCw ∧ s.regs.ecCw.toNat = (sizeAt i).ecCw

/-- A host operation that a running command lets pass: a read or a write of a mapped, aligned address, or a
poll; no reset (R410, R411). -/
def harmless : Input → Prop
  | .read a => targetAt a ≠ none
  | .write a _ => targetAt a ≠ none
  | .poll => True
  | .reset => False

/-- `n` steps from `s` without a fault or a refusal. -/
def SafeRun (n : Nat) (s : State) : Prop := ∃ t, Host.Core.run core n s = .next t

/-- The same state with other flags SYNZ, CORR and HAZ. -/
def withFlags (s : State) (z c h : Bool) : State :=
  { s with status := { s.status with synz := z, corr := c, haz := h } }

end Sys2Proof.Safety
end

