-- ==== Sys2Proof/Certificates/Slice0/Obligations.lean ====
section
/-! DEFINITION. The statements for the provers. Each docstring names the rules of spec/ it formalises. -/

open Sys2Proof Sys2Proof.Machine Sys2Proof.Safety

/-! ### Encoding -/

/-- 30_encoding.md R102, the opcode map, with the format of R100 (OP in bits 7:0, RSV 0): the word of each row decodes to
that row's command. Two words that are no command, one with a reserved bit set and one with an unassigned opcode, are
refused by name. -/
def Obligations.SpecWordsDecodeToTheirCommands : Prop :=
  (∀ p ∈ ([ (0x00000000, .nop), (0x00000001, .gfAdd), (0x00000002, .gfMul), (0x00000003, .gfDiv),
      (0x00000004, .gfPow), (0x00000005, .gfExp), (0x00000006, .gfLog), (0x00000010, .rsGenpoly),
      (0x00000011, .rsEncode), (0x00000012, .rsSyndrome), (0x00000013, .rsLocator),
      (0x00000014, .rsChien), (0x00000015, .rsForney), (0x00000016, .rsCorrect),
      (0x00000017, .rsCorrectBitflip), (0x00000020, .geoSelect), (0x00000021, .geoLookup),
      (0x00000022, .geoInfo), (0x00000023, .gridInit), (0x00000024, .geoClassify),
      (0x00000030, .placeWrite), (0x00000031, .placeRead), (0x00000032, .placeMap),
      (0x00000033, .placeUnmap) ] : List (Word × Instr)), decode p.1 = .ok p.2) ∧
  decode 0x00000103 = .error .reservedBitsSet ∧ decode 0x00000007 = .error .unassignedOpcode

/-- Decode and encode agree, in both directions, over all 2^32 words: a word decodes to a command exactly if it
is that command's encoding, so no word has two readings and no bit is dropped (30_encoding.md R100, R101). -/
def Obligations.DecodeInvertsEncodeOnEveryWord : Prop :=
  ∀ (w : Word) (i : Instr), decode w = .ok i ↔ w = encode i

/-- R103: the words with RSV not 0 and the OP values 0x07-0x0F, 0x18-0x1F, 0x25-0x2F, 0x34-0xFF are illegal, an
illegal word raises ILLEGAL_COMMAND and changes nothing else, and every other word is a command, which the engine
runs instead. -/
def Obligations.IllegalWordsRaiseIllegalCommand : Prop :=
  ∀ (s : State) (w : Word), s.pending = some w → s.wait = 0 →
    ((w.extractLsb' 8 24 ≠ 0#24 ∨
        (let op := (w.extractLsb' 0 8).toNat
         (0x07 ≤ op ∧ op ≤ 0x0F) ∨ (0x18 ≤ op ∧ op ≤ 0x1F) ∨ (0x25 ≤ op ∧ op ≤ 0x2F) ∨ 0x34 ≤ op)) →
      step s = .next (afterError s .illegalCommand)) ∧
    (¬ (w.extractLsb' 8 24 ≠ 0#24 ∨
        (let op := (w.extractLsb' 0 8).toNat
         (0x07 ≤ op ∧ op ≤ 0x0F) ∨ (0x18 ≤ op ∧ op ≤ 0x1F) ∨ (0x25 ≤ op ∧ op ≤ 0x2F) ∨ 0x34 ≤ op)) →
      ∃ i, w = encode i ∧ step s = exec i s)

/-! ### The step -/

/-- A step runs the decoded command: when the pending word decodes to a command and no latency is left, the step
is that command's meaning at that state, and nothing is added around it. -/
def Obligations.StepRunsTheDecodedCommand : Prop :=
  ∀ (s : State) (w : Word) (i : Instr), s.pending = some w → s.wait = 0 → decode w = .ok i →
    step s = exec i s

/-- 10_state.md R31, with what R36 says of the accepted write: a host write of CMD while BUSY = 0 is accepted. CMD holds
the word, BUSY = 1, DONE = 0, ERR = 0, the word is the pending command; no other register, flag or element changes. The
steps until the engine's are a free value (the model's own field `wait`, log entry 2). A host write of CMD while BUSY = 1
is not accepted: CMD and the pending command stay and HAZ is set. A host read of CMD while BUSY = 0 returns the word it
holds. -/
def Obligations.CmdWriteStartsTheCommand : Prop :=
  (∀ (s : State) (v : Word) (rest : List Input),
    s.pending = none → s.status.busy = false → s.inputs = .write 0x00000#20 v :: rest →
    ∃ t d, step s = .next t ∧
      t = { s with
        regs := { s.regs with cmd := v }
        status := { s.status with busy := true, done := false, err := none }
        pending := some v
        wait := d
        accepted := s.accepted + 1
        inputs := rest
        replies := .writeOk 0x00000#20 :: s.replies }) ∧
  (∀ (s : State) (w v : Word) (k : Nat) (rest : List Input),
    s.pending = some w → s.status.busy = true → s.wait = k + 1 →
    s.inputs = .write 0x00000#20 v :: rest →
    ∃ t, step s = .next t ∧ t.regs.cmd = s.regs.cmd ∧ t.pending = some w ∧
      t.status = { s.status with haz := true }) ∧
  (∀ (s : State) (rest : List Input), s.pending = none → s.status.busy = false →
    s.inputs = .read 0x00000#20 :: rest →
    ∃ t, step s = .next t ∧ t.replies = .readOk 0x00000#20 s.regs.cmd :: s.replies)

/-! ### Reset -/

/-- The state after reset (70_reset_and_hazards.md R400): every register reads 0, STATUS among them, no command is
pending, and no element of any buffer or of GRID has a value. -/
def Obligations.ResetClearsRegistersAndValues : Prop :=
  (∀ r : RegId, State.reset.readReg r = 0) ∧ State.reset.status = Status.reset ∧
  State.reset.pending = none ∧ ∀ (b : BufId) (i : Nat), State.reset.mem.elem b i = none

/-- 70_reset_and_hazards.md section 1: reset while a command runs aborts it. None of its writes take effect: registers,
STATUS, pending command and memories are those of the state after reset, whatever the state before was. The same holds
with no command running. A reset asked for when the engine's step is due acts after that step and leaves the same state.
That the outside world keeps its lists of operations and answers, and that the engine's step comes first when it is due, are
the model's choices (log entry 9). -/
def Obligations.ResetAbortsTheRunningCommand : Prop :=
  (∀ (s : State) (rest : List Input), s.inputs = .reset :: rest →
    (s.pending = none ∨ ∃ k, s.wait = k + 1) →
    ∃ t, step s = .next t ∧ t.regs = State.reset.regs ∧ t.status = State.reset.status ∧
      t.pending = none ∧ t.mem = State.reset.mem ∧ t.inputs = rest ∧ t.replies = s.replies) ∧
  (∀ (s u : State) (w : Word) (rest : List Input), s.inputs = .reset :: rest →
    s.pending = some w → s.wait = 0 → step s = .next u →
    ∃ t, step u = .next t ∧ t.regs = State.reset.regs ∧ t.status = State.reset.status ∧
      t.pending = none ∧ t.mem = State.reset.mem ∧ t.inputs = rest ∧ t.replies = s.replies)

/-! ### The host bus -/

/-- R71, with the offsets of 10_state.md R30: the address map. Registers at their offsets, written out, each buffer's element i at its base plus 4i, GRID[r][c] at
0x40000 + 4(144 r + c); every other address, misaligned ones among them, is unmapped. -/
def Obligations.AddressMapIsTheSpecsTable : Prop :=
  (∀ p ∈ ([ (0x00000, .cmd), (0x00004, .status), (0x00008, .opa), (0x0000C, .opb),
      (0x00010, .result), (0x00014, .len), (0x00018, .nsym), (0x0001C, .nerr), (0x00020, .nfound),
      (0x00024, .sizeIdx), (0x00028, .rows), (0x0002C, .cols), (0x00030, .dataCw), (0x00034, .ecCw),
      (0x00038, .bitidx), (0x0003C, .row), (0x00040, .col) ] : List (Addr × RegId)),
    targetAt p.1 = some (.reg p.2) ∧ (Target.reg p.2).addr = p.1) ∧
  (∀ i < 4096, targetAt (BitVec.ofNat 20 (0x10000 + 4 * i)) = some (.elem .msg i)) ∧
  (∀ i < 1024, targetAt (BitVec.ofNat 20 (0x14000 + 4 * i)) = some (.elem .gen i)) ∧
  (∀ i < 1024, targetAt (BitVec.ofNat 20 (0x15000 + 4 * i)) = some (.elem .syn i)) ∧
  (∀ i < 1024, targetAt (BitVec.ofNat 20 (0x16000 + 4 * i)) = some (.elem .loc i)) ∧
  (∀ i < 1024, targetAt (BitVec.ofNat 20 (0x17000 + 4 * i)) = some (.elem .eval i)) ∧
  (∀ i < 1024, targetAt (BitVec.ofNat 20 (0x18000 + 4 * i)) = some (.elem .pos i)) ∧
  (∀ i < 1024, targetAt (BitVec.ofNat 20 (0x19000 + 4 * i)) = some (.elem .mag i)) ∧
  (∀ r < 144, ∀ c < 144,
    targetAt (BitVec.ofNat 20 (0x40000 + 4 * (r * 144 + c))) = some (.elem .grid (gridIndex r c))) ∧
  (∀ (a : Addr) (t : Target), targetAt a = some t → a = t.addr ∧ validTarget t)

/-- R72, R73, R74 and R412: an access to a misaligned or unmapped address stops the model with "bus error at addr",
whether or not BUSY = 1, for reads and writes alike, as R74 asks of a model. -/
def Obligations.UnmappedAccessIsABusError : Prop :=
  ∀ (s : State) (a : Addr) (rest : List Input),
    (s.pending = none ∨ ∃ k, s.wait = k + 1) →
    (a.toNat % 4 ≠ 0 ∨ (∀ t, validTarget t → a ≠ t.addr)) →
    (s.inputs = .read a :: rest ∨ ∃ v, s.inputs = .write a v :: rest) →
    step s = .fault (.busError a)

/-- R44 and R75: a host write of a buffer element while BUSY = 0 stores the low W bits of the word and a read of it
then returns them zero-extended; W = 16 for POS, 1 for GRID, 8 for the others. No other element, no register and no
flag changes. -/
def Obligations.ElementWriteStoresTheLowBits : Prop :=
  ∀ (s : State) (b : BufId) (i : Nat) (v : Word) (rest : List Input),
    s.pending = none → s.status.busy = false → i < b.cap →
    s.inputs = .write (Target.elem b i).addr v :: rest →
    ∃ t, step s = .next t ∧
      t.mem.elem b i =
        some (BitVec.ofNat 32 (v.toNat % 2 ^ (if b = .pos then 16 else if b = .grid then 1 else 8))) ∧
      (∀ c j, (c ≠ b ∨ j ≠ i) → t.mem.elem c j = s.mem.elem c j) ∧
      t = { s with
        mem := t.mem
        inputs := rest
        replies := .writeOk (Target.elem b i).addr :: s.replies }

/-- R79, with R75 and R46: a read while BUSY = 0 has no side effect. A register read answers the register; a read of
an element answers its value, and stops the model where nothing has written it. -/
def Obligations.ReadsHaveNoSideEffects : Prop :=
  ∀ (s : State) (rest : List Input), s.pending = none → s.status.busy = false →
    (∀ r : RegId, s.inputs = .read (BitVec.ofNat 20 r.offset) :: rest →
      step s = .next { s with
        inputs := rest
        replies := .readOk (BitVec.ofNat 20 r.offset) (s.readReg r) :: s.replies }) ∧
    (∀ (b : BufId) (i : Nat) (v : Word), i < b.cap → s.mem.elem b i = some v →
      s.inputs = .read (Target.elem b i).addr :: rest →
      step s = .next { s with
        inputs := rest
        replies := .readOk (Target.elem b i).addr v :: s.replies }) ∧
    (∀ (b : BufId) (i : Nat), i < b.cap → s.mem.elem b i = none →
      s.inputs = .read (Target.elem b i).addr :: rest →
      step s = .fault (.unwrittenRead b i))

/-- R41, R42 and R33: a host write of an RW register while BUSY = 0 stores all 32 bits, so that a read returns them;
a write of RESULT, DATA_CW or EC_CW has no effect; a write of STATUS clears HAZ if bit 4 of the word is 1 and changes
nothing else. Each is acknowledged. No other register, no element and no flag changes in any of these. -/
def Obligations.RegisterWritesFollowTheirAccess : Prop :=
  ∀ (s : State) (r : RegId) (v : Word) (rest : List Input),
    s.pending = none → s.status.busy = false → r ≠ .cmd →
    s.inputs = .write (BitVec.ofNat 20 r.offset) v :: rest →
    ∃ t, step s = .next t ∧ t.mem = s.mem ∧ t.pending = none ∧ t.inputs = rest ∧
      t.replies = .writeOk (BitVec.ofNat 20 r.offset) :: s.replies ∧
      (∀ q, q ≠ r → t.readReg q = s.readReg q) ∧
      ((r = .result ∨ r = .dataCw ∨ r = .ecCw) → t.readReg r = s.readReg r) ∧
      (r = .status → t.status = { s.status with haz := s.status.haz && !v.getLsbD 4 }) ∧
      ((r ≠ .result ∧ r ≠ .dataCw ∧ r ≠ .ecCw ∧ r ≠ .status) →
        t.readReg r = v ∧ t.status = s.status)

/-- R32: the STATUS word. BUSY, DONE, SYNZ, CORR and HAZ are bits 0 to 4, ERR is bits 11:8 with R360's code, and
bits 7:5 and 31:12 read 0. -/
def Obligations.StatusWordHasTheSpecsBits : Prop :=
  ∀ st : Status,
    st.word.getLsbD 0 = st.busy ∧ st.word.getLsbD 1 = st.done ∧ st.word.getLsbD 2 = st.synz ∧
    st.word.getLsbD 3 = st.corr ∧ st.word.getLsbD 4 = st.haz ∧
    (st.word.extractLsb' 8 4).toNat =
      (match st.err with
        | none => 0
        | some .divisionByZero => 1
        | some .uncorrectable => 2
        | some .unsupportedSymbolSize => 3
        | some .dataTooLong => 4
        | some .illegalCommand => 5
        | some .badParameter => 6) ∧
    st.word.extractLsb' 5 3 = 0#3 ∧ st.word.extractLsb' 12 20 = 0#20

/-- R410: while a command runs, a host write of any mapped, aligned address, CMD and STATUS among them, is dropped and
sets HAZ; no register, buffer, module or pending command changes. -/
def Obligations.WriteWhileBusyIsDropped : Prop :=
  ∀ (s : State) (w : Word) (k : Nat) (t : Target) (v : Word) (rest : List Input),
    s.pending = some w → s.status.busy = true → s.wait = k + 1 → validTarget t →
    s.inputs = .write t.addr v :: rest →
    step s = .next { s with
      status := { s.status with haz := true }, wait := k, inputs := rest,
      replies := .writeOk t.addr :: s.replies }

/-- R411: while a command runs, a host read of any mapped, aligned address returns data 0 and has no effect, but a
read of STATUS returns its current value. -/
def Obligations.ReadWhileBusyAnswersZero : Prop :=
  ∀ (s : State) (w : Word) (k : Nat) (t : Target) (rest : List Input),
    s.pending = some w → s.status.busy = true → s.wait = k + 1 → validTarget t →
    s.inputs = .read t.addr :: rest →
    step s = .next { s with
      wait := k, inputs := rest,
      replies := .readOk t.addr (if t = .reg .status then s.status.word else 0) :: s.replies }

/-! ### The machine as a whole -/

/-- Headline: every step keeps the invariant, from every state that meets it. -/
def Obligations.StepKeepsTheInvariant : Prop :=
  ∀ s t : State, Inv s → step s = .next t → Inv t

/-- The state after reset meets the invariant. -/
def Obligations.ResetMeetsTheInvariant : Prop := Inv State.reset

/-- R37 and R364: commands are transactional. A command that ends with an error leaves every register other than
STATUS, every buffer, GRID and the flags SYNZ, CORR and HAZ as they were; only BUSY, DONE and ERR change. -/
def Obligations.FailedCommandChangesOnlyStatus : Prop :=
  ∀ (i : Instr) (s t : State), s.status.err = none → exec i s = .next t → t.status.err ≠ none →
    ∃ k, t = afterError s k

/-- 60_exceptions.md R361 and R362: the error a command ends with is one that the table of R361 gives that command. -/
def Obligations.CommandsRaiseOnlyTheirErrors : Prop :=
  ∀ (i : Instr) (s t : State), s.status.err = none → exec i s = .next t →
    t.status.err = none ∨ ∃ k ∈ allowedErrors i, t.status.err = some k

/-- No command is refused and none meets a bus error: each answers a next state or stops at an unwritten element
(R46), and a command that R403 does not list as reading elements always answers a next state. -/
def Obligations.OnlyElementReadersCanStop : Prop :=
  ∀ (i : Instr) (s : State),
    (∃ t, exec i s = .next t) ∨
    (readsElements i = true ∧ ∃ b j, exec i s = .fault (.unwrittenRead b j))

/-- The column "written by commands" of 10_state.md R30, the column "writes on success" of 30_encoding.md R104, and the
"set by" column of R32: what no command changes. A command leaves CMD, OPA, OPB, LEN, NSYM and HAZ as they are, and SYNZ,
CORR, each other register and each memory unless the command is one that the tables name as its writer; it leaves nothing
pending. The model's own fields stay too. -/
def Obligations.CommandsWriteOnlyWhatTheTableNames : Prop :=
  ∀ (i : Instr) (s t : State), exec i s = .next t →
    t.regs.cmd = s.regs.cmd ∧ t.regs.opa = s.regs.opa ∧ t.regs.opb = s.regs.opb ∧
    t.regs.len = s.regs.len ∧ t.regs.nsym = s.regs.nsym ∧ t.status.haz = s.status.haz ∧
    t.status.busy = false ∧ t.status.done = true ∧ t.pending = none ∧
    (i ∉ [.gfAdd, .gfMul, .gfDiv, .gfPow, .gfExp, .gfLog, .geoClassify, .placeUnmap] →
      t.regs.result = s.regs.result) ∧
    (i ∉ [.rsLocator, .rsCorrect, .rsCorrectBitflip] → t.regs.nerr = s.regs.nerr) ∧
    (i ∉ [.rsChien] → t.regs.nfound = s.regs.nfound) ∧
    (i ∉ [.geoSelect, .geoLookup] → t.regs.sizeIdx = s.regs.sizeIdx) ∧
    (i ∉ [.geoSelect, .geoInfo] → t.regs.rows = s.regs.rows ∧ t.regs.cols = s.regs.cols) ∧
    (i ∉ [.geoSelect, .geoLookup, .geoInfo] →
      t.regs.dataCw = s.regs.dataCw ∧ t.regs.ecCw = s.regs.ecCw) ∧
    (i ∉ [.placeUnmap] → t.regs.bitidx = s.regs.bitidx) ∧
    (i ∉ [.placeMap] → t.regs.row = s.regs.row ∧ t.regs.col = s.regs.col) ∧
    (i ∉ [.rsSyndrome, .rsCorrect, .rsCorrectBitflip] → t.status.synz = s.status.synz) ∧
    (i ∉ [.rsCorrect, .rsCorrectBitflip] → t.status.corr = s.status.corr) ∧
    (i ∉ [.rsEncode, .rsForney, .rsCorrect, .rsCorrectBitflip, .placeRead] → t.mem.msg = s.mem.msg) ∧
    (i ∉ [.rsGenpoly, .rsEncode] → t.mem.gen = s.mem.gen) ∧
    (i ∉ [.rsSyndrome, .rsCorrect, .rsCorrectBitflip] → t.mem.syn = s.mem.syn) ∧
    (i ∉ [.rsLocator] → t.mem.loc = s.mem.loc ∧ t.mem.eval = s.mem.eval) ∧
    (i ∉ [.rsChien] → t.mem.pos = s.mem.pos) ∧
    (i ∉ [.rsForney] → t.mem.mag = s.mem.mag) ∧
    (i ∉ [.gridInit, .placeWrite] → t.mem.grid = s.mem.grid) ∧
    t.wait = s.wait ∧ t.accepted = s.accepted ∧ t.inputs = s.inputs ∧ t.replies = s.replies

/-- R48: no command reads a flag. With any other values of SYNZ, CORR and HAZ a command ends in the same way and leaves
the same registers, memories and error. -/
def Obligations.NoCommandReadsAFlag : Prop :=
  ∀ (i : Instr) (s : State) (z c h : Bool),
    (∀ t, exec i s = .next t →
      ∃ u, exec i (withFlags s z c h) = .next u ∧ u.regs = t.regs ∧ u.mem = t.mem ∧
        u.status.err = t.status.err) ∧
    (∀ f, exec i s = .fault f → exec i (withFlags s z c h) = .fault f)

/-- R36 and 20_memory.md R80: the operands a command sees are those of its accepted CMD write. While it runs, no step
before the engine's changes a register, an element, the pending command or a flag other than HAZ, unless it is a reset. -/
def Obligations.OperandsAreFrozenWhileBusy : Prop :=
  ∀ (s t : State) (w : Word) (k : Nat),
    s.pending = some w → s.status.busy = true → s.wait = k + 1 → s.inputs.head? ≠ some .reset →
    step s = .next t →
    t.regs = s.regs ∧ t.mem = s.mem ∧ t.pending = s.pending ∧ t.wait = k ∧
      t.accepted = s.accepted ∧ (s.status.haz = true → t.status.haz = true) ∧
      t.status = { s.status with haz := t.status.haz }

/-- Headline, R418 with R417: every accepted command completes, whatever its latency. If the host operations that come
first are reads and writes of mapped addresses and polls, then `wait` steps later the engine executes the word against
the same registers and memories, and after its step the command has ended with BUSY = 0 and DONE = 1, or it has stopped
the model at an element that nothing has written. A host that polls sees BUSY = 0 after finitely many reads, and goes on. -/
def Obligations.EveryAcceptedCommandCompletes : Prop :=
  ∀ (s : State) (w : Word), s.pending = some w → s.status.busy = true →
    ((∀ x ∈ s.inputs.take s.wait, harmless x) →
      (∃ t, Host.Core.run core s.wait s = .next t ∧ t.wait = 0 ∧ t.pending = some w ∧
        t.regs = s.regs ∧ t.mem = s.mem ∧ step t = engineStep w t) ∧
      ((∃ u, Host.Core.run core (s.wait + 1) s = .next u ∧ u.pending = none ∧
          u.status.busy = false ∧ u.status.done = true) ∨
        ∃ b i, Host.Core.run core (s.wait + 1) s = .fault (.unwrittenRead b i))) ∧
    (∀ rest, s.inputs = .poll :: rest →
      (∃ u v, Host.Core.run core (s.wait + 2) s = .next u ∧ u.inputs = rest ∧
        u.replies.head? = some (.readOk 0x00004#20 v) ∧ v.getLsbD 0 = false) ∨
      ∃ b i, Host.Core.run core (s.wait + 1) s = .fault (.unwrittenRead b i))

/-! ### Control and GF commands -/

/-- R320: NOP completes without effect; only the handshake fields of STATUS change. -/
def Obligations.NopOnlyCompletes : Prop :=
  encode .nop = 0x00000000#32 ∧
  ∀ s : State, exec .nop s = .next (afterSuccess s s.regs s.status s.mem)

/-- R140: GF_ADD. RESULT <- a xor b; BAD_PARAMETER when an operand exceeds 255; nothing else changes. -/
def Obligations.GfAddWritesTheSum : Prop :=
  encode .gfAdd = 0x00000001#32 ∧
  (∀ s : State, s.regs.opa.toNat ≤ 255 → s.regs.opb.toNat ≤ 255 →
    exec .gfAdd s =
      .next (afterSuccess s { s.regs with result := s.regs.opa ^^^ s.regs.opb } s.status s.mem)) ∧
  (∀ s : State, (255 < s.regs.opa.toNat ∨ 255 < s.regs.opb.toNat) →
    exec .gfAdd s = .next (afterError s .badParameter))

/-- R141: GF_MUL. RESULT <- gmul(a, b); BAD_PARAMETER when an operand exceeds 255; a zero operand gives 0, 1 is the
identity; nothing else changes. -/
def Obligations.GfMulWritesTheProduct : Prop :=
  encode .gfMul = 0x00000002#32 ∧
  (∀ s : State, s.regs.opa.toNat ≤ 255 → s.regs.opb.toNat ≤ 255 →
    exec .gfMul s = .next (afterSuccess s
      { s.regs with result := (gmul (s.regs.opa.setWidth 8) (s.regs.opb.setWidth 8)).setWidth 32 }
      s.status s.mem)) ∧
  (∀ s : State, (255 < s.regs.opa.toNat ∨ 255 < s.regs.opb.toNat) →
    exec .gfMul s = .next (afterError s .badParameter)) ∧
  (∀ a : Byte, gmul a 0 = 0 ∧ gmul 0 a = 0 ∧ gmul a 1 = a ∧ gmul 1 a = a) ∧
  gmul 128 2 = 45 ∧ gmul 255 255 = 52

/-- R142: GF_DIV. The ranges first, then the divisor: BAD_PARAMETER, then DIVISION_BY_ZERO for every a including 0;
else RESULT <- the quotient of the tables (R136), with a = 0 giving 0, a = b giving 1 and 1 / 2 = 150; nothing else
changes. -/
def Obligations.GfDivWritesTheQuotient : Prop :=
  encode .gfDiv = 0x00000003#32 ∧
  (∀ s : State, s.regs.opa.toNat ≤ 255 → s.regs.opb.toNat ≤ 255 → s.regs.opb ≠ 0 →
    ∃ q : Byte,
      q = (if s.regs.opa = 0 then 0
        else gexp ((glog (s.regs.opa.setWidth 8) + 255 - glog (s.regs.opb.setWidth 8)) % 255)) ∧
      (s.regs.opa = s.regs.opb → q = 1) ∧ (s.regs.opa = 1 → s.regs.opb = 2 → q = 150) ∧
      exec .gfDiv s =
        .next (afterSuccess s { s.regs with result := q.setWidth 32 } s.status s.mem)) ∧
  (∀ s : State, (255 < s.regs.opa.toNat ∨ 255 < s.regs.opb.toNat) →
    exec .gfDiv s = .next (afterError s .badParameter)) ∧
  (∀ s : State, s.regs.opa.toNat ≤ 255 → s.regs.opb = 0 →
    exec .gfDiv s = .next (afterError s .divisionByZero))

/-- R143: GF_POW. RESULT <- gpow(a, OPB) of R137, the exponent the whole 32-bit word; BAD_PARAMETER when a exceeds 255;
gpow(0, 0) = 1, gpow(0, n) = 0 for n >= 1, gpow(a, 0) = 1, and for a not 0 gpow(a, n) = EXP[(LOG[a] n) mod 255]. -/
def Obligations.GfPowWritesThePower : Prop :=
  encode .gfPow = 0x00000004#32 ∧
  (∀ s : State, s.regs.opa.toNat ≤ 255 →
    exec .gfPow s = .next (afterSuccess s
      { s.regs with result := (gpow (s.regs.opa.setWidth 8) s.regs.opb.toNat).setWidth 32 }
      s.status s.mem)) ∧
  (∀ s : State, 255 < s.regs.opa.toNat → exec .gfPow s = .next (afterError s .badParameter)) ∧
  (∀ a : Byte, gpow a 0 = 1) ∧ (∀ n : Nat, 1 ≤ n → gpow 0 n = 0) ∧
  (∀ (a : Byte) (n : Nat), a ≠ 0 → gpow a n = gexp ((glog a * n) % 255)) ∧
  gpow 2 8 = 45 ∧ gpow 2 255 = 1 ∧ gpow 2 256 = 2 ∧ gpow 2 0xFFFFFFFF = 1

/-- R144: GF_EXP. RESULT <- EXP[OPA]; BAD_PARAMETER when the index exceeds 511. -/
def Obligations.GfExpReadsTheTable : Prop :=
  encode .gfExp = 0x00000005#32 ∧
  (∀ s : State, s.regs.opa.toNat ≤ 511 →
    exec .gfExp s = .next (afterSuccess s
      { s.regs with result := (gexp s.regs.opa.toNat).setWidth 32 } s.status s.mem)) ∧
  (∀ s : State, 511 < s.regs.opa.toNat → exec .gfExp s = .next (afterError s .badParameter)) ∧
  gexp 0 = 1 ∧ gexp 255 = 1 ∧ gexp 510 = 1 ∧ gexp 511 = 2

/-- R145: GF_LOG. RESULT <- LOG[OPA]; BAD_PARAMETER when the operand is 0 or exceeds 255. -/
def Obligations.GfLogReadsTheTable : Prop :=
  encode .gfLog = 0x00000006#32 ∧
  (∀ s : State, s.regs.opa ≠ 0 → s.regs.opa.toNat ≤ 255 →
    exec .gfLog s = .next (afterSuccess s
      { s.regs with result := BitVec.ofNat 32 (glog (s.regs.opa.setWidth 8)) } s.status s.mem)) ∧
  (∀ s : State, (s.regs.opa = 0 ∨ 255 < s.regs.opa.toNat) →
    exec .gfLog s = .next (afterError s .badParameter)) ∧
  glog 1 = 0 ∧ glog 2 = 1 ∧ glog 255 = 150

/-- R131 and R132: the ROMs are the construction. EXP starts at 1 and each entry is the one before it shifted left,
with 0x12D xored in if bit 8 is set; LOG is its inverse; 255..510 mirror; EXP[511] = EXP[1]; LOG[0] = 0. -/
def Obligations.RomsAreTheConstruction : Prop :=
  gexp 0 = 1 ∧
  (∀ i < 254, (gexp (i + 1)).toNat =
    (if (gexp i).toNat * 2 ≥ 256 then (gexp i).toNat * 2 ^^^ 0x12D else (gexp i).toNat * 2)) ∧
  (∀ i < 255, glog (gexp i) = i) ∧
  (∀ i, 255 ≤ i → i ≤ 510 → gexp i = gexp (i - 255)) ∧ gexp 511 = gexp 1 ∧ glog 0 = 0

/-- The laws of the field functions that 40_gf256.md section 3 infers (R138, R139): the table product of every pair is their
product as GF(2) polynomials reduced modulo 0x12D; it is commutative, associative, distributive over addition and undone by
division; powers add and are repeated products; α^e is the power of 2 and α^(-e) its inverse. -/
def Obligations.FieldFunctionsObeyTheFieldLaws : Prop :=
  (∀ a b : Byte, gmul a b = gmul b a) ∧
  (∀ a b c : Byte, gmul (gmul a b) c = gmul a (gmul b c)) ∧
  (∀ a b c : Byte, gmul a (gadd b c) = gadd (gmul a b) (gmul a c)) ∧
  (∀ a b : Byte, b ≠ 0 → gmul (gquot a b) b = a) ∧
  (∀ (a : Byte) (m n : Nat), gpow a (m + n) = gmul (gpow a m) (gpow a n)) ∧
  (∀ (a : Byte) (n : Nat), gpow a (n + 1) = gmul (gpow a n) a) ∧
  (∀ a : Byte, a ≠ 0 → gpow a 255 = 1) ∧ (∀ a b : Byte, gmul a b = polyProduct a b) ∧
  (∀ e : Nat, alphaPow e = gpow 2 e ∧ gmul (alphaPow e) (alphaInv e) = 1)

/-! ### Reed-Solomon: generator, encoder, syndromes -/

/-- R180: RS_GENPOLY. GEN[0..NSYM] <- genpoly(NSYM), every other element of every memory and every register unchanged;
BAD_PARAMETER when NSYM is 0 or above 1023; GEN[0] = 1. -/
def Obligations.RsGenpolyWritesTheGenerator : Prop :=
  encode .rsGenpoly = 0x00000010#32 ∧
  (∀ s : State, 1 ≤ s.regs.nsym.toNat → s.regs.nsym.toNat ≤ 1023 →
    ∃ t, exec .rsGenpoly s = .next t ∧
      t = afterSuccess s s.regs s.status { s.mem with gen := t.mem.gen } ∧
      (genpoly s.regs.nsym.toNat).length = s.regs.nsym.toNat + 1 ∧
      Holds t.mem.gen 0 (genpoly s.regs.nsym.toNat) ∧
      (∀ j, s.regs.nsym.toNat < j → Buffer.read t.mem.gen j = Buffer.read s.mem.gen j) ∧
      Buffer.read t.mem.gen 0 = some 1) ∧
  (∀ s : State, (s.regs.nsym.toNat = 0 ∨ 1023 < s.regs.nsym.toNat) →
    exec .rsGenpoly s = .next (afterError s .badParameter)) ∧
  genpoly 1 = [1, 2] ∧ genpoly 5 = [1, 62, 111, 15, 48, 228]

/-- R170: the generator polynomial is the product of (x - α^i) for i = 1..nsym, built by repeated multiplication: it is 1
for nsym = 0, and each further factor (x + α^(n+1)) gives coefficient j, high-order first, as g_j xor g_(j-1) α^(n+1). So it
is monic of degree nsym, and at every field element its value is the product of the values of the factors. -/
def Obligations.GeneratorIsTheProductOfItsFactors : Prop :=
  genpoly 0 = [1] ∧
  (∀ n j : Nat, (genpoly (n + 1)).getD j 0 =
    (genpoly n).getD j 0 ^^^
      (if j = 0 then 0 else gmul ((genpoly n).getD (j - 1) 0) (alphaPow (n + 1)))) ∧
  ∀ n : Nat, (genpoly n).length = n + 1 ∧ (genpoly n).head? = some 1 ∧
    ∀ x : Byte, pevalHi (genpoly n) x =
      (List.range n).foldl (fun r i => gmul r (x ^^^ alphaPow (i + 1))) 1

/-- R181: RS_ENCODE. MSG[k..n-1] <- the remainder codewords of MSG[0..k-1] (k = LEN - NSYM) and GEN[0..NSYM] <- the
generator; the data portion, every other element, every register and SYNZ are unchanged; MSG[k..n-1] need not have
been written before; BAD_PARAMETER from rs_check. -/
def Obligations.RsEncodeAppendsTheRemainder : Prop :=
  encode .rsEncode = 0x00000011#32 ∧
  (∀ (s : State) (d : List Byte), RsRange s → d.length = s.regs.len.toNat - s.regs.nsym.toNat →
    Holds s.mem.msg 0 d →
    ∃ t, exec .rsEncode s = .next t ∧
      t = afterSuccess s s.regs s.status { s.mem with msg := t.mem.msg, gen := t.mem.gen } ∧
      (rsRemainder d s.regs.nsym.toNat).length = s.regs.nsym.toNat ∧
      Holds t.mem.msg 0 (d ++ rsRemainder d s.regs.nsym.toNat) ∧
      (∀ j, s.regs.len.toNat ≤ j → Buffer.read t.mem.msg j = Buffer.read s.mem.msg j) ∧
      Holds t.mem.gen 0 (genpoly s.regs.nsym.toNat) ∧
      (∀ j, s.regs.nsym.toNat < j → Buffer.read t.mem.gen j = Buffer.read s.mem.gen j)) ∧
  (∀ s : State, ¬ RsRange s → exec .rsEncode s = .next (afterError s .badParameter)) ∧
  (∀ k n : Nat, rsRemainder (List.replicate k 0) n = List.replicate n 0) ∧
  rsRemainder [142, 164, 186] 5 = [114, 25, 5, 88, 102]

/-- Headline, the spec's inference R173 of 41_rs_encode.md section 1: every encoded message has all syndromes zero, also
for n above 255; so RS_SYNDROME run on what RS_ENCODE left sets SYNZ and writes zeros. -/
def Obligations.EncodedMessagesHaveZeroSyndromes : Prop :=
  (∀ (d : List Byte) (nsym : Nat), IsCodeword (d ++ rsRemainder d nsym) nsym) ∧
  (∀ (s : State) (d : List Byte), RsRange s → d.length = s.regs.len.toNat - s.regs.nsym.toNat →
    Holds s.mem.msg 0 d →
    ∃ t u, exec .rsEncode s = .next t ∧ exec .rsSyndrome t = .next u ∧ u.status.synz = true ∧
      u.mem.msg = t.mem.msg ∧ Holds u.mem.syn 0 (List.replicate s.regs.nsym.toNat 0))

/-- R182: RS_SYNDROME. SYN[i-1] <- S_i for i = 1..NSYM and SYNZ <- 1 exactly if every S_i is 0; everything else is
unchanged; BAD_PARAMETER from rs_check. -/
def Obligations.RsSyndromeWritesTheSyndromes : Prop :=
  encode .rsSyndrome = 0x00000012#32 ∧
  (∀ (s : State) (m : List Byte), RsRange s → m.length = s.regs.len.toNat → Holds s.mem.msg 0 m →
    ∃ t, exec .rsSyndrome s = .next t ∧
      t = afterSuccess s s.regs { s.status with synz := t.status.synz }
        { s.mem with syn := t.mem.syn } ∧
      (t.status.synz = true ↔ ∀ i, 1 ≤ i → i ≤ s.regs.nsym.toNat → syndrome m i = 0) ∧
      (∀ i, 1 ≤ i → i ≤ s.regs.nsym.toNat → Buffer.read t.mem.syn (i - 1) = some (syndrome m i)) ∧
      (∀ j, s.regs.nsym.toNat ≤ j → Buffer.read t.mem.syn j = Buffer.read s.mem.syn j)) ∧
  (∀ s : State, ¬ RsRange s → exec .rsSyndrome s = .next (afterError s .badParameter)) ∧
  (∀ n i : Nat, syndrome (List.replicate n 0) i = 0) ∧
  (∀ (c : List Byte) (p i : Nat) (e : Byte), p < c.length → syndrome c i = 0 →
    syndrome (c.set p (c.getD p 0 ^^^ e)) i = gmul e (alphaPow (i * (c.length - 1 - p)))) ∧
  syndromes [143, 164, 186, 114, 25, 5, 88, 102] 5 = [128, 114, 219, 23, 178]

/-- The source's formula of the syndrome in R172, S_i = the sum of msg_rev[j] * (α^i)^j, is what Horner's rule computes;
the equality is the spec's inference (41_rs_encode.md section 1). -/
def Obligations.HornerSyndromeIsTheSum : Prop :=
  ∀ (m : List Byte) (i : Nat),
    syndrome m i = (List.range m.length).foldl
      (fun r j => r ^^^ gmul (m.reverse.getD j 0) (gpow (alphaPow i) j)) 0

/-! ### Reed-Solomon: correction -/

/-- R210 with R201: RS_LOCATOR. With L <= NSYM div 2: LOC[0..NSYM], EVAL[0..NSYM-1] and NERR from Berlekamp-Massey and the
evaluator; UNCORRECTABLE when L exceeds it; BAD_PARAMETER for NSYM out of range; everything else unchanged. The locator is
that of R201's loop from its starting values, round by round, with b never 0 and C[0] always 1. The rule's corner cases and
example, and the two errors of 95_test_vectors.md section 4.5. -/
def Obligations.RsLocatorWritesTheLocator : Prop :=
  encode .rsLocator = 0x00000013#32 ∧
  (∀ (s : State) (v : List Byte), 1 ≤ s.regs.nsym.toNat → s.regs.nsym.toNat ≤ 1023 →
    v.length = s.regs.nsym.toNat → Holds s.mem.syn 0 v →
    ((bm v).l ≤ s.regs.nsym.toNat / 2 →
      ∃ t, exec .rsLocator s = .next t ∧
        t = afterSuccess s { s.regs with nerr := BitVec.ofNat 32 (bm v).l } s.status
          { s.mem with loc := t.mem.loc, eval := t.mem.eval } ∧
        (bm v).c.length = s.regs.nsym.toNat + 1 ∧ Holds t.mem.loc 0 (bm v).c ∧
        (∀ j, s.regs.nsym.toNat < j → Buffer.read t.mem.loc j = Buffer.read s.mem.loc j) ∧
        (∀ i, i < s.regs.nsym.toNat → Buffer.read t.mem.eval i =
          some ((List.range (min i (bm v).l + 1)).foldl
            (fun r j => r ^^^ gmul ((bm v).c.getD j 0) (v.getD (i - j) 0)) 0)) ∧
        (∀ j, s.regs.nsym.toNat ≤ j → Buffer.read t.mem.eval j = Buffer.read s.mem.eval j)) ∧
    (s.regs.nsym.toNat / 2 < (bm v).l → exec .rsLocator s = .next (afterError s .uncorrectable))) ∧
  (∀ s : State, (s.regs.nsym.toNat = 0 ∨ 1023 < s.regs.nsym.toNat) →
    exec .rsLocator s = .next (afterError s .badParameter)) ∧
  (∀ n : Nat, (bm (List.replicate n 0)).l = 0 ∧ (bm (List.replicate n 0)).c = 1 :: List.replicate n 0) ∧
  (∀ x : Byte, x ≠ 0 → (bm [x]).l = 1) ∧
  (bm [128, 114, 219, 23, 178]).l = 1 ∧ (bm [128, 114, 219, 23, 178]).c = [1, 128, 0, 0, 0, 0] ∧
  evaluator [128, 114, 219, 23, 178] [1, 128, 0, 0, 0, 0] 1 = [128, 0, 0, 0, 0] ∧
  (bm [161, 149, 75, 126, 170]).l = 2 ∧ (bm [161, 149, 75, 126, 170]).c = [1, 34, 64, 0, 0, 0] ∧
  evaluator [161, 149, 75, 126, 170] [1, 34, 64, 0, 0, 0] 2 = [161, 228, 0, 0, 0] ∧
  (∀ v : List Byte, (bm v).c.getD 0 0 = 1 ∧ ∃ st : Nat → BmState,
    st 0 = { c := 1 :: List.replicate v.length 0, b := 1 :: List.replicate v.length 0,
             l := 0, m := 1, delta := 1 } ∧
    (∀ r, r < v.length → LocatorRound v r (st r) (st (r + 1))) ∧
    (∀ r, r ≤ v.length → (st r).delta ≠ 0) ∧ bm v = st v.length)

/-- Headline, what makes R201's result the connection polynomial of the syndromes (42_rs_decode.md section 1; the spec
takes the correctness of Berlekamp-Massey from general knowledge): L is at most N, C has degree at most L, and every syndrome
from number L on is the sum of the L before it weighted by C, so the discrepancy of (C, L) is 0 there. -/
def Obligations.LocatorGeneratesTheSyndromes : Prop :=
  ∀ v : List Byte, (bm v).c.getD 0 0 = 1 ∧ (bm v).l ≤ v.length ∧
    (∀ j, (bm v).l < j → (bm v).c.getD j 0 = 0) ∧
    ∀ r, (bm v).l ≤ r → r < v.length →
      v.getD r 0 = (List.range (bm v).l).foldl
        (fun x k => x ^^^ gmul ((bm v).c.getD (k + 1) 0) (v.getD (r - (k + 1)) 0)) 0

/-- R211: RS_CHIEN. POS <- the positions p, ascending, where the locator is 0 at α^(-(LEN-1-p)), and NFOUND <- their
number, when it is NERR; UNCORRECTABLE when it is not; BAD_PARAMETER for LEN above 4096 or NERR above 1023; everything
else unchanged. With LEN = 0 no element of LOC is read (log entry 5). -/
def Obligations.RsChienListsTheRoots : Prop :=
  encode .rsChien = 0x00000014#32 ∧
  (∀ (s : State) (q : List Byte) (ps : List Nat),
    s.regs.len.toNat ≤ 4096 → s.regs.nerr.toNat ≤ 1023 →
    (s.regs.len.toNat = 0 ∨ (q.length = s.regs.nerr.toNat + 1 ∧ Holds s.mem.loc 0 q)) →
    ps = (List.range s.regs.len.toNat).filter
      (fun p => decide (pevalLo q s.regs.nerr.toNat (alphaInv (s.regs.len.toNat - 1 - p)) = 0)) →
    (ps.length = s.regs.nerr.toNat →
      ∃ t, exec .rsChien s = .next t ∧
        t = afterSuccess s { s.regs with nfound := s.regs.nerr } s.status
          { s.mem with pos := t.mem.pos } ∧
        (∀ k, k < ps.length → (Buffer.read t.mem.pos k).map BitVec.toNat = ps[k]?) ∧
        (∀ j, ps.length ≤ j → Buffer.read t.mem.pos j = Buffer.read s.mem.pos j)) ∧
    (ps.length ≠ s.regs.nerr.toNat → exec .rsChien s = .next (afterError s .uncorrectable))) ∧
  (∀ s : State, (4096 < s.regs.len.toNat ∨ 1023 < s.regs.nerr.toNat) →
    exec .rsChien s = .next (afterError s .badParameter))

/-- R212: RS_FORNEY. With the registers in range, positions `ps` below LEN, the locator `q` and the evaluator `w` in LOC
and EVAL and MSG written at the positions: MAG[k] <- the magnitude at POS[k], and each MSG[p] is xored with the magnitude
of every occurrence of p; UNCORRECTABLE when a denominator is 0; BAD_PARAMETER for a register out of range or a position at
or above LEN; everything else unchanged. -/
def Obligations.RsForneyAppliesTheMagnitudes : Prop :=
  encode .rsForney = 0x00000015#32 ∧
  (∀ (s : State) (ps : List Nat) (q w : List Byte),
    1 ≤ s.regs.nsym.toNat → s.regs.nsym.toNat ≤ 1023 → s.regs.len.toNat ≤ 4096 →
    s.regs.nerr.toNat ≤ 1023 → s.regs.nfound.toNat ≤ 1024 →
    ps.length = s.regs.nfound.toNat →
    (∀ k, k < ps.length → (Buffer.read s.mem.pos k).map BitVec.toNat = ps[k]?) →
    ((∃ p ∈ ps, s.regs.len.toNat ≤ p) → exec .rsForney s = .next (afterError s .badParameter)) ∧
    ((∀ p ∈ ps, p < s.regs.len.toNat) → (∀ p ∈ ps, (Buffer.read s.mem.msg p).isSome) →
      q.length = s.regs.nerr.toNat + 1 → Holds s.mem.loc 0 q →
      w.length = s.regs.nsym.toNat → Holds s.mem.eval 0 w →
      ((∃ p ∈ ps, denominator q s.regs.nerr.toNat s.regs.len.toNat p = 0) →
        exec .rsForney s = .next (afterError s .uncorrectable)) ∧
      ((∀ p ∈ ps, denominator q s.regs.nerr.toNat s.regs.len.toNat p ≠ 0) →
        ∃ t, exec .rsForney s = .next t ∧
          t = afterSuccess s s.regs s.status
            { s.mem with msg := t.mem.msg, mag := t.mem.mag } ∧
          (∀ k, k < ps.length → Buffer.read t.mem.mag k =
            some (magnitude q w s.regs.nerr.toNat s.regs.nsym.toNat s.regs.len.toNat (ps.getD k 0))) ∧
          (∀ j, ps.length ≤ j → Buffer.read t.mem.mag j = Buffer.read s.mem.mag j) ∧
          (∀ j, Buffer.read t.mem.msg j = (Buffer.read s.mem.msg j).map (fun v =>
            ps.foldl (fun v p => if p = j then
              v ^^^ magnitude q w s.regs.nerr.toNat s.regs.nsym.toNat s.regs.len.toNat p else v) v))))) ∧
  (∀ s : State, (s.regs.nsym.toNat = 0 ∨ 1023 < s.regs.nsym.toNat ∨ 4096 < s.regs.len.toNat ∨
      1023 < s.regs.nerr.toNat ∨ 1024 < s.regs.nfound.toNat) →
    exec .rsForney s = .next (afterError s .badParameter))

/-- R213: RS_CORRECT. All syndromes zero: SYN zeros, NERR = 0, SYNZ = 1, CORR = 0 and MSG unchanged, for every length.
Otherwise, with n <= 255, at most NSYM div 2 errors, as many roots as errors, no zero denominator and the corrected message
without syndromes: MSG is the corrected message, SYN the input syndromes, NERR = L, SYNZ = 0, CORR = 1. In every other case
UNCORRECTABLE; BAD_PARAMETER from rs_check. LOC, EVAL, POS, MAG and everything else unchanged. -/
def Obligations.RsCorrectFollowsItsValidations : Prop :=
  encode .rsCorrect = 0x00000016#32 ∧
  (∀ (s : State) (m : List Byte), RsRange s → m.length = s.regs.len.toNat → Holds s.mem.msg 0 m →
    (IsCodeword m s.regs.nsym.toNat →
      ∃ t, exec .rsCorrect s = .next t ∧
        t = afterSuccess s { s.regs with nerr := 0 } { s.status with synz := true, corr := false }
          { s.mem with syn := t.mem.syn } ∧
        Holds t.mem.syn 0 (List.replicate s.regs.nsym.toNat 0) ∧
        (∀ j, s.regs.nsym.toNat ≤ j → Buffer.read t.mem.syn j = Buffer.read s.mem.syn j)) ∧
    (¬ IsCodeword m s.regs.nsym.toNat →
      let v := (List.range s.regs.nsym.toNat).map (fun i => syndrome m (i + 1))
      let q := (bm v).c
      let l := (bm v).l
      let ps := (List.range m.length).filter
        (fun p => decide (pevalLo q l (alphaInv (m.length - 1 - p)) = 0))
      let m' := m.mapIdx (fun p c => if p ∈ ps then
        c ^^^ magnitude q (evaluator v q l) l s.regs.nsym.toNat m.length p else c)
      let valid := m.length ≤ 255 ∧ l ≤ s.regs.nsym.toNat / 2 ∧ ps.length = l ∧
        (∀ p ∈ ps, denominator q l m.length p ≠ 0) ∧ IsCodeword m' s.regs.nsym.toNat
      (valid →
        ∃ t, exec .rsCorrect s = .next t ∧
          t = afterSuccess s { s.regs with nerr := BitVec.ofNat 32 l }
            { s.status with synz := false, corr := true }
            { s.mem with msg := t.mem.msg, syn := t.mem.syn } ∧
          Holds t.mem.msg 0 m' ∧
          (∀ j, m.length ≤ j → Buffer.read t.mem.msg j = Buffer.read s.mem.msg j) ∧
          Holds t.mem.syn 0 v ∧
          (∀ j, s.regs.nsym.toNat ≤ j → Buffer.read t.mem.syn j = Buffer.read s.mem.syn j)) ∧
      (¬ valid → exec .rsCorrect s = .next (afterError s .uncorrectable)))) ∧
  (∀ s : State, ¬ RsRange s → exec .rsCorrect s = .next (afterError s .badParameter))

/-- Headline, soundness of correction (42_rs_decode.md R207: "The command never returns a message that fails the syndrome
check", with the distance of R206's reason): when RS_CORRECT completes without error, MSG[0..n-1] is an encoded message, it
differs from the message before in at most NSYM div 2 positions, and no element outside 0..n-1 has changed. -/
def Obligations.CorrectionIsSound : Prop :=
  ∀ (s t : State) (m : List Byte), s.status.err = none → RsRange s →
    m.length = s.regs.len.toNat → Holds s.mem.msg 0 m →
    exec .rsCorrect s = .next t → t.status.err = none →
    ∃ c : List Byte, c.length = m.length ∧ Holds t.mem.msg 0 c ∧ IsCodeword c s.regs.nsym.toNat ∧
      distance m c ≤ s.regs.nsym.toNat / 2 ∧
      ∀ j, m.length ≤ j → Buffer.read t.mem.msg j = Buffer.read s.mem.msg j

/-- Headline, one error is corrected (the case of one error of the spec's inference R206, 42_rs_decode.md section 1): if
MSG[0..n-1] is an encoded message c with any error e at one position p, n <= 255 and NSYM >= 2, RS_CORRECT restores c and
reports one error. -/
def Obligations.OneWrongCodewordIsCorrected : Prop :=
  ∀ (s : State) (c : List Byte) (p : Nat) (e : Byte), RsRange s → 2 ≤ s.regs.nsym.toNat →
    c.length = s.regs.len.toNat → c.length ≤ 255 → IsCodeword c s.regs.nsym.toNat →
    p < c.length → e ≠ 0 → Holds s.mem.msg 0 (c.set p (c.getD p 0 ^^^ e)) →
    ∃ t, exec .rsCorrect s = .next t ∧ Holds t.mem.msg 0 c ∧ t.regs.nerr = 1 ∧
      t.status.synz = false ∧ t.status.corr = true ∧ t.status.err = s.status.err

/-- R214: RS_CORRECT_BITFLIP. All syndromes zero: as RS_CORRECT. Otherwise the trials flip bit b of position p, positions
ascending and bits 0 to 7 within each, and the first that gives zero syndromes is taken: only MSG[p] changes, SYN holds the
input syndromes, NERR = 1, SYNZ = 0, CORR = 1. UNCORRECTABLE when no flip does; BAD_PARAMETER from rs_check. -/
def Obligations.RsCorrectBitflipTakesTheFirstFlip : Prop :=
  encode .rsCorrectBitflip = 0x00000017#32 ∧
  (∀ (s : State) (m : List Byte), RsRange s → m.length = s.regs.len.toNat → Holds s.mem.msg 0 m →
    (IsCodeword m s.regs.nsym.toNat →
      ∃ t, exec .rsCorrectBitflip s = .next t ∧
        t = afterSuccess s { s.regs with nerr := 0 } { s.status with synz := true, corr := false }
          { s.mem with syn := t.mem.syn } ∧
        Holds t.mem.syn 0 (List.replicate s.regs.nsym.toNat 0) ∧
        (∀ j, s.regs.nsym.toNat ≤ j → Buffer.read t.mem.syn j = Buffer.read s.mem.syn j)) ∧
    (∀ p b, ¬ IsCodeword m s.regs.nsym.toNat → p < m.length → b < 8 →
      IsCodeword (m.set p (m.getD p 0 ^^^ (1#8 <<< b))) s.regs.nsym.toNat →
      (∀ p' b', p' < m.length → b' < 8 → (p' < p ∨ (p' = p ∧ b' < b)) →
        ¬ IsCodeword (m.set p' (m.getD p' 0 ^^^ (1#8 <<< b'))) s.regs.nsym.toNat) →
      ∃ t, exec .rsCorrectBitflip s = .next t ∧
        t = afterSuccess s { s.regs with nerr := 1 } { s.status with synz := false, corr := true }
          { s.mem with msg := t.mem.msg, syn := t.mem.syn } ∧
        Buffer.read t.mem.msg p = some (m.getD p 0 ^^^ (1#8 <<< b)) ∧
        (∀ j, j ≠ p → Buffer.read t.mem.msg j = Buffer.read s.mem.msg j) ∧
        Holds t.mem.syn 0 ((List.range s.regs.nsym.toNat).map (fun i => syndrome m (i + 1))) ∧
        (∀ j, s.regs.nsym.toNat ≤ j → Buffer.read t.mem.syn j = Buffer.read s.mem.syn j)) ∧
    (¬ IsCodeword m s.regs.nsym.toNat →
      (∀ p b, p < m.length → b < 8 →
        ¬ IsCodeword (m.set p (m.getD p 0 ^^^ (1#8 <<< b))) s.regs.nsym.toNat) →
      exec .rsCorrectBitflip s = .next (afterError s .uncorrectable))) ∧
  (∀ s : State, ¬ RsRange s → exec .rsCorrectBitflip s = .next (afterError s .badParameter))

/-- 10_state.md R46 with the list of 70_reset_and_hazards.md R403: a command that reads an element nothing has written stops
the model. RS_SYNDROME, RS_CORRECT and RS_CORRECT_BITFLIP stop if one of MSG[0..LEN-1] is missing, RS_ENCODE for
MSG[0..LEN-NSYM-1], RS_LOCATOR for SYN[0..NSYM-1], RS_CHIEN with LEN >= 1 for LOC[0..NERR], PLACE_WRITE for MSG[0..N-1] and
PLACE_READ for the interior cells below B. RS_FORNEY with its registers in range stops for one of POS[0..NFOUND-1] if those
that have a value are below LEN, for MSG[POS[k]], and, with NFOUND >= 1, for an odd element of LOC up to NERR, and for one of
EVAL[0..NSYM-1] if the first denominator is not 0. It reads no even element of LOC (log entry 5). -/
def Obligations.MissingElementsStopTheReaders : Prop :=
  (∀ (s : State) (j : Nat), RsRange s → j < s.regs.len.toNat → Buffer.read s.mem.msg j = none →
    (∃ i, exec .rsSyndrome s = .fault (.unwrittenRead .msg i)) ∧
    (∃ i, exec .rsCorrect s = .fault (.unwrittenRead .msg i)) ∧
    (∃ i, exec .rsCorrectBitflip s = .fault (.unwrittenRead .msg i)) ∧
    (j < s.regs.len.toNat - s.regs.nsym.toNat →
      ∃ i, exec .rsEncode s = .fault (.unwrittenRead .msg i))) ∧
  (∀ (s : State) (j : Nat), 1 ≤ s.regs.nsym.toNat → s.regs.nsym.toNat ≤ 1023 →
    j < s.regs.nsym.toNat → Buffer.read s.mem.syn j = none →
    ∃ i, exec .rsLocator s = .fault (.unwrittenRead .syn i)) ∧
  (∀ (s : State) (j : Nat), 1 ≤ s.regs.len.toNat → s.regs.len.toNat ≤ 4096 →
    s.regs.nerr.toNat ≤ 1023 → j ≤ s.regs.nerr.toNat → Buffer.read s.mem.loc j = none →
    ∃ i, exec .rsChien s = .fault (.unwrittenRead .loc i)) ∧
  (∀ (s : State) (e : SymbolSize) (j : Nat), s.regs.sizeIdx.toNat ≤ 29 →
    e = sizeAt s.regs.sizeIdx.toNat →
    (j < e.dataCw + e.ecCw → Buffer.read s.mem.msg j = none →
      ∃ i, exec .placeWrite s = .fault (.unwrittenRead .msg i)) ∧
    (j < 8 * (e.dataCw + e.ecCw) →
      Buffer.read s.mem.grid ((cellOf e j).1 * 144 + (cellOf e j).2) = none →
      ∃ i, exec .placeRead s = .fault (.unwrittenRead .grid i))) ∧
  (∀ s : State, 1 ≤ s.regs.nsym.toNat → s.regs.nsym.toNat ≤ 1023 → s.regs.len.toNat ≤ 4096 →
    s.regs.nerr.toNat ≤ 1023 → s.regs.nfound.toNat ≤ 1024 →
    (∀ j, j < s.regs.nfound.toNat → Buffer.read s.mem.pos j = none →
      (∀ k v, k < s.regs.nfound.toNat → Buffer.read s.mem.pos k = some v →
        v.toNat < s.regs.len.toNat) →
      ∃ i, exec .rsForney s = .fault (.unwrittenRead .pos i)) ∧
    (∀ ps : List Nat, ps.length = s.regs.nfound.toNat →
      (∀ k, k < ps.length → (Buffer.read s.mem.pos k).map BitVec.toNat = ps[k]?) →
      (∀ p ∈ ps, p < s.regs.len.toNat) →
      ((∃ p ∈ ps, Buffer.read s.mem.msg p = none) →
        ∃ i, exec .rsForney s = .fault (.unwrittenRead .msg i)) ∧
      ((∀ p ∈ ps, (Buffer.read s.mem.msg p).isSome) → ps ≠ [] →
        (∀ j, j % 2 = 1 → j ≤ s.regs.nerr.toNat → Buffer.read s.mem.loc j = none →
          ∃ i, exec .rsForney s = .fault (.unwrittenRead .loc i)) ∧
        (∀ (q : List Byte) (j : Nat), q.length = s.regs.nerr.toNat + 1 → Holds s.mem.loc 0 q →
          denominator q s.regs.nerr.toNat s.regs.len.toNat (ps.headD 0) ≠ 0 →
          j < s.regs.nsym.toNat → Buffer.read s.mem.eval j = none →
          ∃ i, exec .rsForney s = .fault (.unwrittenRead .eval i)))))

/-! ### Geometry

`sizeAt i` is entry i of SIZE_TABLE with the default values of R250 (log entry 7: PRESUMED by the spec itself). -/

/-- R260: GEO_SELECT. SIZE_IDX, ROWS, COLS, DATA_CW and EC_CW of the first entry whose data_cw is at least OPA; there is one,
and it is the smallest by data_cw, for every OPA up to 1558; above that DATA_TOO_LONG; everything else unchanged. -/
def Obligations.GeoSelectTakesTheFirstFit : Prop :=
  encode .geoSelect = 0x00000020#32 ∧
  (∀ s : State, s.regs.opa.toNat ≤ 1558 →
    ∃ i, i < 30 ∧ s.regs.opa.toNat ≤ (sizeAt i).dataCw ∧
      (∀ j, j < i → (sizeAt j).dataCw < s.regs.opa.toNat) ∧
      (∀ j, j < 30 → s.regs.opa.toNat ≤ (sizeAt j).dataCw → (sizeAt i).dataCw ≤ (sizeAt j).dataCw) ∧
      exec .geoSelect s = .next (afterSuccess s
        { s.regs with
          sizeIdx := BitVec.ofNat 32 i
          rows := BitVec.ofNat 32 (sizeAt i).rows
          cols := BitVec.ofNat 32 (sizeAt i).cols
          dataCw := BitVec.ofNat 32 (sizeAt i).dataCw
          ecCw := BitVec.ofNat 32 (sizeAt i).ecCw } s.status s.mem)) ∧
  (∀ s : State, 1558 < s.regs.opa.toNat → exec .geoSelect s = .next (afterError s .dataTooLong))

/-- R261: GEO_LOOKUP. SIZE_IDX, DATA_CW and EC_CW of the entry whose dimensions are ROWS and COLS, which stay;
UNSUPPORTED_SYMBOL_SIZE when no entry matches; everything else unchanged. -/
def Obligations.GeoLookupFindsTheEntry : Prop :=
  encode .geoLookup = 0x00000021#32 ∧
  (∀ (s : State) (i : Nat), i < 30 → s.regs.rows.toNat = (sizeAt i).rows →
    s.regs.cols.toNat = (sizeAt i).cols →
    exec .geoLookup s = .next (afterSuccess s
      { s.regs with
        sizeIdx := BitVec.ofNat 32 i
        dataCw := BitVec.ofNat 32 (sizeAt i).dataCw
        ecCw := BitVec.ofNat 32 (sizeAt i).ecCw } s.status s.mem)) ∧
  (∀ s : State,
    (∀ i, i < 30 → ¬ (s.regs.rows.toNat = (sizeAt i).rows ∧ s.regs.cols.toNat = (sizeAt i).cols)) →
    exec .geoLookup s = .next (afterError s .unsupportedSymbolSize))

/-- R262: GEO_INFO. ROWS, COLS, DATA_CW and EC_CW of the entry SIZE_IDX; BAD_PARAMETER when SIZE_IDX exceeds 29; everything
else unchanged. -/
def Obligations.GeoInfoReadsTheEntry : Prop :=
  encode .geoInfo = 0x00000022#32 ∧
  (∀ s : State, s.regs.sizeIdx.toNat ≤ 29 →
    exec .geoInfo s = .next (afterSuccess s
      { s.regs with
        rows := BitVec.ofNat 32 (sizeAt s.regs.sizeIdx.toNat).rows
        cols := BitVec.ofNat 32 (sizeAt s.regs.sizeIdx.toNat).cols
        dataCw := BitVec.ofNat 32 (sizeAt s.regs.sizeIdx.toNat).dataCw
        ecCw := BitVec.ofNat 32 (sizeAt s.regs.sizeIdx.toNat).ecCw } s.status s.mem)) ∧
  (∀ s : State, 29 < s.regs.sizeIdx.toNat → exec .geoInfo s = .next (afterError s .badParameter))

/-- R263 with R255: GRID_INIT. Every one of the 144 x 144 modules gets a value. In the symbol the bottom row and the left
column are dark, the top row is dark in even columns, the right column is dark where row + 1 is even, the other modules and
everything outside the symbol are 0. The four rules of the ring agree where they meet. BAD_PARAMETER when SIZE_IDX exceeds 29;
no register and no other memory changes. -/
def Obligations.GridInitStampsTheFinder : Prop :=
  encode .gridInit = 0x00000023#32 ∧
  (∀ (s : State) (e : SymbolSize), s.regs.sizeIdx.toNat ≤ 29 → e = sizeAt s.regs.sizeIdx.toNat →
    ∃ t, exec .gridInit s = .next t ∧
      t = afterSuccess s s.regs s.status { s.mem with grid := t.mem.grid } ∧
      (∀ j, 144 * 144 ≤ j → Buffer.read t.mem.grid j = none) ∧
      ∀ r c, r < 144 → c < 144 →
        (r < e.rows → c < e.cols →
          (r = e.rows - 1 → Buffer.read t.mem.grid (r * 144 + c) = some 1) ∧
          (c = 0 → Buffer.read t.mem.grid (r * 144 + c) = some 1) ∧
          (r = 0 → Buffer.read t.mem.grid (r * 144 + c) = some (if c % 2 = 0 then 1 else 0)) ∧
          (c = e.cols - 1 →
            Buffer.read t.mem.grid (r * 144 + c) = some (if (r + 1) % 2 = 0 then 1 else 0)) ∧
          (1 ≤ r → r ≤ e.rows - 2 → 1 ≤ c → c ≤ e.cols - 2 →
            Buffer.read t.mem.grid (r * 144 + c) = some 0)) ∧
        ((e.rows ≤ r ∨ e.cols ≤ c) → Buffer.read t.mem.grid (r * 144 + c) = some 0)) ∧
  (∀ s : State, 29 < s.regs.sizeIdx.toNat → exec .gridInit s = .next (afterError s .badParameter))

/-- R264 with R255: GEO_CLASSIFY. RESULT is 3 for a dark finder module, 1 for a light one and 4 for a data module, which is
an interior one; BAD_PARAMETER for SIZE_IDX above 29 or a cell outside the symbol; everything else unchanged. -/
def Obligations.GeoClassifyNamesTheModule : Prop :=
  encode .geoClassify = 0x00000024#32 ∧
  (∀ (s : State) (e : SymbolSize), s.regs.sizeIdx.toNat ≤ 29 → e = sizeAt s.regs.sizeIdx.toNat →
    s.regs.row.toNat < e.rows → s.regs.col.toNat < e.cols →
    ∃ v : Word,
      exec .geoClassify s =
        .next (afterSuccess s { s.regs with result := v } s.status s.mem) ∧
      ((s.regs.row.toNat = e.rows - 1 ∨ s.regs.col.toNat = 0) → v = 3) ∧
      (s.regs.row.toNat = 0 → v = (if s.regs.col.toNat % 2 = 0 then 3 else 1)) ∧
      (s.regs.col.toNat = e.cols - 1 → v = (if (s.regs.row.toNat + 1) % 2 = 0 then 3 else 1)) ∧
      (1 ≤ s.regs.row.toNat → s.regs.row.toNat ≤ e.rows - 2 → 1 ≤ s.regs.col.toNat →
        s.regs.col.toNat ≤ e.cols - 2 → v = 4)) ∧
  (∀ s : State, (29 < s.regs.sizeIdx.toNat ∨
      (sizeAt s.regs.sizeIdx.toNat).rows ≤ s.regs.row.toNat ∨
      (sizeAt s.regs.sizeIdx.toNat).cols ≤ s.regs.col.toNat) →
    exec .geoClassify s = .next (afterError s .badParameter))

/-! ### Placement -/

/-- The closed form of the traversal (44_placement.md R293, the spec's inference from R292): for every entry of SIZE_TABLE
the cells the source's loop visits (R292) are cell(0), cell(1), ..., in that order; each is an interior cell, and index and
cell are inverse to each other on the interior, so each interior cell is visited exactly once. -/
def Obligations.TraversalIsTheClosedForm : Prop :=
  ∀ e ∈ sizeTable,
    traversal e.rows e.cols = (List.range e.interior).map (cellOf e) ∧
    (∀ k, k < e.interior →
      1 ≤ (cellOf e k).1 ∧ (cellOf e k).1 ≤ e.rows - 2 ∧ 1 ≤ (cellOf e k).2 ∧
      (cellOf e k).2 ≤ e.cols - 2 ∧ indexOf e (cellOf e k).1 (cellOf e k).2 = k) ∧
    (∀ r c, 1 ≤ r → r ≤ e.rows - 2 → 1 ≤ c → c ≤ e.cols - 2 →
      indexOf e r c < e.interior ∧ cellOf e (indexOf e r c) = (r, c))

/-- R300 with R290: PLACE_WRITE. GRID[cell(k)] <- bit 7 - (k mod 8) of codeword k div 8 for k < min(B, I); every other module,
every register and every other memory unchanged; BAD_PARAMETER when SIZE_IDX exceeds 29. -/
def Obligations.PlaceWritePlacesTheStream : Prop :=
  encode .placeWrite = 0x00000030#32 ∧
  (∀ (s : State) (e : SymbolSize) (d : List Byte), s.regs.sizeIdx.toNat ≤ 29 →
    e = sizeAt s.regs.sizeIdx.toNat → d.length = e.dataCw + e.ecCw → Holds s.mem.msg 0 d →
    ∃ t, exec .placeWrite s = .next t ∧
      t = afterSuccess s s.regs s.status { s.mem with grid := t.mem.grid } ∧
      (∀ k, k < min (8 * (e.dataCw + e.ecCw)) ((e.rows - 2) * (e.cols - 2)) →
        Buffer.read t.mem.grid ((cellOf e k).1 * 144 + (cellOf e k).2) =
          some (BitVec.ofBool ((d.getD (k / 8) 0).getLsbD (7 - k % 8)))) ∧
      (∀ j, (∀ k, k < min (8 * (e.dataCw + e.ecCw)) ((e.rows - 2) * (e.cols - 2)) →
          j ≠ (cellOf e k).1 * 144 + (cellOf e k).2) →
        Buffer.read t.mem.grid j = Buffer.read s.mem.grid j)) ∧
  (∀ s : State, 29 < s.regs.sizeIdx.toNat → exec .placeWrite s = .next (afterError s .badParameter))

/-- R301: PLACE_READ. MSG[i] <- the eight modules cell(8i), ..., cell(8i+7), most significant bit first, for i < N; MSG[N..],
every register and every other memory unchanged; BAD_PARAMETER when SIZE_IDX exceeds 29. -/
def Obligations.PlaceReadPacksTheModules : Prop :=
  encode .placeRead = 0x00000031#32 ∧
  (∀ (s : State) (e : SymbolSize) (g : Nat → Bool), s.regs.sizeIdx.toNat ≤ 29 →
    e = sizeAt s.regs.sizeIdx.toNat →
    (∀ k, k < 8 * (e.dataCw + e.ecCw) → k < (e.rows - 2) * (e.cols - 2) →
      Buffer.read s.mem.grid ((cellOf e k).1 * 144 + (cellOf e k).2) = some (BitVec.ofBool (g k))) →
    ∃ t, exec .placeRead s = .next t ∧
      t = afterSuccess s s.regs s.status { s.mem with msg := t.mem.msg } ∧
      (∀ i, i < e.dataCw + e.ecCw → ∃ v, Buffer.read t.mem.msg i = some v ∧
        ∀ j, j < 8 → v.getLsbD (7 - j) =
          (decide (8 * i + j < (e.rows - 2) * (e.cols - 2)) && g (8 * i + j))) ∧
      (∀ i, e.dataCw + e.ecCw ≤ i → Buffer.read t.mem.msg i = Buffer.read s.mem.msg i)) ∧
  (∀ s : State, 29 < s.regs.sizeIdx.toNat → exec .placeRead s = .next (afterError s .badParameter))

/-- Headline, the law of the placement (44_placement.md R294, the spec's inference): PLACE_READ after PLACE_WRITE, with the
same SIZE_IDX and no GRID write in between, whatever else has changed, writes back the N codewords PLACE_WRITE read. -/
def Obligations.PlaceReadUndoesPlaceWrite : Prop :=
  ∀ (s : State) (d : List Byte), s.regs.sizeIdx.toNat ≤ 29 →
    d.length = (sizeAt s.regs.sizeIdx.toNat).dataCw + (sizeAt s.regs.sizeIdx.toNat).ecCw →
    Holds s.mem.msg 0 d →
    ∃ t, exec .placeWrite s = .next t ∧
      ∀ u : State, u.regs.sizeIdx = s.regs.sizeIdx → u.mem.grid = t.mem.grid →
        ∃ v, exec .placeRead u = .next v ∧ Holds v.mem.msg 0 d

/-- R302: PLACE_MAP. (ROW, COL) <- cell(BITIDX) for BITIDX below min(B, I); BAD_PARAMETER for SIZE_IDX above 29 or a bit index
at or above it; bit 0 is the bottom-right interior cell; everything else unchanged. -/
def Obligations.PlaceMapNamesTheCell : Prop :=
  encode .placeMap = 0x00000032#32 ∧
  (∀ (s : State) (e : SymbolSize), s.regs.sizeIdx.toNat ≤ 29 → e = sizeAt s.regs.sizeIdx.toNat →
    (s.regs.bitidx.toNat < min (8 * (e.dataCw + e.ecCw)) ((e.rows - 2) * (e.cols - 2)) →
      exec .placeMap s = .next (afterSuccess s
        { s.regs with
          row := BitVec.ofNat 32 (cellOf e s.regs.bitidx.toNat).1
          col := BitVec.ofNat 32 (cellOf e s.regs.bitidx.toNat).2 } s.status s.mem)) ∧
    (min (8 * (e.dataCw + e.ecCw)) ((e.rows - 2) * (e.cols - 2)) ≤ s.regs.bitidx.toNat →
      exec .placeMap s = .next (afterError s .badParameter)) ∧
    cellOf e 0 = (e.rows - 2, e.cols - 2)) ∧
  (∀ s : State, 29 < s.regs.sizeIdx.toNat → exec .placeMap s = .next (afterError s .badParameter))

/-- R303: PLACE_UNMAP. BITIDX <- index(ROW, COL) of an interior cell, which is the k with cell(k) = (ROW, COL), and RESULT <- 1
if it is below B, else 0; BAD_PARAMETER for SIZE_IDX above 29 or a cell that is not interior; everything else unchanged. -/
def Obligations.PlaceUnmapFindsTheIndex : Prop :=
  encode .placeUnmap = 0x00000033#32 ∧
  (∀ (s : State) (e : SymbolSize), s.regs.sizeIdx.toNat ≤ 29 → e = sizeAt s.regs.sizeIdx.toNat →
    (1 ≤ s.regs.row.toNat → s.regs.row.toNat ≤ e.rows - 2 → 1 ≤ s.regs.col.toNat →
      s.regs.col.toNat ≤ e.cols - 2 →
      ∃ k, cellOf e k = (s.regs.row.toNat, s.regs.col.toNat) ∧ k < (e.rows - 2) * (e.cols - 2) ∧
        exec .placeUnmap s = .next (afterSuccess s
          { s.regs with
            bitidx := BitVec.ofNat 32 k
            result := if k < 8 * (e.dataCw + e.ecCw) then 1 else 0 } s.status s.mem)) ∧
    ((s.regs.row.toNat < 1 ∨ e.rows - 2 < s.regs.row.toNat ∨ s.regs.col.toNat < 1 ∨
        e.cols - 2 < s.regs.col.toNat) →
      exec .placeUnmap s = .next (afterError s .badParameter))) ∧
  (∀ s : State, 29 < s.regs.sizeIdx.toNat → exec .placeUnmap s = .next (afterError s .badParameter))

/-! ### The host's sequences -/

/-- Headline, the geometry round trip (49_host_sequences.md section 4, R336, the spec's inference): on any idle block the host
encoder takes every payload of characters 0..127 whose codeword count is at most 1558, and the host decoder, on any idle block,
gives the payload back with the flag false. A longer payload fails with DataTooLong, one with another character with
UnsupportedMode (section 2), and dimensions of no entry, whatever their size, with UnsupportedSymbolSize (section 3). -/
def Obligations.HostDecodeUndoesHostEncode : Prop :=
  (∀ (payload : List Nat) (s : State), s.status.busy = false → (∀ ch ∈ payload, ch ≤ 127) →
    (payload.length + (if payload.head? = some 40 then 1 else 0) ≤ 1558 →
      ∃ t grid, hostEncode payload s = .ok (t, grid) ∧
        ∀ u : State, u.status.busy = false →
          ∃ v, hostDecode t.regs.rows.toNat t.regs.cols.toNat grid u = .ok (v, payload, false)) ∧
    (1558 < payload.length + (if payload.head? = some 40 then 1 else 0) →
      hostEncode payload s = .error (.failed .dataTooLong))) ∧
  (∀ (payload : List Nat) (s : State), (∃ ch ∈ payload, 127 < ch) →
    hostEncode payload s = .error (.failed .unsupportedMode)) ∧
  (∀ (rows cols : Nat) (grid : List (List Word)) (u : State), u.status.busy = false →
    (∀ e ∈ sizeTable, ¬ (rows = e.rows ∧ cols = e.cols)) →
    hostDecode rows cols grid u = .error (.failed .unsupportedSymbolSize))
end

