-- ==== Sys2Proof/Laws/Buffer.lean ====
section
/-! SUPPORT. The laws of element memories: read after write, and that every operation keeps the canonical
form. -/

namespace Sys2Proof.Laws

open Sys2Proof.Machine

variable {w : Nat}

@[simp] theorem read_nil (i : Nat) : Buffer.read ([] : Buffer w) i = none := rfl

theorem read_cons (k : Nat) (v : BitVec w) (b : Buffer w) (i : Nat) :
    Buffer.read ((k, v) :: b) i = if i = k then some v else Buffer.read b i := rfl

/-- Reading after one write: the value at the element written, the old value everywhere else. -/
theorem read_write (b : Buffer w) (i j : Nat) (v : BitVec w) :
    Buffer.read (Buffer.write b i v) j = if j = i then some v else Buffer.read b j := by
  induction b with
  | nil => rfl
  | cons p b ih =>
    obtain ⟨k, u⟩ := p
    simp only [Buffer.write]
    split
    · simp [read_cons]
    · split
      · subst_vars; simp [read_cons]; split <;> rfl
      · simp only [read_cons, ih]
        split_ifs <;> simp_all

@[simp] theorem read_write_same (b : Buffer w) (i : Nat) (v : BitVec w) :
    Buffer.read (Buffer.write b i v) i = some v := by simp [read_write]

theorem read_write_other (b : Buffer w) {i j : Nat} (v : BitVec w) (h : j ≠ i) :
    Buffer.read (Buffer.write b i v) j = Buffer.read b j := by simp [read_write, h]

/-- Reading after writing a run: the run's values inside it, the old values outside. -/
theorem read_writeRange (vs : List (BitVec w)) (b : Buffer w) (i j : Nat) :
    Buffer.read (Buffer.writeRange b i vs) j =
      if i ≤ j ∧ j < i + vs.length then vs[j - i]? else Buffer.read b j := by
  induction vs generalizing b i with
  | nil => simp only [Buffer.writeRange, List.length_nil]; rw [if_neg (by omega)]
  | cons v vs ih =>
    simp only [Buffer.writeRange, ih, List.length_cons]
    by_cases hj : j = i
    · subst hj; rw [if_neg (by omega), if_pos (by omega)]; simp
    · rw [read_write_other _ _ hj]
      by_cases h : i + 1 ≤ j ∧ j < i + 1 + vs.length
      · rw [if_pos h, if_pos (by omega)]
        obtain ⟨d, rfl⟩ : ∃ d, j = i + 1 + d := ⟨j - (i + 1), by omega⟩
        have h1 : i + 1 + d - (i + 1) = d := by omega
        have h2 : i + 1 + d - i = d + 1 := by omega
        simp [h1, h2]
      · rw [if_neg h, if_neg (by omega)]

theorem read_writeRange_outside (vs : List (BitVec w)) (b : Buffer w) {i j : Nat}
    (h : j < i ∨ i + vs.length ≤ j) :
    Buffer.read (Buffer.writeRange b i vs) j = Buffer.read b j := by
  rw [read_writeRange, if_neg (by omega)]

theorem read_map_range (f : Nat → BitVec w) (is : List Nat) (j : Nat) :
    Buffer.read (is.map (fun i => (i, f i))) j = if j ∈ is then some (f j) else none := by
  induction is with
  | nil => rfl
  | cons i is ih =>
    simp only [List.map_cons, read_cons, ih, List.mem_cons]
    by_cases h : j = i
    · subst h; simp
    · simp [h]

/-- Reading a filled buffer. -/
theorem read_fill (n : Nat) (f : Nat → BitVec w) (j : Nat) :
    Buffer.read (Buffer.fill n f) j = if j < n then some (f j) else none := by
  simp [Buffer.fill, read_map_range]

theorem mem_write {b : Buffer w} {i : Nat} {v : BitVec w} {p : Nat × BitVec w}
    (h : p ∈ Buffer.write b i v) : p = (i, v) ∨ p ∈ b := by
  induction b with
  | nil => simpa [Buffer.write] using h
  | cons q b ih =>
    obtain ⟨k, u⟩ := q
    simp only [Buffer.write] at h
    split at h
    · simpa using h
    · split at h
      · simp only [List.mem_cons] at h ⊢; tauto
      · simp only [List.mem_cons] at h ⊢
        rcases h with h | h
        · tauto
        · have := ih h; tauto

theorem write_rising {b : Buffer w} (i : Nat) (v : BitVec w)
    (h : b.Pairwise (fun p q => p.1 < q.1)) :
    (Buffer.write b i v).Pairwise (fun p q => p.1 < q.1) := by
  induction b with
  | nil => simp [Buffer.write]
  | cons q b ih =>
    obtain ⟨k, u⟩ := q
    rw [List.pairwise_cons] at h
    simp only [Buffer.write]
    split
    case isTrue hik =>
      refine List.pairwise_cons.2 ⟨?_, List.pairwise_cons.2 h⟩
      intro p hp
      rcases List.mem_cons.1 hp with rfl | hp
      · exact hik
      · exact Nat.lt_trans hik (h.1 p hp)
    case isFalse hik =>
      split
      case isTrue hk =>
        subst hk
        exact List.pairwise_cons.2 h
      case isFalse hk =>
        refine List.pairwise_cons.2 ⟨?_, ih h.2⟩
        intro p hp
        rcases mem_write hp with rfl | hp
        · show k < i; omega
        · exact h.1 p hp

/-- A write below the capacity keeps the canonical form. -/
theorem write_wf {cap : Nat} {b : Buffer w} {i : Nat} (v : BitVec w) (h : Buffer.wf cap b)
    (hi : i < cap) : Buffer.wf cap (Buffer.write b i v) := by
  refine ⟨write_rising i v h.1, fun p hp => ?_⟩
  rcases mem_write hp with rfl | hp
  · exact hi
  · exact h.2 p hp

/-- A run of writes below the capacity keeps the canonical form. -/
theorem writeRange_wf {cap : Nat} (vs : List (BitVec w)) {b : Buffer w} {i : Nat}
    (h : Buffer.wf cap b) (hi : i + vs.length ≤ cap) : Buffer.wf cap (Buffer.writeRange b i vs) := by
  induction vs generalizing b i with
  | nil => exact h
  | cons v vs ih =>
    simp only [List.length_cons] at hi
    exact ih (write_wf v h (by omega)) (by omega)

/-- A filled buffer is canonical. -/
theorem fill_wf (n : Nat) (f : Nat → BitVec w) : Buffer.wf n (Buffer.fill n f) := by
  refine ⟨?_, fun p hp => ?_⟩
  · exact List.pairwise_map.2 (List.pairwise_lt_range)
  · simp only [Buffer.fill, List.mem_map, List.mem_range] at hp
    obtain ⟨i, hi, rfl⟩ := hp
    exact hi

/-- A host write of an element keeps the canonical form of all memories. -/
theorem setElem_wf {m : Memory} (b : BufId) {i : Nat} (v : Word) (h : m.wf) (hi : i < b.cap) :
    (m.setElem b i v).wf := by
  obtain ⟨h1, h2, h3, h4, h5, h6, h7, h8⟩ := h
  cases b
  · exact ⟨write_wf _ h1 hi, h2, h3, h4, h5, h6, h7, h8⟩
  · exact ⟨h1, write_wf _ h2 hi, h3, h4, h5, h6, h7, h8⟩
  · exact ⟨h1, h2, write_wf _ h3 hi, h4, h5, h6, h7, h8⟩
  · exact ⟨h1, h2, h3, write_wf _ h4 hi, h5, h6, h7, h8⟩
  · exact ⟨h1, h2, h3, h4, write_wf _ h5 hi, h6, h7, h8⟩
  · exact ⟨h1, h2, h3, h4, h5, write_wf _ h6 hi, h7, h8⟩
  · exact ⟨h1, h2, h3, h4, h5, h6, write_wf _ h7 hi, h8⟩
  · exact ⟨h1, h2, h3, h4, h5, h6, h7, write_wf _ h8 hi⟩

/-- The memories at reset are canonical: nothing is listed. -/
theorem reset_wf : Memory.reset.wf := by decide

/-- Reading any element after a host write of one: the low W bits of the word there, everything else as it
was. -/
theorem elem_setElem (m : Memory) (b c : BufId) (i j : Nat) (v : Word) :
    (m.setElem b i v).elem c j =
      if c = b ∧ j = i then
        some (match b with
          | .pos => (v.setWidth 16).setWidth 32
          | .grid => (v.setWidth 1).setWidth 32
          | _ => (v.setWidth 8).setWidth 32)
      else m.elem c j := by
  cases b <;> cases c <;> simp only [Memory.setElem, Memory.elem, read_write] <;>
    by_cases h : j = i <;> simp [h]

end Sys2Proof.Laws
end

