-- ==== Sys2Proof/Laws/Command.lean ====
section
/-! SUPPORT. What one run of a command can do, and what reading operands can do. -/

namespace Sys2Proof.Laws

open Sys2Proof.Machine

/-- Everything a command can do: complete with its writes, raise one error with none of them, or stop at an
element without a value. -/
theorem runCommand_cases (s : State) (r : Except Stop State) :
    (∃ t, r = .ok t ∧ runCommand s r = .next t.complete) ∨
    (∃ k, r = .error (.raise k) ∧ runCommand s r = .next (s.raiseError k)) ∨
    (∃ b i, r = .error (.unwritten b i) ∧ runCommand s r = .fault (.unwrittenRead b i)) := by
  rcases r with (k | ⟨b, i⟩) | t
  · exact .inr (.inl ⟨k, rfl, rfl⟩)
  · exact .inr (.inr ⟨b, i, rfl, rfl⟩)
  · exact .inl ⟨t, rfl, rfl⟩

/-- A command that answers a next state has completed or has raised an error. -/
theorem runCommand_next {s t : State} {r : Except Stop State} (h : runCommand s r = .next t) :
    (∃ u, r = .ok u ∧ t = u.complete) ∨ (∃ k, r = .error (.raise k) ∧ t = s.raiseError k) := by
  rcases runCommand_cases s r with ⟨u, hr, hu⟩ | ⟨k, hr, hu⟩ | ⟨b, i, hr, hu⟩
  · rw [hu] at h; cases h; exact .inl ⟨u, hr, rfl⟩
  · rw [hu] at h; cases h; exact .inr ⟨k, hr, rfl⟩
  · rw [hu] at h; cases h

@[simp] theorem runCommand_ok (s t : State) : runCommand s (.ok t) = .next t.complete := rfl

@[simp] theorem runCommand_raise (s : State) (k : ErrorKind) :
    runCommand s (.error (.raise k)) = .next (s.raiseError k) := rfl

@[simp] theorem runCommand_unwritten (s : State) (b : BufId) (i : Nat) :
    runCommand s (.error (.unwritten b i)) = .fault (.unwrittenRead b i) := rfl

@[simp] theorem ok_bind {ε α β : Type} (a : α) (f : α → Except ε β) :
    ((.ok a : Except ε α) >>= f) = f a := rfl

@[simp] theorem error_bind {ε α β : Type} (e : ε) (f : α → Except ε β) :
    ((.error e : Except ε α) >>= f) = .error e := rfl

/-- A computation that succeeds has succeeded in its first part. -/
theorem bind_ok {ε α β : Type} {x : Except ε α} {f : α → Except ε β} {b : β}
    (h : x >>= f = .ok b) : ∃ a, x = .ok a ∧ f a = .ok b := by
  rcases x with e | a
  · simp at h
  · exact ⟨a, rfl, h⟩

theorem raiseIf_cases (c : Bool) (k : ErrorKind) :
    raiseIf c k = if c then .error (.raise k) else .ok () := rfl

theorem raiseIf_ok {c : Bool} {k : ErrorKind} {u : Unit} (h : raiseIf c k = .ok u) : c = false := by
  cases c
  · rfl
  · simp [raiseIf] at h

theorem byteOperand_ok {w : Word} (h : w.toNat ≤ 255) : byteOperand w = .ok (w.setWidth 8) := by
  unfold byteOperand; rw [if_neg (by omega)]

theorem byteOperand_bad {w : Word} (h : w.toNat > 255) :
    byteOperand w = .error (.raise .badParameter) := by
  unfold byteOperand; rw [if_pos h]

theorem nsymOperand_ok {s : State} (h1 : 1 ≤ s.regs.nsym.toNat) (h2 : s.regs.nsym.toNat ≤ 1023) :
    nsymOperand s = .ok s.regs.nsym.toNat := by
  unfold nsymOperand Config.nsymMax; rw [if_neg (by omega)]

theorem nsymOperand_bad {s : State} (h : s.regs.nsym.toNat < 1 ∨ s.regs.nsym.toNat > 1023) :
    nsymOperand s = .error (.raise .badParameter) := by
  unfold nsymOperand Config.nsymMax; rw [if_pos h]

/-- What an answer of the NSYM check says. -/
theorem nsymOperand_eq_ok {s : State} {n : Nat} (h : nsymOperand s = .ok n) :
    n = s.regs.nsym.toNat ∧ 1 ≤ n ∧ n ≤ 1023 := by
  unfold nsymOperand Config.nsymMax at h
  split at h
  · cases h
  · cases h; omega

theorem rsCheck_ok {s : State} (h1 : 1 ≤ s.regs.nsym.toNat) (h2 : s.regs.nsym.toNat ≤ 1023)
    (h3 : s.regs.nsym.toNat ≤ s.regs.len.toNat) (h4 : s.regs.len.toNat ≤ 4096) :
    rsCheck s = .ok (s.regs.len.toNat, s.regs.nsym.toNat) := by
  unfold rsCheck Config.msgCap
  rw [nsymOperand_ok h1 h2, ok_bind, if_neg (by omega)]

theorem rsCheck_bad {s : State} (h : s.regs.nsym.toNat < 1 ∨ s.regs.nsym.toNat > 1023 ∨
    s.regs.len.toNat < s.regs.nsym.toNat ∨ s.regs.len.toNat > 4096) :
    rsCheck s = .error (.raise .badParameter) := by
  unfold rsCheck Config.msgCap
  by_cases h1 : s.regs.nsym.toNat < 1 ∨ s.regs.nsym.toNat > 1023
  · rw [nsymOperand_bad h1, error_bind]
  · rw [nsymOperand_ok (by omega) (by omega), ok_bind, if_pos (by omega)]

/-- What an answer of rs_check says. -/
theorem rsCheck_eq_ok {s : State} {n k : Nat} (h : rsCheck s = .ok (n, k)) :
    n = s.regs.len.toNat ∧ k = s.regs.nsym.toNat ∧ 1 ≤ k ∧ k ≤ 1023 ∧ k ≤ n ∧ n ≤ 4096 := by
  unfold rsCheck Config.msgCap at h
  obtain ⟨a, ha, h⟩ := bind_ok h
  obtain ⟨rfl, h1, h2⟩ := nsymOperand_eq_ok ha
  split at h
  · cases h
  · cases h; omega

theorem sizeOperand_ok {s : State} (h : s.regs.sizeIdx.toNat ≤ 29) :
    sizeOperand s = .ok (sizeAt s.regs.sizeIdx.toNat) := by
  unfold sizeOperand; rw [if_neg (by omega)]

theorem sizeOperand_bad {s : State} (h : s.regs.sizeIdx.toNat > 29) :
    sizeOperand s = .error (.raise .badParameter) := by
  unfold sizeOperand; rw [if_pos h]

/-- What an answer of the SIZE_IDX check says. -/
theorem sizeOperand_eq_ok {s : State} {e : SymbolSize} (h : sizeOperand s = .ok e) :
    s.regs.sizeIdx.toNat ≤ 29 ∧ e = sizeAt s.regs.sizeIdx.toNat := by
  unfold sizeOperand at h
  split at h
  · cases h
  · cases h; exact ⟨by omega, rfl⟩

variable {α : Type} {w : Nat}

/-- A run of readings that succeeds has as many answers as were asked for, each its own reading's. -/
theorem collect_eq_ok (f : Nat → Except Stop α) {n i : Nat} {vs : List α}
    (h : collect f i n = .ok vs) :
    vs.length = n ∧ ∀ j (hj : j < vs.length), f (i + j) = .ok vs[j] := by
  induction n generalizing i vs with
  | zero => cases h; exact ⟨rfl, fun j hj => absurd hj (by simp)⟩
  | succ n ih =>
    obtain ⟨v, hv, h⟩ := bind_ok h
    obtain ⟨us, hus, h⟩ := bind_ok h
    cases h
    obtain ⟨hl, hr⟩ := ih hus
    refine ⟨by simp [hl], fun j hj => ?_⟩
    cases j with
    | zero => simpa using hv
    | succ j =>
      have := hr j (by simpa using hj)
      rw [show i + (j + 1) = i + 1 + j by omega]
      simpa using this

/-- A run of readings each of which succeeds succeeds. -/
theorem collect_of_ok (f : Nat → Except Stop α) (vs : List α) (i : Nat)
    (h : ∀ j (hj : j < vs.length), f (i + j) = .ok vs[j]) :
    collect f i vs.length = .ok vs := by
  induction vs generalizing i with
  | nil => rfl
  | cons v vs ih =>
    have h0 := h 0 (by simp)
    have hs := ih (i + 1) (fun j hj => by
      have := h (j + 1) (by simpa using hj)
      rw [show i + 1 + j = i + (j + 1) by omega]
      simpa using this)
    simp only [List.length_cons, collect]
    rw [show f i = .ok v by simpa using h0, ok_bind, hs, ok_bind]

theorem readElem_eq_ok {b : BufId} {buf : Buffer w} {i : Nat} {v : BitVec w} :
    readElem b buf i = .ok v ↔ Buffer.read buf i = some v := by
  unfold readElem
  cases h : Buffer.read buf i <;> simp

/-- Reading a run of elements that hold `vs` answers `vs`. -/
theorem readRange_of_read (b : BufId) (buf : Buffer w) (vs : List (BitVec w)) (i : Nat)
    (h : ∀ j (hj : j < vs.length), Buffer.read buf (i + j) = some vs[j]) :
    readRange b buf i vs.length = .ok vs :=
  collect_of_ok _ vs i (fun j hj => readElem_eq_ok.2 (h j hj))

/-- What an answer of reading a run says. -/
theorem readRange_eq_ok {b : BufId} {buf : Buffer w} {i n : Nat} {vs : List (BitVec w)}
    (h : readRange b buf i n = .ok vs) :
    vs.length = n ∧ ∀ j (hj : j < vs.length), Buffer.read buf (i + j) = some vs[j] := by
  obtain ⟨hl, hr⟩ := collect_eq_ok _ h
  exact ⟨hl, fun j hj => readElem_eq_ok.1 (hr j hj)⟩

end Sys2Proof.Laws
end

