-- ==== Sys2Proof/Laws/Field.lean ====
section
/-! SUPPORT. The ROMs are the construction of 40_gf256.md R131, and what follows at once for the field
functions. -/

namespace Sys2Proof.Laws

open Sys2Proof.Machine

theorem gexp_zero : gexp 0 = 1 := by decide

/-- R131's loop: each entry below 255 is the one before it times x. -/
theorem gexp_succ : ∀ i < 254, gexp (i + 1) = xtime (gexp i) := by decide +kernel

/-- The last step of the construction comes back to 1: x has order 255. -/
theorem xtime_gexp_254 : xtime (gexp 254) = 1 := by decide

/-- The mirror, with the entry 511 = EXP[1] (R131, D15). -/
theorem gexp_mod : ∀ i < 512, gexp i = gexp (i % 255) := by decide +kernel

/-- LOG is the inverse of EXP on 0..254 (R131, R133). -/
theorem glog_gexp : ∀ i < 255, glog (gexp i) = i := by decide +kernel

theorem gexp_ne_zero : ∀ i < 512, gexp i ≠ 0 := by decide +kernel

/-- EXP is the inverse of LOG on 1..255 (R133). -/
theorem gexp_glog_nat : ∀ n < 256, n ≠ 0 → gexp (glog (BitVec.ofNat 8 n)) = BitVec.ofNat 8 n := by
  decide +kernel

theorem glog_lt_nat : ∀ n < 256, glog (BitVec.ofNat 8 n) < 255 := by decide +kernel

theorem gexp_glog {x : Byte} (h : x ≠ 0) : gexp (glog x) = x := by
  have hx := gexp_glog_nat x.toNat x.isLt (fun h0 => h (BitVec.eq_of_toNat_eq (by simpa using h0)))
  simpa using hx

theorem glog_lt (x : Byte) : glog x < 255 := by
  have hx := glog_lt_nat x.toNat x.isLt
  simpa using hx

/-- LOG[0] = 0 (R132). -/
theorem glog_zero : glog 0 = 0 := by decide

@[simp] theorem gmul_zero (a : Byte) : gmul a 0 = 0 := by simp [gmul]

@[simp] theorem zero_gmul (a : Byte) : gmul 0 a = 0 := by simp [gmul]

theorem gmul_of_ne {a b : Byte} (ha : a ≠ 0) (hb : b ≠ 0) :
    gmul a b = gexp ((glog a + glog b) % 255) := by
  unfold gmul; rw [if_neg (by tauto)]

theorem gmul_ne_zero {a b : Byte} (ha : a ≠ 0) (hb : b ≠ 0) : gmul a b ≠ 0 := by
  rw [gmul_of_ne ha hb]; exact gexp_ne_zero _ (by omega)

theorem glog_gmul {a b : Byte} (ha : a ≠ 0) (hb : b ≠ 0) :
    glog (gmul a b) = (glog a + glog b) % 255 := by
  rw [gmul_of_ne ha hb]; exact glog_gexp _ (by omega)

theorem alphaPow_ne_zero (e : Nat) : alphaPow e ≠ 0 := gexp_ne_zero _ (by omega)

theorem alphaInv_ne_zero (e : Nat) : alphaInv e ≠ 0 := gexp_ne_zero _ (by omega)

theorem gquot_ne_zero {a : Byte} (b : Byte) (ha : a ≠ 0) : gquot a b ≠ 0 := by
  unfold gquot; rw [if_neg ha]; exact gexp_ne_zero _ (by omega)

end Sys2Proof.Laws
end

