-- ==== Sys2Proof/Laws/Host.lean ====
section
/-! SUPPORT. What the host writes for a number. -/

namespace Sys2Proof.Laws

open Sys2Proof.Machine

/-- The word of a number is the number, or the largest word where the number is larger. -/
theorem hostWord_toNat (n : Nat) : (hostWord n).toNat = min n 0xFFFFFFFF := by
  unfold hostWord
  rw [BitVec.toNat_ofNat]
  omega

/-- A number that a word can hold is written as it is. -/
theorem hostWord_of_lt {n : Nat} (h : n < 2 ^ 32) : (hostWord n).toNat = n := by
  rw [hostWord_toNat]
  omega

/-- A number at most 144 is the one written exactly if it is the one meant: no larger number is mistaken for a
dimension of SIZE_TABLE. -/
theorem hostWord_eq_small {n k : Nat} (h : k ≤ 144) : (hostWord n).toNat = k ↔ n = k := by
  rw [hostWord_toNat]
  omega

end Sys2Proof.Laws
end

