-- ==== Sys2Proof/Laws/PerInstr.lean ====
section
/-! SUPPORT. The family Encoding: what holds of each command as a word (30_encoding.md R100, R102). -/

namespace Sys2Proof.Laws.Encoding

/-- The command is well formed, its word is one that R103 does not call illegal, and its 32 bits in the
opcode table's numbering decode to it. -/
def Statement (i : Instr) : Prop :=
  i.wellFormed = true ∧ wellFormedWord (encode i) = true ∧
    decodeTableWord 32 (encode i).toNat = some i

theorem nop : Statement .nop := ⟨rfl, by decide, by decide⟩
theorem gfAdd : Statement .gfAdd := ⟨rfl, by decide, by decide⟩
theorem gfMul : Statement .gfMul := ⟨rfl, by decide, by decide⟩
theorem gfDiv : Statement .gfDiv := ⟨rfl, by decide, by decide⟩
theorem gfPow : Statement .gfPow := ⟨rfl, by decide, by decide⟩
theorem gfExp : Statement .gfExp := ⟨rfl, by decide, by decide⟩
theorem gfLog : Statement .gfLog := ⟨rfl, by decide, by decide⟩
theorem rsGenpoly : Statement .rsGenpoly := ⟨rfl, by decide, by decide⟩
theorem rsEncode : Statement .rsEncode := ⟨rfl, by decide, by decide⟩
theorem rsSyndrome : Statement .rsSyndrome := ⟨rfl, by decide, by decide⟩
theorem rsLocator : Statement .rsLocator := ⟨rfl, by decide, by decide⟩
theorem rsChien : Statement .rsChien := ⟨rfl, by decide, by decide⟩
theorem rsForney : Statement .rsForney := ⟨rfl, by decide, by decide⟩
theorem rsCorrect : Statement .rsCorrect := ⟨rfl, by decide, by decide⟩
theorem rsCorrectBitflip : Statement .rsCorrectBitflip := ⟨rfl, by decide, by decide⟩
theorem geoSelect : Statement .geoSelect := ⟨rfl, by decide, by decide⟩
theorem geoLookup : Statement .geoLookup := ⟨rfl, by decide, by decide⟩
theorem geoInfo : Statement .geoInfo := ⟨rfl, by decide, by decide⟩
theorem gridInit : Statement .gridInit := ⟨rfl, by decide, by decide⟩
theorem geoClassify : Statement .geoClassify := ⟨rfl, by decide, by decide⟩
theorem placeWrite : Statement .placeWrite := ⟨rfl, by decide, by decide⟩
theorem placeRead : Statement .placeRead := ⟨rfl, by decide, by decide⟩
theorem placeMap : Statement .placeMap := ⟨rfl, by decide, by decide⟩
theorem placeUnmap : Statement .placeUnmap := ⟨rfl, by decide, by decide⟩

end Sys2Proof.Laws.Encoding
end

