-- ==== Sys2Proof/Laws/Rs.lean ====
section
/-! SUPPORT. The sizes of what the Reed-Solomon functions answer, and that Berlekamp-Massey's divisor is never
zero. -/

namespace Sys2Proof.Laws

open Sys2Proof.Machine

@[simp] theorem mulRoot_length (g : List Byte) (r : Byte) : (mulRoot g r).length = g.length + 1 := by
  simp [mulRoot]

@[simp] theorem genpoly_length (n : Nat) : (genpoly n).length = n + 1 := by
  induction n with
  | zero => rfl
  | succ n ih => simp [genpoly, ih]

@[simp] theorem xorFront_length (p m : List Byte) : (xorFront p m).length = m.length := by
  induction p generalizing m with
  | nil => rfl
  | cons x p ih => cases m <;> simp [xorFront, ih]

theorem longDivision_length (g : List Byte) (k : Nat) (m : List Byte) (h : k ≤ m.length) :
    (longDivision g k m).length = m.length - k := by
  induction k generalizing m with
  | zero => rfl
  | succ k ih =>
    cases m with
    | nil => simp at h
    | cons c m =>
      simp only [List.length_cons] at h
      simp only [longDivision, List.length_cons]
      split
      · rw [ih m (by omega)]; omega
      · rw [ih _ (by simp; omega)]; simp

/-- The remainder has nsym codewords. -/
@[simp] theorem rsRemainder_length (d : List Byte) (nsym : Nat) :
    (rsRemainder d nsym).length = nsym := by
  unfold rsRemainder
  rw [longDivision_length _ _ _ (by simp)]
  simp

@[simp] theorem syndromes_length (m : List Byte) (n : Nat) : (syndromes m n).length = n := by
  simp [syndromes]

/-- All syndromes are 0 exactly if each one is. -/
theorem allZero_syndromes (m : List Byte) (n : Nat) :
    allZero (syndromes m n) = true ↔ ∀ i, 1 ≤ i → i ≤ n → syndrome m i = 0 := by
  simp only [allZero, syndromes, List.all_eq_true, List.mem_map, List.mem_range, beq_iff_eq]
  constructor
  · intro h i h1 h2
    exact h _ ⟨i - 1, by omega, by rw [show i - 1 + 1 = i by omega]⟩
  · rintro h x ⟨i, hi, rfl⟩
    exact h (i + 1) (by omega) (by omega)

@[simp] theorem evaluator_length (s c : List Byte) (l : Nat) : (evaluator s c l).length = s.length := by
  simp [evaluator]

theorem xorShifted_length {c b : List Byte} (m : Nat) (q : Byte) (h : b.length = c.length) :
    (xorShifted c m q b).length = c.length := by
  simp [xorShifted]; omega

/-- What every round of Berlekamp-Massey keeps: arrays of N+1 elements, a divisor that is not 0, a length of
at most the number of rounds done. -/
structure BmOk (n r : Nat) (t : BmState) : Prop where
  c_length : t.c.length = n + 1
  b_length : t.b.length = n + 1
  delta_ne : t.delta ≠ 0
  l_le : t.l ≤ r

theorem bmStart_ok (n : Nat) : BmOk n 0 (bmStart n) where
  c_length := by simp [bmStart]
  b_length := by simp [bmStart]
  delta_ne := by show (1 : Byte) ≠ 0; decide
  l_le := by simp [bmStart]

theorem bmRound_ok {n r : Nat} {s : List Byte} {t : BmState} (h : BmOk n r t) :
    BmOk n (r + 1) (bmRound s r t) := by
  obtain ⟨hc, hb, hd, hl⟩ := h
  simp only [bmRound]
  split
  · exact ⟨hc, hb, hd, by simp; omega⟩
  · rename_i h0
    split
    · exact ⟨by simp only; rw [xorShifted_length _ _ (by omega), hc], hc, h0, by simp⟩
    · exact ⟨by simp only; rw [xorShifted_length _ _ (by omega), hc], hb, hd, by simp; omega⟩

theorem bmRounds_ok (n : Nat) (s : List Byte) (k : Nat) :
    BmOk n k ((List.range k).foldl (fun t r => bmRound s r t) (bmStart n)) := by
  induction k with
  | zero => exact bmStart_ok n
  | succ k ih => rw [List.range_succ, List.foldl_append]; exact bmRound_ok ih

/-- The result of Berlekamp-Massey: C has N+1 coefficients, L is at most N, and its divisor is not 0, so gdiv
never raised DIVISION_BY_ZERO (R201). -/
theorem bm_ok (s : List Byte) : BmOk s.length s.length (bm s) := bmRounds_ok _ s _

theorem mem_chien {q : List Byte} {l n p : Nat} :
    p ∈ chien q l n ↔ p < n ∧ pevalLo q l (alphaInv (degOf n p)) = 0 := by
  simp [chien]

theorem chien_length_le (q : List Byte) (l n : Nat) : (chien q l n).length ≤ n := by
  simpa [chien] using List.length_filter_le _ (List.range n)

/-- The Chien search lists its positions in ascending order (R203). -/
theorem chien_ascending (q : List Byte) (l n : Nat) : (chien q l n).Pairwise (· < ·) :=
  List.pairwise_lt_range.filter _

/-- RS_CORRECT's corrections keep the length and touch only the positions given. -/
theorem forneyApply_spec {c w : List Byte} {l nsym n : Nat} {ps : List Nat} {m m' : List Byte}
    (h : forneyApply c w l nsym n ps m = some m') :
    m'.length = m.length ∧ ∀ j, j ∉ ps → m'[j]? = m[j]? := by
  induction ps generalizing m with
  | nil => simp only [forneyApply, Option.some.injEq] at h; subst h; simp
  | cons p ps ih =>
    simp only [forneyApply] at h
    split at h
    · cases h
    · obtain ⟨hl, hr⟩ := ih h
      refine ⟨by simpa using hl, fun j hj => ?_⟩
      simp only [List.mem_cons, not_or] at hj
      rw [hr j hj.2, List.getElem?_set_ne (Ne.symm hj.1)]

@[simp] theorem bitflipTrial_length (m : List Byte) (k : Nat) : (bitflipTrial m k).length = m.length := by
  simp [bitflipTrial]

/-- RS_FORNEY's loop: one magnitude for each position, and the scratch message unchanged but at the
positions. -/
theorem forneyLoop_spec {s : State} {n l nsym : Nat} {ps : List Nat} {m m' : Buffer 8}
    {es : List Byte} (h : forneyLoop s n l nsym ps m = .ok (m', es)) :
    es.length = ps.length ∧ (∀ j, j ∉ ps → Buffer.read m' j = Buffer.read m j) ∧
    ∀ cap, (∀ p ∈ ps, p < cap) → Buffer.wf cap m → Buffer.wf cap m' := by
  induction ps generalizing m m' es with
  | nil => cases h; exact ⟨rfl, fun _ _ => rfl, fun _ _ hw => hw⟩
  | cons p ps ih =>
    simp only [forneyLoop] at h
    cases hd : dpevalLoc s.mem.loc (alphaInv (degOf n p)) (oddsUpTo l) 0 with
    | error e => rw [hd] at h; cases h
    | ok den =>
      rw [hd] at h
      cases h0 : raiseIf (decide (den = 0)) .uncorrectable with
      | error e => simp only [bind, Except.bind, h0] at h; cases h
      | ok u =>
        cases hw : readRange .eval s.mem.eval 0 nsym with
        | error e => simp only [bind, Except.bind, h0, hw] at h; cases h
        | ok w =>
          cases hv : readElem .msg m p with
          | error e => simp only [bind, Except.bind, h0, hw, hv] at h; cases h
          | ok v =>
            simp only [bind, Except.bind, h0, hw, hv] at h
            split at h
            · cases h
            · rename_i r hr
              obtain ⟨m2, es2⟩ := r
              cases h
              obtain ⟨hl, ho, hc⟩ := ih hr
              refine ⟨by simp [hl], fun j hj => ?_, fun cap hp hwf => ?_⟩
              · simp only [List.mem_cons, not_or] at hj
                rw [ho j hj.2, read_write_other _ _ hj.1]
              · exact hc cap (fun q hq => hp q (List.mem_cons_of_mem _ hq))
                  (write_wf _ hwf (hp p (List.mem_cons_self ..)))

end Sys2Proof.Laws
end

