-- ==== Sys2Proof/Laws/State.lean ====
section
/-! SUPPORT. One lemma for each field and each named update of the state, so that no proof unfolds a record
update. -/

namespace Sys2Proof.Laws

open Sys2Proof.Machine

@[simp] theorem complete_regs (s : State) : (s.complete).regs = s.regs := rfl
@[simp] theorem complete_status (s : State) : (s.complete).status = s.status.complete := rfl
@[simp] theorem complete_pending (s : State) : (s.complete).pending = none := rfl
@[simp] theorem complete_mem (s : State) : (s.complete).mem = s.mem := rfl
@[simp] theorem complete_wait (s : State) : (s.complete).wait = s.wait := rfl
@[simp] theorem complete_accepted (s : State) : (s.complete).accepted = s.accepted := rfl
@[simp] theorem complete_inputs (s : State) : (s.complete).inputs = s.inputs := rfl
@[simp] theorem complete_replies (s : State) : (s.complete).replies = s.replies := rfl

@[simp] theorem raiseError_regs (k : ErrorKind) (s : State) : (s.raiseError k).regs = s.regs := rfl
@[simp] theorem raiseError_status (k : ErrorKind) (s : State) : (s.raiseError k).status = s.status.raise k := rfl
@[simp] theorem raiseError_pending (k : ErrorKind) (s : State) : (s.raiseError k).pending = none := rfl
@[simp] theorem raiseError_mem (k : ErrorKind) (s : State) : (s.raiseError k).mem = s.mem := rfl
@[simp] theorem raiseError_wait (k : ErrorKind) (s : State) : (s.raiseError k).wait = s.wait := rfl
@[simp] theorem raiseError_accepted (k : ErrorKind) (s : State) : (s.raiseError k).accepted = s.accepted := rfl
@[simp] theorem raiseError_inputs (k : ErrorKind) (s : State) : (s.raiseError k).inputs = s.inputs := rfl
@[simp] theorem raiseError_replies (k : ErrorKind) (s : State) : (s.raiseError k).replies = s.replies := rfl

@[simp] theorem accept_regs (w : Word) (d : Nat) (s : State) : (s.accept w d).regs = { s.regs with cmd := w } := rfl
@[simp] theorem accept_status (w : Word) (d : Nat) (s : State) : (s.accept w d).status = s.status.accept := rfl
@[simp] theorem accept_pending (w : Word) (d : Nat) (s : State) : (s.accept w d).pending = some w := rfl
@[simp] theorem accept_mem (w : Word) (d : Nat) (s : State) : (s.accept w d).mem = s.mem := rfl
@[simp] theorem accept_wait (w : Word) (d : Nat) (s : State) : (s.accept w d).wait = d := rfl
@[simp] theorem accept_accepted (w : Word) (d : Nat) (s : State) : (s.accept w d).accepted = s.accepted := rfl
@[simp] theorem accept_inputs (w : Word) (d : Nat) (s : State) : (s.accept w d).inputs = s.inputs := rfl
@[simp] theorem accept_replies (w : Word) (d : Nat) (s : State) : (s.accept w d).replies = s.replies := rfl

@[simp] theorem afterReset_regs (s : State) : (s.afterReset).regs = Regs.reset := rfl
@[simp] theorem afterReset_status (s : State) : (s.afterReset).status = Status.reset := rfl
@[simp] theorem afterReset_pending (s : State) : (s.afterReset).pending = none := rfl
@[simp] theorem afterReset_mem (s : State) : (s.afterReset).mem = Memory.reset := rfl
@[simp] theorem afterReset_wait (s : State) : (s.afterReset).wait = 0 := rfl
@[simp] theorem afterReset_accepted (s : State) : (s.afterReset).accepted = s.accepted := rfl
@[simp] theorem afterReset_inputs (s : State) : (s.afterReset).inputs = s.inputs := rfl
@[simp] theorem afterReset_replies (s : State) : (s.afterReset).replies = s.replies := rfl

@[simp] theorem setResult_regs (v : Word) (s : State) : (s.setResult v).regs = { s.regs with result := v } := rfl
@[simp] theorem setResult_status (v : Word) (s : State) : (s.setResult v).status = s.status := rfl
@[simp] theorem setResult_pending (v : Word) (s : State) : (s.setResult v).pending = s.pending := rfl
@[simp] theorem setResult_mem (v : Word) (s : State) : (s.setResult v).mem = s.mem := rfl
@[simp] theorem setResult_wait (v : Word) (s : State) : (s.setResult v).wait = s.wait := rfl
@[simp] theorem setResult_accepted (v : Word) (s : State) : (s.setResult v).accepted = s.accepted := rfl
@[simp] theorem setResult_inputs (v : Word) (s : State) : (s.setResult v).inputs = s.inputs := rfl
@[simp] theorem setResult_replies (v : Word) (s : State) : (s.setResult v).replies = s.replies := rfl

@[simp] theorem noErrors_regs (n : Nat) (s : State) : (s.noErrors n).regs = { s.regs with nerr := 0 } := rfl
@[simp] theorem noErrors_status (n : Nat) (s : State) : (s.noErrors n).status = s.status.setSynzCorr true false := rfl
@[simp] theorem noErrors_pending (n : Nat) (s : State) : (s.noErrors n).pending = s.pending := rfl
@[simp] theorem noErrors_mem (n : Nat) (s : State) : (s.noErrors n).mem = { s.mem with syn := Buffer.writeRange s.mem.syn 0 (List.replicate n 0) } := rfl
@[simp] theorem noErrors_wait (n : Nat) (s : State) : (s.noErrors n).wait = s.wait := rfl
@[simp] theorem noErrors_accepted (n : Nat) (s : State) : (s.noErrors n).accepted = s.accepted := rfl
@[simp] theorem noErrors_inputs (n : Nat) (s : State) : (s.noErrors n).inputs = s.inputs := rfl
@[simp] theorem noErrors_replies (n : Nat) (s : State) : (s.noErrors n).replies = s.replies := rfl

@[simp] theorem corrected_regs (b : Buffer 8) (v : List Byte) (l : Nat) (s : State) : (s.corrected b v l).regs = { s.regs with nerr := BitVec.ofNat 32 l } := rfl
@[simp] theorem corrected_status (b : Buffer 8) (v : List Byte) (l : Nat) (s : State) : (s.corrected b v l).status = s.status.setSynzCorr false true := rfl
@[simp] theorem corrected_pending (b : Buffer 8) (v : List Byte) (l : Nat) (s : State) : (s.corrected b v l).pending = s.pending := rfl
@[simp] theorem corrected_mem (b : Buffer 8) (v : List Byte) (l : Nat) (s : State) : (s.corrected b v l).mem = { s.mem with msg := b, syn := Buffer.writeRange s.mem.syn 0 v } := rfl
@[simp] theorem corrected_wait (b : Buffer 8) (v : List Byte) (l : Nat) (s : State) : (s.corrected b v l).wait = s.wait := rfl
@[simp] theorem corrected_accepted (b : Buffer 8) (v : List Byte) (l : Nat) (s : State) : (s.corrected b v l).accepted = s.accepted := rfl
@[simp] theorem corrected_inputs (b : Buffer 8) (v : List Byte) (l : Nat) (s : State) : (s.corrected b v l).inputs = s.inputs := rfl
@[simp] theorem corrected_replies (b : Buffer 8) (v : List Byte) (l : Nat) (s : State) : (s.corrected b v l).replies = s.replies := rfl

@[simp] theorem status_accept_busy (st : Status) : (st.accept).busy = true := rfl
@[simp] theorem status_accept_done (st : Status) : (st.accept).done = false := rfl
@[simp] theorem status_accept_synz (st : Status) : (st.accept).synz = st.synz := rfl
@[simp] theorem status_accept_corr (st : Status) : (st.accept).corr = st.corr := rfl
@[simp] theorem status_accept_haz (st : Status) : (st.accept).haz = st.haz := rfl
@[simp] theorem status_accept_err (st : Status) : (st.accept).err = none := rfl

@[simp] theorem status_complete_busy (st : Status) : (st.complete).busy = false := rfl
@[simp] theorem status_complete_done (st : Status) : (st.complete).done = true := rfl
@[simp] theorem status_complete_synz (st : Status) : (st.complete).synz = st.synz := rfl
@[simp] theorem status_complete_corr (st : Status) : (st.complete).corr = st.corr := rfl
@[simp] theorem status_complete_haz (st : Status) : (st.complete).haz = st.haz := rfl
@[simp] theorem status_complete_err (st : Status) : (st.complete).err = st.err := rfl

@[simp] theorem status_raise_busy (k : ErrorKind) (st : Status) : (st.raise k).busy = false := rfl
@[simp] theorem status_raise_done (k : ErrorKind) (st : Status) : (st.raise k).done = true := rfl
@[simp] theorem status_raise_synz (k : ErrorKind) (st : Status) : (st.raise k).synz = st.synz := rfl
@[simp] theorem status_raise_corr (k : ErrorKind) (st : Status) : (st.raise k).corr = st.corr := rfl
@[simp] theorem status_raise_haz (k : ErrorKind) (st : Status) : (st.raise k).haz = st.haz := rfl
@[simp] theorem status_raise_err (k : ErrorKind) (st : Status) : (st.raise k).err = some k := rfl

@[simp] theorem status_setSynz_busy (z : Bool) (st : Status) : (st.setSynz z).busy = st.busy := rfl
@[simp] theorem status_setSynz_done (z : Bool) (st : Status) : (st.setSynz z).done = st.done := rfl
@[simp] theorem status_setSynz_synz (z : Bool) (st : Status) : (st.setSynz z).synz = z := rfl
@[simp] theorem status_setSynz_corr (z : Bool) (st : Status) : (st.setSynz z).corr = st.corr := rfl
@[simp] theorem status_setSynz_haz (z : Bool) (st : Status) : (st.setSynz z).haz = st.haz := rfl
@[simp] theorem status_setSynz_err (z : Bool) (st : Status) : (st.setSynz z).err = st.err := rfl

@[simp] theorem status_setSynzCorr_busy (z c : Bool) (st : Status) : (st.setSynzCorr z c).busy = st.busy := rfl
@[simp] theorem status_setSynzCorr_done (z c : Bool) (st : Status) : (st.setSynzCorr z c).done = st.done := rfl
@[simp] theorem status_setSynzCorr_synz (z c : Bool) (st : Status) : (st.setSynzCorr z c).synz = z := rfl
@[simp] theorem status_setSynzCorr_corr (z c : Bool) (st : Status) : (st.setSynzCorr z c).corr = c := rfl
@[simp] theorem status_setSynzCorr_haz (z c : Bool) (st : Status) : (st.setSynzCorr z c).haz = st.haz := rfl
@[simp] theorem status_setSynzCorr_err (z c : Bool) (st : Status) : (st.setSynzCorr z c).err = st.err := rfl

@[simp] theorem status_setHaz_busy (st : Status) : (st.setHaz).busy = st.busy := rfl
@[simp] theorem status_setHaz_done (st : Status) : (st.setHaz).done = st.done := rfl
@[simp] theorem status_setHaz_synz (st : Status) : (st.setHaz).synz = st.synz := rfl
@[simp] theorem status_setHaz_corr (st : Status) : (st.setHaz).corr = st.corr := rfl
@[simp] theorem status_setHaz_haz (st : Status) : (st.setHaz).haz = true := rfl
@[simp] theorem status_setHaz_err (st : Status) : (st.setHaz).err = st.err := rfl

/-- A host write of STATUS changes HAZ at most, and only to 0. -/
theorem status_hostWrite (v : Word) (st : Status) :
    st.hostWrite v = { st with haz := st.haz && !v.getLsbD 4 } := by
  unfold Status.hostWrite
  cases h : v.getLsbD 4 <;> simp

/-- The busy bit of the STATUS word is its bit 0, the one a poll looks at. -/
theorem status_word_busy (st : Status) : st.word.getLsbD 0 = st.busy := by
  obtain ⟨b, d, z, c, h, e⟩ := st
  cases b <;> cases d <;> cases z <;> cases c <;> cases h <;> rcases e with _ | (_ | _) <;> rfl

/-- The machine after reset, as a state without pending command and with canonical memories. -/
theorem reset_mem_wf : State.reset.mem.wf := by decide

end Sys2Proof.Laws
end

