-- ==== Sys2Proof/Laws/Step.lean ====
section
/-! SUPPORT. Everything one step can do, and that every command is one run of `runCommand`. -/

namespace Sys2Proof.Laws

open Sys2Proof.Machine

/-- A command's meaning is `runCommand` of its pseudocode: whatever holds of every such run holds of it. -/
theorem exec_cases (i : Instr) (s : State) : ∃ r, exec i s = runCommand s r := by
  cases i <;>
    simp only [exec, execNop, execGfAdd, execGfMul, execGfDiv, execGfPow, execGfExp, execGfLog,
      execRsGenpoly, execRsEncode, execRsSyndrome, execRsLocator, execRsChien, execRsForney,
      execRsCorrect, execRsCorrectBitflip, execGeoSelect, execGeoLookup, execGeoInfo, execGridInit,
      execGeoClassify, execPlaceWrite, execPlaceRead, execPlaceMap, execPlaceUnmap] <;>
    exact ⟨_, rfl⟩

/-- A command never refuses and never meets a bus error: it answers a next state, or it stops at an element
that nothing has written (10_state.md R37, R46). -/
theorem exec_next_or_unwritten (i : Instr) (s : State) :
    (∃ t, exec i s = .next t) ∨ ∃ b j, exec i s = .fault (.unwrittenRead b j) := by
  obtain ⟨r, hr⟩ := exec_cases i s
  rcases runCommand_cases s r with ⟨t, -, h⟩ | ⟨k, -, h⟩ | ⟨b, j, -, h⟩
  · exact .inl ⟨_, hr.trans h⟩
  · exact .inl ⟨_, hr.trans h⟩
  · exact .inr ⟨b, j, hr.trans h⟩

theorem step_pending_none {s : State} (h : s.pending = none) : step s = hostStep s := by
  simp [step, moveOne, h]

theorem step_engine {s : State} {w : Word} (h : s.pending = some w) (h0 : s.wait = 0) :
    step s = engineStep w s := by
  simp [step, moveOne, h, h0]

theorem step_waiting {s : State} {w : Word} {k : Nat} (h : s.pending = some w) (hk : s.wait = k + 1) :
    step s = hostStep { s with wait := k } := by
  simp [step, moveOne, h, hk]

/-- The engine runs a command, or raises ILLEGAL_COMMAND. -/
theorem engineStep_cases (w : Word) (s : State) :
    (∃ i, decode w = .ok i ∧ engineStep w s = exec i s) ∨
    (∃ e, decode w = .error e ∧ engineStep w s = .next (s.raiseError .illegalCommand)) := by
  unfold engineStep
  cases h : decode w with
  | ok i => exact .inl ⟨i, rfl, rfl⟩
  | error e => exact .inr ⟨e, rfl, rfl⟩

/-- Everything the outside can do in one move: nothing, a reset, a read, a write, a poll, or a stop. -/
theorem hostStep_cases (s : State) :
    (s.inputs = [] ∧ hostStep s = .next s) ∨
    (∃ rest, s.inputs = .reset :: rest ∧ hostStep s = .next { s.afterReset with inputs := rest }) ∨
    (∃ a t v rest, s.inputs = .read a :: rest ∧ targetAt a = some t ∧ hostRead s t = .ok v ∧
      hostStep s = .next { s with inputs := rest, replies := .readOk a v :: s.replies }) ∨
    (∃ a t v rest, s.inputs = .write a v :: rest ∧ targetAt a = some t ∧
      hostStep s =
        .next { hostWrite s t v with inputs := rest, replies := .writeOk a :: s.replies }) ∨
    (∃ rest, s.inputs = .poll :: rest ∧
      hostStep s = .next { s with
        inputs := if s.status.busy then s.inputs else rest
        replies := .readOk (Target.reg .status).addr s.status.word :: s.replies }) ∨
    (∃ f, hostStep s = .fault f) := by
  unfold hostStep
  cases hi : s.inputs with
  | nil => exact .inl ⟨rfl, rfl⟩
  | cons x rest =>
    cases x with
    | reset => exact .inr (.inl ⟨rest, rfl, rfl⟩)
    | poll => exact .inr (.inr (.inr (.inr (.inl ⟨rest, rfl, rfl⟩))))
    | read a =>
      cases ht : targetAt a with
      | none => exact .inr (.inr (.inr (.inr (.inr ⟨.busError a, by simp [ht]⟩))))
      | some t =>
        cases hv : hostRead s t with
        | error f => exact .inr (.inr (.inr (.inr (.inr ⟨f, by simp [ht, hv]⟩))))
        | ok v => exact .inr (.inr (.inl ⟨a, t, v, rest, rfl, ht, hv, by simp [ht, hv]⟩))
    | write a v =>
      cases ht : targetAt a with
      | none => exact .inr (.inr (.inr (.inr (.inr ⟨.busError a, by simp [ht]⟩))))
      | some t => exact .inr (.inr (.inr (.inl ⟨a, t, v, rest, rfl, ht, by simp [ht]⟩)))

end Sys2Proof.Laws
end

