-- ==== Sys2Proof/Tests/Slice0.lean ====
section
/-! SUPPORT. The model's own tests: the word checks, decoding from words written out bit by bit, one step of each
command on small states with the values of 95_test_vectors.md and of the examples in the rules, and for each
obligation with hypotheses a state and operands that meet them. -/

namespace Sys2Proof.Tests

open Sys2Proof Sys2Proof.Machine Sys2Proof.Safety

/-! ### Helpers -/

/-- The next state, if the outcome is one. -/
def nextOf (o : Host.Outcome State Fault Refusal) : Option State :=
  match o with
  | .next t => some t
  | .fault _ => none
  | .refused _ => none

/-- The fault, if the outcome is one. -/
def faultOf (o : Host.Outcome State Fault Refusal) : Option Fault :=
  match o with
  | .next _ => none
  | .fault f => some f
  | .refused _ => none

/-- How a host sequence ends early, if it does. -/
def stopOf {α : Type} (x : Except HostStop α) : Option HostStop :=
  match x with
  | .ok _ => none
  | .error e => some e

/-- Reset, with OPA and OPB. -/
def ops (a b : Word) : State :=
  { State.reset with regs := { Regs.reset with opa := a, opb := b } }

/-- Reset, with LEN, NSYM and MSG[0..]. -/
def rs (len nsym : Word) (m : List Byte) : State :=
  { State.reset with
    regs := { Regs.reset with len := len, nsym := nsym }
    mem := { Memory.reset with msg := Buffer.writeRange [] 0 m } }

/-- Reset, with NSYM and SYN[0..]. -/
def syns (nsym : Word) (v : List Byte) : State :=
  { State.reset with
    regs := { Regs.reset with nsym := nsym }
    mem := { Memory.reset with syn := Buffer.writeRange [] 0 v } }

/-- Reset, with LEN, NERR and LOC[0..]. -/
def locs (len nerr : Word) (q : List Byte) : State :=
  { State.reset with
    regs := { Regs.reset with len := len, nerr := nerr }
    mem := { Memory.reset with loc := Buffer.writeRange [] 0 q } }

/-- Reset, with LEN = 8, NSYM = 5, LOC, EVAL, POS as given, NERR and NFOUND to match, and MSG[0] = 143 (R212). -/
def forn (q : List Byte) (ps : List (BitVec 16)) : State :=
  { State.reset with
    regs := { Regs.reset with
      len := 8, nsym := 5, nerr := BitVec.ofNat 32 (q.length - 1), nfound := BitVec.ofNat 32 ps.length }
    mem := { Memory.reset with
      loc := Buffer.writeRange [] 0 q
      eval := Buffer.writeRange [] 0 [128, 0, 0, 0, 0]
      pos := Buffer.writeRange [] 0 ps
      msg := [(0, 143)] } }

/-- Reset, with SIZE_IDX, ROWS or ROW, COLS or COL, and BITIDX. -/
def geo (idx r c k : Word) : State :=
  { State.reset with
    regs := { Regs.reset with sizeIdx := idx, rows := r, cols := c, row := r, col := c, bitidx := k } }

/-- Scenario 1 of 95_test_vectors.md section 1: the encoded message. -/
def scenario : List Byte := [142, 164, 186, 114, 25, 5, 88, 102]

/-- SIZE_IDX = 0 with scenario 1 in MSG. -/
def placing : State :=
  { State.reset with mem := { Memory.reset with msg := Buffer.writeRange [] 0 scenario } }

/-- SIZE_IDX = 0 with scenario 1 placed in GRID. -/
def placed : State :=
  { State.reset with mem := { Memory.reset with grid := placeBits (sizeAt 0) scenario 0 64 [] } }

/-- Idle, with one host operation to come. -/
def ask (x : Input) : State := { ops 7 9 with inputs := [x] }

/-- A command word pending with `k` steps of latency left, and one host operation to come. -/
def busyAsk (w : Word) (k : Nat) (x : Input) : State := { (ops 7 9).accept w k with inputs := [x] }

/-- The first `n` elements. -/
def front {w : Nat} (b : Buffer w) (n : Nat) : List (Option (BitVec w)) :=
  (List.range n).map (Buffer.read b)

/-- RESULT and the STATUS word after one command. -/
def result (i : Instr) (s : State) : Option (Word × Word) :=
  (nextOf (exec i s)).map (fun t => (t.regs.result, t.status.word))

/-! ### Well-formed words: an ill-formed word for each check, which the check refuses -/

theorem test_wf_refuses_reserved_bit : rsvIsZero 0x00000100 = false ∧ rsvIsZero 0x80000000 = false := by decide
theorem test_wf_refuses_unassigned_opcodes :
    opIsAssigned 0x07 = false ∧ opIsAssigned 0x0F = false ∧ opIsAssigned 0x18 = false ∧
    opIsAssigned 0x1F = false ∧ opIsAssigned 0x25 = false ∧ opIsAssigned 0x2F = false ∧
    opIsAssigned 0x34 = false ∧ opIsAssigned 0xFF = false := by decide
theorem test_wf_word_needs_both : wellFormedWord 0x00000101 = false ∧ wellFormedWord 0x00000040 = false ∧
    wellFormedWord 0x00000033 = true := by decide

/-! ### Decoding: each command's word, RSV (24 bits) and OP (8 bits), written out from R100 and R102 -/

theorem test_decode_control : decode 0b000000000000000000000000_00000000#32 = .ok .nop := rfl
theorem test_decode_gfAdd : decode 0b000000000000000000000000_00000001#32 = .ok .gfAdd := rfl
theorem test_decode_gfMul : decode 0b000000000000000000000000_00000010#32 = .ok .gfMul := rfl
theorem test_decode_gfDiv : decode 0b000000000000000000000000_00000011#32 = .ok .gfDiv := rfl
theorem test_decode_gfPow : decode 0b000000000000000000000000_00000100#32 = .ok .gfPow := rfl
theorem test_decode_gfExp : decode 0b000000000000000000000000_00000101#32 = .ok .gfExp := rfl
theorem test_decode_gfLog : decode 0b000000000000000000000000_00000110#32 = .ok .gfLog := rfl
theorem test_decode_rsGenpoly : decode 0b000000000000000000000000_00010000#32 = .ok .rsGenpoly := rfl
theorem test_decode_rsEncode : decode 0b000000000000000000000000_00010001#32 = .ok .rsEncode := rfl
theorem test_decode_rsSyndrome : decode 0b000000000000000000000000_00010010#32 = .ok .rsSyndrome := rfl
theorem test_decode_rsLocator : decode 0b000000000000000000000000_00010011#32 = .ok .rsLocator := rfl
theorem test_decode_rsChien : decode 0b000000000000000000000000_00010100#32 = .ok .rsChien := rfl
theorem test_decode_rsForney : decode 0b000000000000000000000000_00010101#32 = .ok .rsForney := rfl
theorem test_decode_rsCorrect : decode 0b000000000000000000000000_00010110#32 = .ok .rsCorrect := rfl
theorem test_decode_rsBitflip :
    decode 0b000000000000000000000000_00010111#32 = .ok .rsCorrectBitflip := rfl
theorem test_decode_geoSelect : decode 0b000000000000000000000000_00100000#32 = .ok .geoSelect := rfl
theorem test_decode_geoLookup : decode 0b000000000000000000000000_00100001#32 = .ok .geoLookup := rfl
theorem test_decode_geoInfo : decode 0b000000000000000000000000_00100010#32 = .ok .geoInfo := rfl
theorem test_decode_gridInit : decode 0b000000000000000000000000_00100011#32 = .ok .gridInit := rfl
theorem test_decode_geoClassify : decode 0b000000000000000000000000_00100100#32 = .ok .geoClassify := rfl
theorem test_decode_placeWrite : decode 0b000000000000000000000000_00110000#32 = .ok .placeWrite := rfl
theorem test_decode_placeRead : decode 0b000000000000000000000000_00110001#32 = .ok .placeRead := rfl
theorem test_decode_placeMap : decode 0b000000000000000000000000_00110010#32 = .ok .placeMap := rfl
theorem test_decode_placeUnmap : decode 0b000000000000000000000000_00110011#32 = .ok .placeUnmap := rfl
theorem test_decode_refuses :
    decode 0b000000000000000000000001_00000001#32 = .error .reservedBitsSet ∧
    decode 0b000000000000000000000000_00001111#32 = .error .unassignedOpcode := ⟨rfl, rfl⟩

/-! ### GF commands (95_test_vectors.md section 3) -/

theorem test_nop : result .nop (ops 1 2) = some (0, 0x00000002) := by decide
theorem test_gfAdd : result .gfAdd (ops 142 164) = some (42, 0x00000002) := by decide
theorem test_gfAdd_range : result .gfAdd (ops 256 0) = some (0, 0x00000602) := by decide
theorem test_gfMul : result .gfMul (ops 142 164) = some (180, 0x00000002) := by decide
theorem test_gfMul_range : result .gfMul (ops 0 256) = some (0, 0x00000602) := by decide
theorem test_gfDiv : result .gfDiv (ops 200 13) = some (106, 0x00000002) := by decide
theorem test_gfDiv_errors : result .gfDiv (ops 0 0) = some (0, 0x00000102) ∧
    result .gfDiv (ops 300 0) = some (0, 0x00000602) := by decide
theorem test_gfPow : result .gfPow (ops 7 254) = some (197, 0x00000002) := by decide
theorem test_gfPow_wide_exponent : result .gfPow (ops 2 0xFFFFFFFF) = some (1, 0x00000002) := by decide
theorem test_gfExp : result .gfExp (ops 300 0) = some (52, 0x00000002) := by decide
theorem test_gfExp_ends : result .gfExp (ops 511 0) = some (2, 0x00000002) ∧
    result .gfExp (ops 512 0) = some (0, 0x00000602) := by decide
theorem test_gfLog : result .gfLog (ops 255 0) = some (150, 0x00000002) := by decide
theorem test_gfLog_zero : result .gfLog (ops 0 0) = some (0, 0x00000602) := by decide

/-! ### RS commands (the rules' examples, 95_test_vectors.md section 4) -/

theorem test_rsGenpoly : (nextOf (exec .rsGenpoly (rs 0 5 []))).map (fun t => front t.mem.gen 7) =
    some [some 1, some 62, some 111, some 15, some 48, some 228, none] := by decide
theorem test_rsEncode : (nextOf (exec .rsEncode (rs 8 5 [142, 164, 186]))).map
    (fun t => front t.mem.msg 9) =
    some [some 142, some 164, some 186, some 114, some 25, some 5, some 88, some 102, none] := by
  decide
theorem test_rsEncode_unwritten : faultOf (exec .rsEncode (rs 8 5 [142, 164])) =
    some (.unwrittenRead .msg 2) := by decide
theorem test_rsSyndrome : (nextOf (exec .rsSyndrome (rs 8 5 [143, 164, 186, 114, 25, 5, 88, 102]))).map
    (fun t => (front t.mem.syn 6, t.status.word)) =
    some ([some 128, some 114, some 219, some 23, some 178, none], 0x00000002) := by decide
theorem test_rsSyndrome_zero : (nextOf (exec .rsSyndrome (rs 8 5 scenario))).map
    (fun t => t.status.word) = some 0x00000006 := by decide
theorem test_rsLocator : (nextOf (exec .rsLocator (syns 5 [128, 114, 219, 23, 178]))).map
    (fun t => (t.regs.nerr, front t.mem.loc 6, front t.mem.eval 5)) =
    some (1, [some 1, some 128, some 0, some 0, some 0, some 0],
      [some 128, some 0, some 0, some 0, some 0]) := by decide
theorem test_rsLocator_beyond : result .rsLocator (syns 1 [3]) = some (0, 0x00000202) := by
  decide
theorem test_rsChien : (nextOf (exec .rsChien (locs 8 1 [1, 128]))).map
    (fun t => (front t.mem.pos 2, t.regs.nfound)) = some ([some 0, none], 1) := by decide
theorem test_rsChien_mismatch : result .rsChien (locs 0 1 []) = some (0, 0x00000202) := by
  decide
theorem test_rsForney : (nextOf (exec .rsForney (forn [1, 128] [0]))).map
    (fun t => (front t.mem.mag 2, front t.mem.msg 2)) = some ([some 1, none], [some 142, none]) := by
  decide
theorem test_rsForney_zero_denominator : result .rsForney (forn [1] [0]) = some (0, 0x00000202) := by
  decide
theorem test_rsCorrect : (nextOf (exec .rsCorrect (rs 8 5 [143, 164, 186, 114, 25, 5, 88, 102]))).map
    (fun t => (front t.mem.msg 8, t.regs.nerr, t.status.word)) =
    some (scenario.map some, 1, 0x0000000A) := by decide
theorem test_rsCorrect_two_errors : (nextOf (exec .rsCorrect
    (rs 8 5 [142, 164, 187, 114, 25, 5, 88, 230]))).map (fun t => (front t.mem.msg 8, t.regs.nerr)) =
    some (scenario.map some, 2) := by decide
theorem test_rsBitflip : (nextOf (exec .rsCorrectBitflip
    (rs 8 5 [143, 164, 186, 114, 25, 5, 88, 102]))).map (fun t => (front t.mem.msg 8, t.status.word)) =
    some (scenario.map some, 0x0000000A) := by decide
theorem test_rsBitflip_two_bits : result .rsCorrectBitflip
    (rs 8 5 [141, 164, 186, 114, 25, 5, 88, 102]) = some (0, 0x00000202) := by decide

/-! ### Geometry and placement (the rules' examples, 95_test_vectors.md section 5) -/

theorem test_geoSelect : (nextOf (exec .geoSelect (ops 11 0))).map
    (fun t => (t.regs.sizeIdx, t.regs.rows, t.regs.cols, t.regs.dataCw, t.regs.ecCw)) =
    some (5, 16, 16, 12, 12) := by decide
theorem test_geoSelect_too_long : result .geoSelect (ops 1559 0) = some (0, 0x00000402) := by
  decide
theorem test_geoLookup : (nextOf (exec .geoLookup (geo 0 8 18 0))).map
    (fun t => (t.regs.sizeIdx, t.regs.rows)) = some (2, 8) := by decide
theorem test_geoLookup_transposed : result .geoLookup (geo 0 18 8 0) = some (0, 0x00000302) := by
  decide
theorem test_geoInfo : (nextOf (exec .geoInfo (geo 29 0 0 0))).map
    (fun t => (t.regs.rows, t.regs.cols, t.regs.dataCw, t.regs.ecCw)) =
    some (144, 144, 1558, 620) := by decide
theorem test_geoInfo_range : result .geoInfo (geo 30 0 0 0) = some (0, 0x00000602) := by decide
theorem test_gridInit : (nextOf (exec .gridInit (geo 0 0 0 0))).map
    (fun t => [(0, 0), (0, 9), (1, 9), (2, 9), (9, 9), (5, 5), (143, 143)].map
      (fun p : Nat × Nat => Buffer.read t.mem.grid (gridIndex p.1 p.2))) =
    some [some 1, some 0, some 1, some 0, some 1, some 0, some 0] := by decide +kernel
theorem test_geoClassify : result .geoClassify (geo 0 0 9 0) = some (1, 0x00000002) ∧
    result .geoClassify (geo 0 1 9 0) = some (3, 0x00000002) := by decide
theorem test_geoClassify_data : result .geoClassify (geo 0 1 8 0) = some (4, 0x00000002) := by
  decide
theorem test_placeWrite : (nextOf (exec .placeWrite placing)).map
    (fun t => [(8, 8), (7, 8), (8, 7), (7, 7), (8, 6), (7, 6), (8, 5), (7, 5)].map
      (fun p : Nat × Nat => Buffer.read t.mem.grid (gridIndex p.1 p.2))) =
    some [some 1, some 0, some 0, some 0, some 1, some 1, some 1, some 0] := by decide
theorem test_placeRead : (nextOf (exec .placeRead placed)).map (fun t => front t.mem.msg 1) =
    some [some 142] := by decide
theorem test_placeMap : (nextOf (exec .placeMap (geo 0 0 0 15))).map
    (fun t => (t.regs.row, t.regs.col)) = some (7, 1) := by decide
theorem test_placeUnmap : (nextOf (exec .placeUnmap (geo 1 1 1 0))).map
    (fun t => (t.regs.bitidx, t.regs.result)) = some (99, 0) := by decide

/-! ### The bus, reset and the step -/

theorem test_reset_status : State.reset.status.word = 0 ∧ State.reset.pending = none := by decide
theorem test_bus_width : (nextOf (step (ask (.write 0x543FC 0xFFFFFFFE)))).map
    (fun t => t.mem.elem .grid 20735) = some (some 0) := by decide
theorem test_bus_error : faultOf (step (ask (.read 0x00044))) = some (.busError 0x00044) := by
  decide
theorem test_illegal_word : (nextOf (step (busyAsk 0x00000103 0 .poll))).map
    (fun t => t.status.word) = some 0x00000502 := by decide
theorem test_fetched_word_runs : (nextOf (step ((ops 2 128).withFetchWord 32 2))).map
    (fun t => t.regs.result) = some 45 := by decide
theorem test_program_words : expandProgram [.gfMul 3 7] =
    [.write 0x00008 3, .write 0x0000C 7, .write 0x00000 2, .poll] := by decide
theorem test_interpret : interpretCodewords [41, 66, 129, 200] = .ok ([40, 65], false) ∧
    interpretCodewords [0, 66, 129] = .ok ([65], true) ∧
    interpretCodewords [66, 130] = .error (.failed .unsupportedMode) := ⟨rfl, rfl, rfl⟩

/-- R332: a payload of 1559 codewords is too long for every entry. -/
theorem test_hostEncode_too_long : stopOf (hostEncode (List.replicate 1559 65) State.reset) =
    some (.failed .dataTooLong) := by decide +kernel
/-- R334: dimensions that agree with 10 x 10 only in their low 32 bits are no entry's. -/
theorem test_hostDecode_wide_rows : stopOf (hostDecode (2 ^ 32 + 10) 10 [] State.reset) =
    some (.failed .unsupportedSymbolSize) := by decide +kernel

/-! ### Witnesses: for each obligation with hypotheses, states and operands that meet them -/

/-- A run of elements that is listed is held. -/
theorem holds_of_check {w : Nat} (b : Buffer w) (vs : List (BitVec w))
    (h : (List.range vs.length).all (fun j => Buffer.read b j == vs[j]?) = true) : Holds b 0 vs := by
  intro j hj
  have := List.all_eq_true.1 h j (List.mem_range.2 hj)
  simpa using this

/-- A message whose syndromes are all 0 is an encoded message. -/
theorem codeword_of_check (m : List Byte) (n : Nat)
    (h : (List.range n).all (fun i => syndrome m (i + 1) == 0) = true) : IsCodeword m n := by
  intro i h1 h2
  have := List.all_eq_true.1 h (i - 1) (List.mem_range.2 (by omega))
  rw [show i - 1 + 1 = i by omega] at this
  simpa using this

/-- One syndrome that is not 0 is enough. -/
theorem not_codeword_of {m : List Byte} {n : Nat} (i : Nat) (h1 : 1 ≤ i) (h2 : i ≤ n)
    (h : syndrome m i ≠ 0) : ¬ IsCodeword m n := fun hc => h (hc i h1 h2)

/-- An outcome whose next state passes a test is a next state with what is tested. -/
theorem next_of_check {o : Host.Outcome State Fault Refusal} (p : State → Prop) [DecidablePred p]
    (h : (nextOf o).any (fun t => decide (p t)) = true) : ∃ t, o = .next t ∧ p t := by
  cases o with
  | next t => exact ⟨t, rfl, by simpa [nextOf] using h⟩
  | fault f => cases h
  | refused r => cases h

/-- An outcome that is a next state. -/
theorem is_next {o : Host.Outcome State Fault Refusal} (h : (nextOf o).isSome = true) : ∃ t, o = .next t := by
  cases o with
  | next t => exact ⟨t, rfl⟩
  | fault f => cases h
  | refused r => cases h

/-- The state in which the engine has a command to run and the bus nothing to do. -/
def due (w : Word) : State := busyAsk w 0 .poll

theorem wit_IllegalWords : (∀ w, (due w).pending = some w ∧ (due w).wait = 0) ∧
    (0x00000100#32).extractLsb' 8 24 ≠ 0#24 ∧ (0x80000000#32).extractLsb' 8 24 ≠ 0#24 ∧
    (0x33#32).extractLsb' 8 24 = 0#24 ∧ ((0x07#32).extractLsb' 0 8).toNat = 0x07 ∧
    ((0x1F#32).extractLsb' 0 8).toNat = 0x1F ∧ ((0x25#32).extractLsb' 0 8).toNat = 0x25 ∧
    ((0xFF#32).extractLsb' 0 8).toNat = 0xFF ∧ ((0x33#32).extractLsb' 0 8).toNat = 0x33 :=
  ⟨fun _ => ⟨rfl, rfl⟩, by decide, by decide, by decide, by decide, by decide, by decide, by decide,
    by decide⟩

theorem wit_StepRunsTheDecodedCommand :
    (due 0x33).pending = some 0x33 ∧ (due 0x33).wait = 0 ∧ decode 0x33 = .ok .placeUnmap :=
  ⟨rfl, rfl, rfl⟩

theorem wit_CmdWriteStartsTheCommand :
    ((ask (.write 0x00000 0x104)).pending = none ∧ (ask (.write 0x00000 0x104)).status.busy = false ∧
      (ask (.write 0x00000 0x104)).inputs = [.write 0x00000 0x104]) ∧
    ((busyAsk 2 1 (.write 0x00000 3)).pending = some 2 ∧
      (busyAsk 2 1 (.write 0x00000 3)).status.busy = true ∧ (busyAsk 2 1 (.write 0x00000 3)).wait = 0 + 1 ∧
      (busyAsk 2 1 (.write 0x00000 3)).inputs = [.write 0x00000 3]) ∧
    (ask (.read 0x00000)).pending = none ∧ (ask (.read 0x00000)).inputs = [.read 0x00000] := by decide

theorem wit_ResetAborts : (ask .reset).inputs = [.reset] ∧ (ask .reset).pending = none ∧
    (busyAsk 2 1 .reset).inputs = [.reset] ∧ (busyAsk 2 1 .reset).wait = 0 + 1 ∧
    (busyAsk 2 0 .reset).inputs = [.reset] ∧ (busyAsk 2 0 .reset).pending = some 2 ∧
    (busyAsk 2 0 .reset).wait = 0 ∧ ∃ u, step (busyAsk 2 0 .reset) = .next u :=
  ⟨rfl, rfl, rfl, rfl, rfl, rfl, rfl, is_next (by decide)⟩

theorem wit_AddressMap_ends : targetAt 0x00040 = some (.reg .col) ∧
    targetAt 0x13FFC = some (.elem .msg 4095) ∧ targetAt 0x14000 = some (.elem .gen 0) ∧
    targetAt 0x19FFC = some (.elem .mag 1023) ∧ targetAt 0x543FC = some (.elem .grid 20735) ∧
    targetAt 0x00044 = none ∧ targetAt 0x1A000 = none ∧ targetAt 0x3FFFC = none ∧
    targetAt 0x54400 = none := by decide

/-- The first addresses past the registers, past MAG and past GRID name nothing. -/
theorem unmapped_ends (n : Nat) (hn : n = 0x00044 ∨ n = 0x1A000 ∨ n = 0x54400) :
    ∀ t, validTarget t → BitVec.ofNat 20 n ≠ t.addr := by
  rintro (r | ⟨b, i⟩) ht he
  · rcases hn with rfl | rfl | rfl <;> cases r <;> exact absurd he (by decide)
  · have hv : i < b.cap := ht
    have ha := congrArg BitVec.toNat he
    simp only [Target.addr, BitVec.toNat_ofNat] at ha
    cases b <;>
      simp only [BufId.base, BufId.cap, Config.msgCap, Config.bufCap, Config.gridDim] at ha hv <;> omega

theorem wit_UnmappedAccess :
    (ask (.read 0x00002)).pending = none ∧ (0x00002 : Addr).toNat % 4 ≠ 0 ∧
    (ask (.read 0x00002)).inputs = [.read 0x00002] ∧
    (∀ t, validTarget t → BitVec.ofNat 20 0x54400 ≠ t.addr) ∧ (busyAsk 2 1 (.write 0x54400 1)).wait = 0 + 1 ∧
    ∃ v, (busyAsk 2 1 (.write 0x54400 1)).inputs = [.write 0x54400 v] :=
  ⟨rfl, by decide, rfl, unmapped_ends _ (.inr (.inr rfl)), rfl, 1, rfl⟩

theorem wit_ElementWrite : ∀ p ∈ ([(.msg, 4095), (.pos, 1023), (.mag, 0), (.grid, 20735)] :
    List (BufId × Nat)),
    (ask (.write (Target.elem p.1 p.2).addr 0xFFFFFFFF)).pending = none ∧
    (ask (.write (Target.elem p.1 p.2).addr 0xFFFFFFFF)).status.busy = false ∧ p.2 < p.1.cap ∧
    (ask (.write (Target.elem p.1 p.2).addr 0xFFFFFFFF)).inputs =
      [.write (Target.elem p.1 p.2).addr 0xFFFFFFFF] := by decide

/-- Idle, with MSG[4095] = 9 and one host operation to come. -/
def asked (x : Input) : State := { ask x with mem := { Memory.reset with msg := [(4095, 9)] } }

theorem wit_Reads : (ask (.read 0x00040)).pending = none ∧
    (ask (.read 0x00040)).inputs = [.read (BitVec.ofNat 20 RegId.col.offset)] ∧
    4095 < BufId.msg.cap ∧ (asked (.read 0x13FFC)).mem.elem .msg 4095 = some 9 ∧
    (asked (.read 0x13FFC)).inputs = [.read (Target.elem .msg 4095).addr] ∧
    (asked (.read 0x13FF8)).mem.elem .msg 4094 = none ∧
    (asked (.read 0x13FF8)).inputs = [.read (Target.elem .msg 4094).addr] := by decide

theorem wit_RegisterWrites : ∀ r ∈ ([.opa, .col, .result, .dataCw, .ecCw, .status] : List RegId),
    (ask (.write (BitVec.ofNat 20 r.offset) 0x10)).pending = none ∧
    (ask (.write (BitVec.ofNat 20 r.offset) 0x10)).status.busy = false ∧ r ≠ .cmd ∧
    (ask (.write (BitVec.ofNat 20 r.offset) 0x10)).inputs = [.write (BitVec.ofNat 20 r.offset) 0x10] := by
  decide

theorem wit_WriteWhileBusy : (busyAsk 2 1 (.write 0x543FC 1)).pending = some 2 ∧
    (busyAsk 2 1 (.write 0x543FC 1)).status.busy = true ∧ (busyAsk 2 1 (.write 0x543FC 1)).wait = 0 + 1 ∧
    validTarget (.elem .grid 20735) ∧
    (busyAsk 2 1 (.write 0x543FC 1)).inputs = [.write (Target.elem .grid 20735).addr 1] ∧
    validTarget (.reg .cmd) ∧
    (busyAsk 2 1 (.write 0x00000 3)).inputs = [.write (Target.reg .cmd).addr 3] :=
  ⟨rfl, rfl, rfl, by show (20735 : Nat) < 144 * 144; decide, by decide, trivial, by decide⟩

theorem wit_ReadWhileBusy : (busyAsk 2 1 (.read 0x00004)).pending = some 2 ∧
    (busyAsk 2 1 (.read 0x00004)).status.busy = true ∧ (busyAsk 2 1 (.read 0x00004)).wait = 0 + 1 ∧
    validTarget (.reg .status) ∧ (busyAsk 2 1 (.read 0x00004)).inputs = [.read (Target.reg .status).addr] ∧
    validTarget (.elem .msg 4095) ∧
    (busyAsk 2 1 (.read 0x13FFC)).inputs = [.read (Target.elem .msg 4095).addr] :=
  ⟨rfl, rfl, rfl, trivial, by decide, by show (4095 : Nat) < 4096; decide, by decide⟩

/-- A state with a command pending meets the invariant, and a step from it answers a next state. -/
theorem wit_StepKeepsTheInvariant : Inv (due 0x02) ∧ ∃ t, step (due 0x02) = .next t := by
  refine ⟨⟨by decide, rfl, ?_, fun _ => ⟨rfl, rfl⟩, fun h => absurd rfl h, by decide, .inl ⟨rfl, rfl⟩⟩,
    is_next (by decide)⟩
  intro w h
  cases h
  rfl

theorem wit_FailedCommand : (ops 1 0).status.err = none ∧
    ∃ t, exec .gfDiv (ops 1 0) = .next t ∧ t.status.err ≠ none := ⟨rfl, next_of_check _ (by decide)⟩

theorem wit_CommandsRaiseOnlyTheirErrors : (ops 1559 0).status.err = none ∧
    ∃ t, exec .geoSelect (ops 1559 0) = .next t ∧ t.status.err = some .dataTooLong :=
  ⟨rfl, next_of_check _ (by decide)⟩

theorem wit_CommandsWriteOnly : ∃ t, exec .placeUnmap (geo 0 1 1 0) = .next t := is_next (by decide)

theorem wit_NoCommandReadsAFlag : (∃ t, exec .rsSyndrome (rs 1 1 [5]) = .next t) ∧
    ∃ f, exec .rsSyndrome (rs 2 1 [5]) = .fault f := ⟨is_next (by decide), _, rfl⟩

theorem wit_OperandsAreFrozen : (busyAsk 2 1 (.write 0x00008 1)).pending = some 2 ∧
    (busyAsk 2 1 (.write 0x00008 1)).status.busy = true ∧ (busyAsk 2 1 (.write 0x00008 1)).wait = 0 + 1 ∧
    (busyAsk 2 1 (.write 0x00008 1)).inputs.head? ≠ some .reset ∧
    ∃ t, step (busyAsk 2 1 (.write 0x00008 1)) = .next t := ⟨rfl, rfl, rfl, by decide, is_next (by decide)⟩

theorem wit_EveryAcceptedCommandCompletes : (busyAsk 2 3 .poll).pending = some 2 ∧
    (busyAsk 2 3 .poll).status.busy = true ∧
    (∀ x ∈ (busyAsk 2 3 .poll).inputs.take (busyAsk 2 3 .poll).wait, harmless x) ∧
    (busyAsk 2 3 .poll).inputs = .poll :: [] := by
  refine ⟨rfl, rfl, fun x hx => ?_, rfl⟩
  have : x = .poll := by simpa [busyAsk, State.accept] using hx
  subst this
  trivial

theorem wit_GfBytes : (ops 255 255).regs.opa.toNat ≤ 255 ∧ (ops 255 255).regs.opb.toNat ≤ 255 ∧
    (ops 255 255).regs.opb ≠ 0 ∧ 255 < (ops 256 0).regs.opa.toNat ∧ 255 < (ops 0 256).regs.opb.toNat ∧
    (ops 0 0).regs.opa.toNat ≤ 255 ∧ (ops 0 0).regs.opb = 0 ∧
    (ops 255 255).regs.opa = (ops 255 255).regs.opb ∧ (ops 1 2).regs.opa = 1 ∧ (ops 1 2).regs.opb = 2 := by
  decide

theorem wit_GfPow : (ops 255 0xFFFFFFFF).regs.opa.toNat ≤ 255 ∧ 255 < (ops 256 0).regs.opa.toNat := by
  decide

theorem wit_GfExp : (ops 511 0).regs.opa.toNat ≤ 511 ∧ 511 < (ops 512 0).regs.opa.toNat := by decide

theorem wit_GfLog : (ops 255 0).regs.opa ≠ 0 ∧ (ops 255 0).regs.opa.toNat ≤ 255 ∧
    (ops 0 0).regs.opa = 0 ∧ 255 < (ops 256 0).regs.opa.toNat := by decide

theorem wit_FieldLaws : (255 : Byte) ≠ 0 := by decide

theorem wit_RsGenpoly : 1 ≤ (rs 0 1 []).regs.nsym.toNat ∧ (rs 0 1023 []).regs.nsym.toNat ≤ 1023 ∧
    1 ≤ (rs 0 1023 []).regs.nsym.toNat ∧ (rs 0 0 []).regs.nsym.toNat = 0 ∧
    1023 < (rs 0 1024 []).regs.nsym.toNat := by decide

/-- The ends of the ranges of rs_check, on both sides. -/
theorem wit_RsRange : RsRange (rs 1 1 []) ∧ RsRange (rs 4096 1023 []) ∧ ¬ RsRange (rs 8 0 []) ∧
    ¬ RsRange (rs 4096 1024 []) ∧ ¬ RsRange (rs 4 5 []) ∧ ¬ RsRange (rs 4097 5 []) := by
  simp only [RsRange]
  decide

theorem wit_RsEncode : RsRange (rs 8 5 [142, 164, 186]) ∧ ([142, 164, 186] : List Byte).length =
    (rs 8 5 [142, 164, 186]).regs.len.toNat - (rs 8 5 [142, 164, 186]).regs.nsym.toNat ∧
    Holds (rs 8 5 [142, 164, 186]).mem.msg 0 [142, 164, 186] ∧
    RsRange (rs 1 1 []) ∧ ([] : List Byte).length = (rs 1 1 []).regs.len.toNat - (rs 1 1 []).regs.nsym.toNat ∧
    Holds (rs 1 1 []).mem.msg 0 [] :=
  ⟨by simp only [RsRange]; decide, by decide, holds_of_check _ _ (by decide), wit_RsRange.1, by decide,
    holds_of_check _ _ (by decide)⟩

theorem wit_RsSyndrome : RsRange (rs 8 5 scenario) ∧ scenario.length = (rs 8 5 scenario).regs.len.toNat ∧
    Holds (rs 8 5 scenario).mem.msg 0 scenario ∧ 7 < scenario.length ∧ syndrome scenario 5 = 0 :=
  ⟨by simp only [RsRange]; decide, by decide, holds_of_check _ _ (by decide), by decide, by decide⟩

/-- The discrepancy law past L, at both ends of its range for the two errors of 95_test_vectors.md section 4.5, and a
position past L. -/
theorem wit_LocatorGenerates : (bm [161, 149, 75, 126, 170]).l ≤ 2 ∧ (bm [161, 149, 75, 126, 170]).l ≤ 4 ∧
    4 < [161, 149, 75, 126, 170].length ∧ (bm [161, 149, 75, 126, 170]).l < 3 := by decide

theorem wit_RsLocator : 1 ≤ (syns 5 [128, 114, 219, 23, 178]).regs.nsym.toNat ∧
    (syns 5 [128, 114, 219, 23, 178]).regs.nsym.toNat ≤ 1023 ∧
    Holds (syns 5 [128, 114, 219, 23, 178]).mem.syn 0 [128, 114, 219, 23, 178] ∧
    (bm [128, 114, 219, 23, 178]).l ≤ 5 / 2 ∧
    Holds (syns 1 [3]).mem.syn 0 [3] ∧ (syns 1 [3]).regs.nsym.toNat / 2 < (bm [3]).l ∧
    (syns 0 []).regs.nsym.toNat = 0 ∧ 1023 < (syns 1024 []).regs.nsym.toNat ∧ (3 : Byte) ≠ 0 :=
  ⟨by decide, by decide, holds_of_check _ _ (by decide), by decide, holds_of_check _ _ (by decide),
    by decide, by decide, by decide, by decide⟩

/-- RS_CHIEN: the rule's example with one root, LEN = 0 with no root asked for and with one, and each range's end. -/
theorem wit_RsChien : (locs 8 1 [1, 128]).regs.len.toNat ≤ 4096 ∧
    (locs 8 1 [1, 128]).regs.nerr.toNat ≤ 1023 ∧
    ([1, 128] : List Byte).length = (locs 8 1 [1, 128]).regs.nerr.toNat + 1 ∧
    Holds (locs 8 1 [1, 128]).mem.loc 0 [1, 128] ∧
    ((List.range 8).filter (fun p => decide (pevalLo [1, 128] 1 (alphaInv (8 - 1 - p)) = 0))).length =
      (locs 8 1 [1, 128]).regs.nerr.toNat ∧
    (locs 0 0 []).regs.len.toNat = 0 ∧ (locs 0 0 []).regs.nerr.toNat = 0 ∧
    (locs 0 1 []).regs.len.toNat = 0 ∧ 0 ≠ (locs 0 1 []).regs.nerr.toNat ∧
    (locs 4096 1023 []).regs.len.toNat ≤ 4096 ∧ (locs 4096 1023 []).regs.nerr.toNat ≤ 1023 ∧
    4096 < (locs 4097 0 []).regs.len.toNat ∧ 1023 < (locs 0 1024 []).regs.nerr.toNat :=
  ⟨by decide, by decide, by decide, holds_of_check _ _ (by decide), by decide, by decide, by decide,
    by decide, by decide, by decide, by decide, by decide, by decide⟩

/-- RS_FORNEY: the rule's example (denominator not 0), the last position, a position at LEN, a zero denominator. -/
theorem wit_RsForney :
    (∀ k, k < 1 → (Buffer.read (forn [1, 128] [0]).mem.pos k).map BitVec.toNat = [0][k]?) ∧
    [0].length = (forn [1, 128] [0]).regs.nfound.toNat ∧
    (∀ p ∈ [0], p < (forn [1, 128] [0]).regs.len.toNat) ∧
    (∀ p ∈ [0], (Buffer.read (forn [1, 128] [0]).mem.msg p).isSome) ∧
    ([1, 128] : List Byte).length = (forn [1, 128] [0]).regs.nerr.toNat + 1 ∧
    Holds (forn [1, 128] [0]).mem.loc 0 [1, 128] ∧
    Holds (forn [1, 128] [0]).mem.eval 0 [128, 0, 0, 0, 0] ∧
    (∀ p ∈ [0], denominator [1, 128] 1 8 p ≠ 0) ∧
    (∃ p ∈ [0], denominator [1] 0 8 p = 0) ∧ Holds (forn [1] [0]).mem.loc 0 [1] ∧
    (∃ p ∈ [8], (forn [1, 128] [8]).regs.len.toNat ≤ p) ∧
    (∀ k, k < 1 → (Buffer.read (forn [1, 128] [8]).mem.pos k).map BitVec.toNat = [8][k]?) ∧
    (forn [1, 128] []).regs.nfound.toNat = 0 :=
  ⟨by decide, by decide, by decide, by decide, by decide, holds_of_check _ _ (by decide),
    holds_of_check _ _ (by decide), by decide, by decide, holds_of_check _ _ (by decide), by decide,
    by decide, by decide⟩

theorem wit_RsForney_ranges : (syns 0 []).regs.nsym.toNat = 0 ∧ 1023 < (syns 1024 []).regs.nsym.toNat ∧
    4096 < (locs 4097 0 []).regs.len.toNat ∧ 1023 < (locs 0 1024 []).regs.nerr.toNat ∧
    1024 < ({ State.reset with regs := { Regs.reset with nfound := 1025 } } : State).regs.nfound.toNat := by
  decide

/-- Scenario 3: scenario 1 with bit 0 of its first codeword flipped. -/
def wrong : List Byte := [143, 164, 186, 114, 25, 5, 88, 102]

theorem wrong_not_codeword : ¬ IsCodeword wrong 5 := not_codeword_of 1 (by decide) (by decide) (by decide)

/-- RS_CORRECT and RS_CORRECT_BITFLIP: an encoded message, a wrong one that is corrected, and one of one error
codeword that is not. -/
theorem wit_RsCorrect : RsRange (rs 8 5 wrong) ∧ Holds (rs 8 5 wrong).mem.msg 0 wrong ∧
    wrong.length = (rs 8 5 wrong).regs.len.toNat ∧ ¬ IsCodeword wrong 5 ∧
    IsCodeword scenario 5 ∧ Holds (rs 8 5 scenario).mem.msg 0 scenario ∧
    (∃ t, exec .rsCorrect (rs 8 5 wrong) = .next t ∧ t.status.err = none) ∧
    RsRange (rs 1 1 [3]) ∧ Holds (rs 1 1 [3]).mem.msg 0 [3] ∧ ¬ IsCodeword [3] 1 ∧
    ¬ (bm (syndromes [3] 1)).l ≤ 1 / 2 :=
  ⟨by simp only [RsRange]; decide, holds_of_check _ _ (by decide), by decide, wrong_not_codeword,
    codeword_of_check _ _ (by decide), holds_of_check _ _ (by decide), next_of_check _ (by decide),
    by simp only [RsRange]; decide, holds_of_check _ _ (by decide),
    not_codeword_of 1 (by decide) (by decide) (by decide), by decide⟩

/-- The validations of RS_CORRECT pass for scenario 3. -/
theorem wit_RsCorrect_valid : wrong.length ≤ 255 ∧ (bm (syndromes wrong 5)).l ≤ 5 / 2 ∧
    (chien (bm (syndromes wrong 5)).c (bm (syndromes wrong 5)).l 8).length = (bm (syndromes wrong 5)).l ∧
    (∀ p ∈ chien (bm (syndromes wrong 5)).c (bm (syndromes wrong 5)).l 8,
      denominator (bm (syndromes wrong 5)).c (bm (syndromes wrong 5)).l 8 p ≠ 0) ∧
    IsCodeword scenario 5 :=
  ⟨by decide, by decide, by decide, by decide, codeword_of_check _ _ (by decide)⟩

theorem wit_CorrectionIsSound : (rs 8 5 wrong).status.err = none ∧ RsRange (rs 8 5 wrong) ∧
    wrong.length = (rs 8 5 wrong).regs.len.toNat ∧ Holds (rs 8 5 wrong).mem.msg 0 wrong ∧
    ∃ t, exec .rsCorrect (rs 8 5 wrong) = .next t ∧ t.status.err = none :=
  ⟨rfl, wit_RsCorrect.1, by decide, wit_RsCorrect.2.1, wit_RsCorrect.2.2.2.2.2.2.1⟩

/-- Three zeros with NSYM = 2 are an encoded message; its last codeword is wrong by 255. -/
theorem wit_OneWrongCodeword : RsRange (rs 3 2 [0, 0, 255]) ∧ 2 ≤ (rs 3 2 [0, 0, 255]).regs.nsym.toNat ∧
    ([0, 0, 0] : List Byte).length = (rs 3 2 [0, 0, 255]).regs.len.toNat ∧ IsCodeword [0, 0, 0] 2 ∧
    2 < ([0, 0, 0] : List Byte).length ∧ (255 : Byte) ≠ 0 ∧
    Holds (rs 3 2 [0, 0, 255]).mem.msg 0 (([0, 0, 0] : List Byte).set 2 (([0, 0, 0] : List Byte).getD 2 0 ^^^ 255)) :=
  ⟨by simp only [RsRange]; decide, by decide, by decide, codeword_of_check _ _ (by decide), by decide,
    by decide, holds_of_check _ _ (by decide)⟩

/-- RS_CORRECT_BITFLIP: the first trial is the flip that works, and a message that no flip mends. -/
theorem wit_RsBitflip : ¬ IsCodeword wrong 5 ∧ 0 < wrong.length ∧
    IsCodeword (wrong.set 0 (wrong.getD 0 0 ^^^ (1#8 <<< 0))) 5 ∧
    (∀ p' b', p' < wrong.length → b' < 8 → (p' < 0 ∨ (p' = 0 ∧ b' < 0)) →
      ¬ IsCodeword (wrong.set p' (wrong.getD p' 0 ^^^ (1#8 <<< b'))) 5) ∧
    ¬ IsCodeword [3] 1 ∧
    ∀ p b, p < ([3] : List Byte).length → b < 8 →
      ¬ IsCodeword (([3] : List Byte).set p (([3] : List Byte).getD p 0 ^^^ (1#8 <<< b))) 1 := by
  refine ⟨wrong_not_codeword, by decide, codeword_of_check _ _ (by decide), ?_, ?_, ?_⟩
  · intro p' b' _ _ h
    omega
  · exact not_codeword_of 1 (by decide) (by decide) (by decide)
  · intro p b hp hb
    obtain rfl : p = 0 := by simpa using hp
    refine not_codeword_of 1 (by decide) (by decide) ?_
    interval_cases b <;> decide

theorem wit_MissingElements : RsRange (rs 8 5 [1, 2]) ∧ 2 < (rs 8 5 [1, 2]).regs.len.toNat - 5 ∧
    Buffer.read (rs 8 5 [1, 2]).mem.msg 2 = none ∧ 1 ≤ (syns 2 [1]).regs.nsym.toNat ∧
    Buffer.read (syns 2 [1]).mem.syn 1 = none ∧ 1 ≤ (locs 1 1 [1]).regs.len.toNat ∧
    1 ≤ (locs 1 1 [1]).regs.nerr.toNat ∧ Buffer.read (locs 1 1 [1]).mem.loc 1 = none ∧
    State.reset.regs.sizeIdx.toNat ≤ 29 ∧ 7 < (sizeAt 0).dataCw + (sizeAt 0).ecCw ∧
    Buffer.read State.reset.mem.msg 7 = none ∧ 63 < 8 * ((sizeAt 0).dataCw + (sizeAt 0).ecCw) ∧
    Buffer.read State.reset.mem.grid ((cellOf (sizeAt 0) 63).1 * 144 + (cellOf (sizeAt 0) 63).2) = none :=
  ⟨by simp only [RsRange]; decide, by decide, by decide, by decide, by decide, by decide, by decide,
    by decide, by decide, by decide, by decide, by decide, by decide⟩

/-- RS_FORNEY's registers in range, NFOUND = 1, and no element at all. -/
def fornBare : State :=
  { State.reset with regs := { Regs.reset with len := 1, nsym := 1, nfound := 1 } }

/-- The rule's example of RS_FORNEY with LOC and EVAL as given. -/
def fornWith (l w : Buffer 8) : State :=
  { forn [1, 128] [0] with mem := { (forn [1, 128] [0]).mem with loc := l, eval := w } }

/-- RS_FORNEY: POS[0] missing, MSG[1] missing, LOC[1] missing, and EVAL[4] missing after a denominator not 0. -/
theorem wit_MissingElements_forney :
    (1 ≤ fornBare.regs.nsym.toNat ∧ fornBare.regs.nsym.toNat ≤ 1023 ∧ fornBare.regs.len.toNat ≤ 4096 ∧
      fornBare.regs.nerr.toNat ≤ 1023 ∧ fornBare.regs.nfound.toNat ≤ 1024 ∧
      0 < fornBare.regs.nfound.toNat ∧ Buffer.read fornBare.mem.pos 0 = none ∧
      ∀ k v, k < fornBare.regs.nfound.toNat → Buffer.read fornBare.mem.pos k = some v →
        v.toNat < fornBare.regs.len.toNat) ∧
    ([1].length = (forn [1, 128] [1]).regs.nfound.toNat ∧
      (∀ k, k < [1].length → (Buffer.read (forn [1, 128] [1]).mem.pos k).map BitVec.toNat = [1][k]?) ∧
      (∀ p ∈ [1], p < (forn [1, 128] [1]).regs.len.toNat) ∧
      ∃ p ∈ [1], Buffer.read (forn [1, 128] [1]).mem.msg p = none) ∧
    ((∀ p ∈ [0], (Buffer.read (fornWith [(0, 1)] []).mem.msg p).isSome) ∧
      1 ≤ (fornWith [(0, 1)] []).regs.nerr.toNat ∧
      Buffer.read (fornWith [(0, 1)] []).mem.loc 1 = none) ∧
    Holds (fornWith [(0, 1), (1, 128)] []).mem.loc 0 [1, 128] ∧
    denominator [1, 128] 1 8 ([0].headD 0) ≠ 0 ∧ 4 < (fornWith [(0, 1), (1, 128)] []).regs.nsym.toNat ∧
    Buffer.read (fornWith [(0, 1), (1, 128)] []).mem.eval 4 = none :=
  ⟨⟨by decide, by decide, by decide, by decide, by decide, by decide, rfl, fun _ _ _ h => by cases h⟩,
    by decide, by decide, holds_of_check _ _ (by decide), by decide, by decide, rfl⟩

theorem wit_GeoSelect : (ops 0 0).regs.opa.toNat ≤ 1558 ∧ (ops 1558 0).regs.opa.toNat ≤ 1558 ∧
    1558 < (ops 1559 0).regs.opa.toNat := by decide

theorem wit_GeoLookup : (geo 0 144 144 0).regs.rows.toNat = (sizeAt 29).rows ∧
    (geo 0 144 144 0).regs.cols.toNat = (sizeAt 29).cols ∧
    ∀ i, i < 30 → ¬ ((geo 0 18 8 0).regs.rows.toNat = (sizeAt i).rows ∧
      (geo 0 18 8 0).regs.cols.toNat = (sizeAt i).cols) := by decide

/-- SIZE_IDX on both sides of its range, for GEO_INFO, GRID_INIT, GEO_CLASSIFY and the PLACE commands. -/
theorem wit_SizeIdx : (geo 29 0 0 0).regs.sizeIdx.toNat ≤ 29 ∧ 29 < (geo 30 0 0 0).regs.sizeIdx.toNat ∧
    sizeAt (geo 29 0 0 0).regs.sizeIdx.toNat = ⟨144, 144, 1558, 620⟩ := by decide

theorem wit_GeoClassify : (geo 0 9 9 0).regs.row.toNat < (sizeAt 0).rows ∧
    (geo 0 9 9 0).regs.col.toNat < (sizeAt 0).cols ∧ (sizeAt 0).rows ≤ (geo 0 10 0 0).regs.row.toNat ∧
    (sizeAt 0).cols ≤ (geo 0 0 10 0).regs.col.toNat := by decide

theorem wit_CellAndIndex : sizeAt 0 ∈ sizeTable ∧ 63 < (sizeAt 0).interior ∧
    cellOf (sizeAt 0) 63 = (1, 1) ∧ indexOf (sizeAt 0) 8 8 = 0 := by decide

theorem wit_PlaceWrite : placing.regs.sizeIdx.toNat ≤ 29 ∧
    scenario.length = (sizeAt placing.regs.sizeIdx.toNat).dataCw + (sizeAt placing.regs.sizeIdx.toNat).ecCw ∧
    Holds placing.mem.msg 0 scenario := ⟨by decide, by decide, holds_of_check _ _ (by decide)⟩

theorem wit_PlaceRead : placed.regs.sizeIdx.toNat ≤ 29 ∧ ∀ k, k < 64 →
    Buffer.read placed.mem.grid ((cellOf (sizeAt 0) k).1 * 144 + (cellOf (sizeAt 0) k).2) =
      some (BitVec.ofBool ((scenario.getD (k / 8) 0).getLsbD (7 - k % 8))) := by
  constructor <;> decide +kernel

theorem wit_PlaceReadUndoes : ∃ t, exec .placeWrite placing = .next t ∧
    ({ State.reset with mem := { Memory.reset with grid := t.mem.grid } } : State).regs.sizeIdx =
      placing.regs.sizeIdx := next_of_check _ (by decide)

/-- PLACE_MAP at the last bit of the budget and the first past it, for an entry with a full interior and for one without. -/
theorem wit_PlaceMap : (geo 0 0 0 63).regs.bitidx.toNat < min (8 * (3 + 5)) ((10 - 2) * (10 - 2)) ∧
    min (8 * (3 + 5)) ((10 - 2) * (10 - 2)) ≤ (geo 0 0 0 64).regs.bitidx.toNat ∧
    (geo 1 0 0 95).regs.bitidx.toNat < min (8 * (5 + 7)) ((12 - 2) * (12 - 2)) ∧
    min (8 * (5 + 7)) ((12 - 2) * (12 - 2)) ≤ (geo 1 0 0 96).regs.bitidx.toNat ∧
    sizeAt 0 = ⟨10, 10, 3, 5⟩ ∧ sizeAt 1 = ⟨12, 12, 5, 7⟩ := by decide

theorem wit_PlaceUnmap : 1 ≤ (geo 0 1 8 0).regs.row.toNat ∧
    (geo 0 1 8 0).regs.row.toNat ≤ (sizeAt 0).rows - 2 ∧ 1 ≤ (geo 0 1 8 0).regs.col.toNat ∧
    (geo 0 1 8 0).regs.col.toNat ≤ (sizeAt 0).cols - 2 ∧ (geo 0 0 8 0).regs.row.toNat < 1 ∧
    (sizeAt 0).rows - 2 < (geo 0 9 8 0).regs.row.toNat ∧ (geo 0 1 0 0).regs.col.toNat < 1 ∧
    (sizeAt 0).cols - 2 < (geo 0 1 9 0).regs.col.toNat := by decide

theorem wit_HostRoundTrip : State.reset.status.busy = false ∧ (∀ ch ∈ [40, 127], ch ≤ 127) ∧
    [40, 127].length + (if [40, 127].head? = some 40 then 1 else 0) ≤ 1558 ∧
    (∀ ch ∈ List.replicate 1559 65, ch ≤ 127) ∧ 1558 < (List.replicate 1559 65).length ∧
    (∃ ch ∈ [65, 128], 127 < ch) ∧
    ∀ e ∈ sizeTable, ¬ (2 ^ 32 + 10 = e.rows ∧ 10 = e.cols) :=
  ⟨rfl, by decide, by decide, fun ch h => by rw [List.eq_of_mem_replicate h]; decide,
    by rw [List.length_replicate]; omega, by decide, by decide⟩

end Sys2Proof.Tests
end

section
/-! SUPPORT. The host bus: every register and element is mapped at its own address, and what one host access does
while no command runs and while one waits (20_memory.md R71, R75; 70_reset_and_hazards.md R410, R411). -/

namespace Sys2Proof.Proofs

open Sys2Proof.Machine Sys2Proof.Safety Sys2Proof.Laws

/-! ### The address map -/

/-- No register lies above COL. -/
theorem regAt_of_gt {a : Nat} (h : 0x40 < a) : regAt a = none := by
  unfold regAt
  split
  case h_18 => rfl
  all_goals omega

/-- The ranges of R71 are aligned, lie above the registers and end inside the 20-bit address space. -/
theorem base_bounds (b : BufId) : b.base % 4 = 0 ∧ 0x40 < b.base ∧ b.base + 4 * b.cap ≤ 2 ^ 20 := by
  cases b <;> decide

/-- No two ranges of R71 overlap. -/
theorem ranges_disjoint (b c : BufId) :
    c ≠ b → c.base + 4 * c.cap ≤ b.base ∨ b.base + 4 * b.cap ≤ c.base := by
  cases b <;> cases c <;> decide

/-- At the byte address of an element of `b` only the range of `b` answers, and with that element. -/
theorem elemAt_elem (b c : BufId) {i : Nat} (hi : i < b.cap) :
    elemAt c (b.base + 4 * i) = if c = b then some (.elem b i) else none := by
  unfold elemAt
  split_ifs with hin hc hc
  · subst hc
    rw [show (c.base + 4 * i - c.base) / 4 = i by omega]
  · have := ranges_disjoint b c hc
    omega
  · subst hc
    omega
  · rfl

theorem elem_addr_toNat {b : BufId} {i : Nat} (hi : i < b.cap) :
    (Target.elem b i).addr.toNat = b.base + 4 * i := by
  obtain ⟨-, -, hend⟩ := base_bounds b
  exact (BitVec.toNat_ofNat ..).trans (Nat.mod_eq_of_lt (by omega))

@[simp] theorem targetAt_reg (r : RegId) : targetAt (BitVec.ofNat 20 r.offset) = some (.reg r) := by
  cases r <;> rfl

theorem targetAt_elem {b : BufId} {i : Nat} (hi : i < b.cap) :
    targetAt (Target.elem b i).addr = some (.elem b i) := by
  obtain ⟨halign, habove, -⟩ := base_bounds b
  unfold targetAt
  rw [elem_addr_toNat hi, if_neg (by omega), regAt_of_gt (by omega)]
  simp only [elemAt_elem b _ hi]
  cases b <;> rfl

/-- R71: the map names every existing register and element at its address. -/
theorem targetAt_addr {t : Target} (ht : validTarget t) : targetAt t.addr = some t := by
  cases t with
  | reg r => exact targetAt_reg r
  | elem b i => exact targetAt_elem ht

/-! ### One host access -/

theorem hostRead_idle_reg {s : State} (hb : s.status.busy = false) (r : RegId) :
    hostRead s (.reg r) = .ok (s.readReg r) := by
  cases r <;> simp [hostRead, hb, State.readReg]

theorem hostWrite_idle_reg {s : State} (hb : s.status.busy = false) (r : RegId) (v : Word) :
    hostWrite s (.reg r) v = s.writeReg r v := by
  simp [hostWrite, hb]

theorem hostWrite_idle_elem {s : State} (hb : s.status.busy = false) (b : BufId) (i : Nat) (v : Word) :
    hostWrite s (.elem b i) v = { s with mem := s.mem.setElem b i v } := by
  simp [hostWrite, hb]

theorem hostWrite_busy {s : State} (hb : s.status.busy = true) (t : Target) (v : Word) :
    hostWrite s t v = { s with status := s.status.setHaz } := by
  simp [hostWrite, hb]

/-- A write of a mapped address is acknowledged, and does what `hostWrite` says. -/
theorem hostStep_write {s : State} {a : Addr} {t : Target} {v : Word} {rest : List Input}
    (hi : s.inputs = .write a v :: rest) (ht : targetAt a = some t) :
    hostStep s =
      .next { hostWrite s t v with inputs := rest, replies := .writeOk a :: s.replies } := by
  simp [hostStep, hi, ht]

/-- A read of a mapped address that has a value answers it and changes nothing else. -/
theorem hostStep_read {s : State} {a : Addr} {t : Target} {v : Word} {rest : List Input}
    (hi : s.inputs = .read a :: rest) (ht : targetAt a = some t) (hv : hostRead s t = .ok v) :
    hostStep s = .next { s with inputs := rest, replies := .readOk a v :: s.replies } := by
  simp [hostStep, hi, ht, hv]

/-- A host write of a register while nothing runs. -/
theorem step_idle_writeReg {s : State} {r : RegId} {v : Word} {rest : List Input}
    (hp : s.pending = none) (hb : s.status.busy = false)
    (hi : s.inputs = .write (BitVec.ofNat 20 r.offset) v :: rest) :
    step s = .next { s.writeReg r v with
      inputs := rest, replies := .writeOk (BitVec.ofNat 20 r.offset) :: s.replies } := by
  rw [step_pending_none hp, hostStep_write hi (targetAt_reg r), hostWrite_idle_reg hb]

/-- A host read of a register while nothing runs. -/
theorem step_idle_readReg {s : State} {r : RegId} {rest : List Input}
    (hp : s.pending = none) (hb : s.status.busy = false)
    (hi : s.inputs = .read (BitVec.ofNat 20 r.offset) :: rest) :
    step s = .next { s with
      inputs := rest
      replies := .readOk (BitVec.ofNat 20 r.offset) (s.readReg r) :: s.replies } := by
  rw [step_pending_none hp, hostStep_read hi (targetAt_reg r) (hostRead_idle_reg hb r)]

/-- A host write of an element while nothing runs. -/
theorem step_idle_writeElem {s : State} {b : BufId} {i : Nat} {v : Word} {rest : List Input}
    (hp : s.pending = none) (hb : s.status.busy = false) (hcap : i < b.cap)
    (hi : s.inputs = .write (Target.elem b i).addr v :: rest) :
    step s = .next { s with
      mem := s.mem.setElem b i v
      inputs := rest
      replies := .writeOk (Target.elem b i).addr :: s.replies } := by
  rw [step_pending_none hp, hostStep_write hi (targetAt_elem hcap), hostWrite_idle_elem hb]

/-- R410: a host write before the engine's step is dropped, and sets HAZ. -/
theorem step_waiting_write {s : State} {w : Word} {k : Nat} {t : Target} {v : Word} {rest : List Input}
    (hp : s.pending = some w) (hb : s.status.busy = true) (hw : s.wait = k + 1) (ht : validTarget t)
    (hi : s.inputs = .write t.addr v :: rest) :
    step s = .next { s with
      status := s.status.setHaz
      wait := k
      inputs := rest
      replies := .writeOk t.addr :: s.replies } := by
  rw [step_waiting hp hw, hostStep_write (s := { s with wait := k }) hi (targetAt_addr ht),
    hostWrite_busy (s := { s with wait := k }) hb]

/-! ### What a register write leaves -/

/-- A register write that starts no command touches neither the memories nor the pending command. -/
theorem writeReg_frame (s : State) {r : RegId} (v : Word) (hr : r ≠ .cmd) :
    (s.writeReg r v).mem = s.mem ∧ (s.writeReg r v).pending = s.pending := by
  cases r with
  | cmd => exact absurd rfl hr
  | _ => exact ⟨rfl, rfl⟩

theorem readReg_writeReg_other (s : State) {r q : RegId} (v : Word) (hr : r ≠ .cmd) (hq : q ≠ r) :
    (s.writeReg r v).readReg q = s.readReg q := by
  have hif : (s.writeReg r v).readReg q =
      if q = r then (s.writeReg r v).readReg r else s.readReg q := by
    cases r with
    | cmd => exact absurd rfl hr
    | _ => cases q <;> rfl
  rw [hif, if_neg hq]

/-- R42: a write of a read-only register has no effect. -/
theorem writeReg_readOnly (s : State) {r : RegId} (v : Word)
    (hr : r = .result ∨ r = .dataCw ∨ r = .ecCw) : s.writeReg r v = s := by
  rcases hr with rfl | rfl | rfl <;> rfl

/-- R33: a write of STATUS clears HAZ where bit 4 of the word is 1. -/
theorem status_writeReg_status (s : State) (v : Word) :
    (s.writeReg .status v).status = { s.status with haz := s.status.haz && !v.getLsbD 4 } :=
  status_hostWrite v s.status

/-- R41: a read-write register holds all 32 bits written, and no flag changes. -/
theorem writeReg_readWrite (s : State) {r : RegId} (v : Word) (hcmd : r ≠ .cmd)
    (hr : r ≠ .result ∧ r ≠ .dataCw ∧ r ≠ .ecCw ∧ r ≠ .status) :
    (s.writeReg r v).readReg r = v ∧ (s.writeReg r v).status = s.status := by
  obtain ⟨hresult, hdata, hec, hstatus⟩ := hr
  cases r with
  | cmd | status | result | dataCw | ecCw => contradiction
  | _ => exact ⟨rfl, rfl⟩

/-- The operations still to come and the answers given are no part of what a register reads. -/
@[simp] theorem readReg_with_inputs_replies (s : State) (is : List Input) (rs : List Reply) (q : RegId) :
    ({ s with inputs := is, replies := rs } : State).readReg q = s.readReg q := by
  cases q <;> rfl

/-! ### What an element write leaves -/

/-- Cutting a word to `w` bits and extending it again is reducing it modulo 2^w. -/
theorem setWidth_setWidth_eq_mod (v : Word) (w : Nat) :
    (v.setWidth w).setWidth 32 = BitVec.ofNat 32 (v.toNat % 2 ^ w) := by
  rw [← BitVec.ofNat_toNat, BitVec.toNat_setWidth]

/-- R44: the element written reads as the word modulo 2^W. -/
theorem elem_setElem_same (m : Memory) (b : BufId) (i : Nat) (v : Word) :
    (m.setElem b i v).elem b i =
      some (BitVec.ofNat 32
        (v.toNat % 2 ^ (if b = .pos then 16 else if b = .grid then 1 else 8))) := by
  rw [elem_setElem, if_pos ⟨rfl, rfl⟩]
  cases b <;> exact congrArg some (setWidth_setWidth_eq_mod v _)

theorem elem_setElem_other (m : Memory) {b c : BufId} {i j : Nat} (v : Word) (h : c ≠ b ∨ j ≠ i) :
    (m.setElem b i v).elem c j = m.elem c j := by
  rw [elem_setElem, if_neg (by tauto)]

end Sys2Proof.Proofs
end

section
/-! SUPPORT. The statements about host writes of CMD, of elements and of the other registers (10_state.md). -/

namespace Sys2Proof.Proofs

open Sys2Proof.Machine Sys2Proof.Safety Sys2Proof.Laws

/-- Settles O5: an idle write is `State.accept` with the latency the model draws, a write while the command waits only
sets HAZ, and an idle read answers the register. -/
theorem cmdWriteStartsTheCommand : Obligations.CmdWriteStartsTheCommand := by
  refine ⟨?accepted, ?dropped, ?read⟩
  case accepted =>
    intro s v rest hp hb hi
    exact ⟨_, Config.execDelay s.accepted, step_idle_writeReg (r := .cmd) hp hb hi, rfl⟩
  case dropped =>
    intro s w v k rest hp hb hw hi
    exact ⟨_, step_waiting_write (t := .reg .cmd) hp hb hw trivial hi, rfl, hp, rfl⟩
  case read =>
    intro s rest hp hb hi
    exact ⟨_, step_idle_readReg (r := .cmd) hp hb hi, rfl⟩

/-- Settles O10: the element's address names the element, and `Memory.setElem` cuts the word to its width. -/
theorem elementWriteStoresTheLowBits : Obligations.ElementWriteStoresTheLowBits := by
  intro s b i v rest hp hb hcap hi
  exact ⟨_, step_idle_writeElem hp hb hcap hi, elem_setElem_same s.mem b i v,
    fun _ _ h => elem_setElem_other s.mem v h, rfl⟩

/-- Settles O12: the step is one `State.writeReg`, which treats the three kinds of register apart. -/
theorem registerWritesFollowTheirAccess : Obligations.RegisterWritesFollowTheirAccess := by
  intro s r v rest hp hb hcmd hi
  obtain ⟨hmem, hpending⟩ := writeReg_frame s v hcmd
  refine ⟨_, step_idle_writeReg hp hb hi, hmem, hpending.trans hp, rfl, rfl, ?other, ?readOnly, ?status,
    ?readWrite⟩
  case other =>
    intro q hq
    rw [readReg_with_inputs_replies, readReg_writeReg_other s v hcmd hq]
  case readOnly =>
    intro hr
    rw [readReg_with_inputs_replies, writeReg_readOnly s v hr]
  case status =>
    rintro rfl
    exact status_writeReg_status s v
  case readWrite =>
    intro hr
    rw [readReg_with_inputs_replies]
    exact writeReg_readWrite s v hcmd hr

end Sys2Proof.Proofs
end

section
/-! SUPPORT. The address map read from an address to what it names, and a host access of an address that names
nothing (20_memory.md R71 to R74). -/

namespace Sys2Proof.Proofs

open Sys2Proof.Machine Sys2Proof.Safety Sys2Proof.Laws

/-! ### What a mapped address names -/

theorem eq_offset_of_regAt {a : Nat} {r : RegId} (h : regAt a = some r) : a = r.offset := by
  unfold regAt at h
  split at h <;> cases h <;> rfl

/-- An aligned address that a range of R71 answers is the address of one of its elements. -/
theorem elem_of_elemAt {b : BufId} {a : Nat} {t : Target} (h : elemAt b a = some t) (ha : a % 4 = 0) :
    ∃ i < b.cap, t = .elem b i ∧ a = b.base + 4 * i := by
  unfold elemAt at h
  split at h
  case isTrue hin =>
    obtain ⟨halign, -, -⟩ := base_bounds b
    exact ⟨(a - b.base) / 4, by omega, (Option.some.inj h).symm, by omega⟩
  case isFalse => cases h

/-- R72: the map holds word addresses only. -/
theorem targetAt_misaligned {a : Addr} (ha : a.toNat % 4 ≠ 0) : targetAt a = none := by
  rw [targetAt, if_pos ha]

/-- R71: a mapped address is the address of the register or existing element it names. -/
theorem eq_addr_of_targetAt {a : Addr} {t : Target} (h : targetAt a = some t) :
    a = t.addr ∧ validTarget t := by
  by_cases ha : a.toNat % 4 = 0
  case neg => cases (targetAt_misaligned ha).symm.trans h
  rw [targetAt, if_neg (not_not.mpr ha)] at h
  cases hr : regAt a.toNat with
  | some r =>
    rw [hr] at h
    cases h
    exact ⟨BitVec.eq_of_toNat_eq (by cases r <;> exact eq_offset_of_regAt hr), trivial⟩
  | none =>
    rw [hr] at h
    obtain ⟨b, -, hb⟩ := List.exists_of_findSome?_eq_some h
    obtain ⟨i, hi, rfl, hai⟩ := elem_of_elemAt hb ha
    exact ⟨BitVec.eq_of_toNat_eq (hai.trans (elem_addr_toNat hi).symm), hi⟩

/-- R73: an address of no register and of no existing element is unmapped. -/
theorem targetAt_unmapped {a : Addr} (ha : ∀ t, validTarget t → a ≠ t.addr) : targetAt a = none := by
  refine Option.eq_none_iff_forall_ne_some.mpr fun t ht => ?_
  obtain ⟨haddr, hvalid⟩ := eq_addr_of_targetAt ht
  exact ha t hvalid haddr

theorem gridIndex_lt_cap {r c : Nat} (hr : r < 144) (hc : c < 144) : gridIndex r c < BufId.grid.cap := by
  simp only [gridIndex, BufId.cap, Config.gridDim]
  omega

/-! ### An access of an unmapped address -/

/-- R74: a host access of an unmapped address is a bus error at that address, whatever BUSY is. -/
theorem hostStep_unmapped {s : State} {a : Addr} {rest : List Input} (ha : targetAt a = none)
    (hi : s.inputs = .read a :: rest ∨ ∃ v, s.inputs = .write a v :: rest) :
    hostStep s = .fault (.busError a) := by
  rcases hi with hi | ⟨v, hi⟩ <;> simp [hostStep, hi, ha]

/-- Until the engine's step is due, a step is the host's, with the latency that is left. -/
theorem step_eq_hostStep {s : State} (h : s.pending = none ∨ ∃ k, s.wait = k + 1) :
    ∃ k, step s = hostStep { s with wait := k } := by
  rcases Option.eq_none_or_eq_some s.pending with hp | ⟨w, hp⟩
  · exact ⟨s.wait, step_pending_none hp⟩
  · obtain ⟨k, hk⟩ := h.resolve_left (by simp [hp])
    exact ⟨k, step_waiting hp hk⟩

/-! ### The statements about the address map and bus errors -/

/-- Settles O8: the registers' offsets are the table's, each element of a range answers its own address, and a mapped
address determines what it names. -/
theorem addressMapIsTheSpecsTable : Obligations.AddressMapIsTheSpecsTable := by
  refine ⟨?registers, fun _ => targetAt_elem (b := .msg), fun _ => targetAt_elem (b := .gen),
    fun _ => targetAt_elem (b := .syn), fun _ => targetAt_elem (b := .loc), fun _ => targetAt_elem (b := .eval),
    fun _ => targetAt_elem (b := .pos), fun _ => targetAt_elem (b := .mag), ?grid,
    fun _ _ => eq_addr_of_targetAt⟩
  case registers =>
    intro p hp
    have haddr : p.1 = (Target.reg p.2).addr := by
      revert p
      decide
    exact ⟨haddr ▸ targetAt_reg p.2, haddr.symm⟩
  case grid => exact fun r hr c hc => targetAt_elem (gridIndex_lt_cap hr hc)

/-- Settles O9: a misaligned or unmapped address names nothing, and the step is the host's access of it. -/
theorem unmappedAccessIsABusError : Obligations.UnmappedAccessIsABusError := by
  intro s a rest hhost ha hi
  have hnone : targetAt a = none := ha.elim targetAt_misaligned targetAt_unmapped
  obtain ⟨k, hk⟩ := step_eq_hostStep hhost
  rw [hk]
  exact hostStep_unmapped (s := { s with wait := k }) hnone hi

end Sys2Proof.Proofs
end

section
/-! SUPPORT. The illegal words of R103 are the words the decoder refuses, and a word that decodes is the encoding of
its command (30_encoding.md R100 to R103). -/

namespace Sys2Proof.Proofs

open Sys2Proof.Machine Sys2Proof.Safety Sys2Proof.Laws

/-! ### The opcode byte -/

theorem opcode_of_decodeOp {op : Nat} {i : Instr} (h : decodeOp op = some i) : (opcode i).toNat = op := by
  unfold decodeOp at h
  split at h <;> cases h <;> rfl

/-- R103: the opcodes outside the map of R102 are the values of these four ranges. -/
theorem decodeOp_eq_none_iff {op : Nat} :
    decodeOp op = none ↔
      (0x07 ≤ op ∧ op ≤ 0x0F) ∨ (0x18 ≤ op ∧ op ≤ 0x1F) ∨ (0x25 ≤ op ∧ op ≤ 0x2F) ∨ 0x34 ≤ op := by
  unfold decodeOp
  split
  case h_25 =>
    simp only [true_iff, imp_false] at *
    omega
  all_goals decide

/-! ### The command word -/

/-- R100: a command word is its reserved field followed by its opcode byte. -/
theorem reserved_append_opcodeByte (w : Word) : w.extractLsb' 8 24 ++ w.extractLsb' 0 8 = w := by
  rw [BitVec.extractLsb'_append_extractLsb'_eq_extractLsb' (by rfl)]
  simp

/-- R101: a word that decodes is the encoding of its command. -/
theorem eq_encode_of_decode {w : Word} {i : Instr} (h : decode w = .ok i) : w = encode i := by
  unfold decode at h
  split_ifs at h with hrsv
  split at h
  case h_1 j hop =>
    cases h
    have hbyte : w.extractLsb' 0 8 = opcode i := BitVec.eq_of_toNat_eq (opcode_of_decodeOp hop).symm
    rw [encode, ← not_not.mp hrsv, ← hbyte, reserved_append_opcodeByte]
  case h_2 => cases h

/-- R103: the decoder refuses exactly the words with a reserved bit set or an unassigned opcode. -/
theorem exists_decode_error_iff {w : Word} :
    (∃ e, decode w = .error e) ↔
      w.extractLsb' 8 24 ≠ 0#24 ∨ decodeOp (w.extractLsb' 0 8).toNat = none := by
  unfold decode
  split_ifs with hrsv
  case pos => simp [hrsv]
  case neg => cases decodeOp (w.extractLsb' 0 8).toNat <;> simp [hrsv]

/-! ### The engine's step of a word -/

/-- R101: a pending word that is refused ends with ILLEGAL_COMMAND. -/
theorem step_illegal {s : State} {w : Word} (hp : s.pending = some w) (hw : s.wait = 0)
    (h : ∃ e, decode w = .error e) : step s = .next (afterError s .illegalCommand) := by
  obtain ⟨e, he⟩ := h
  rw [step_engine hp hw]
  rcases engineStep_cases w s with ⟨i, hi, -⟩ | ⟨-, -, hstep⟩
  · cases hi.symm.trans he
  · exact hstep

/-- A pending word that is not refused encodes the command that the engine runs. -/
theorem step_legal {s : State} {w : Word} (hp : s.pending = some w) (hw : s.wait = 0)
    (h : ¬ ∃ e, decode w = .error e) : ∃ i, w = encode i ∧ step s = exec i s := by
  rw [step_engine hp hw]
  rcases engineStep_cases w s with ⟨i, hi, hstep⟩ | ⟨e, he, -⟩
  · exact ⟨i, eq_encode_of_decode hi, hstep⟩
  · exact absurd ⟨e, he⟩ h

/-! ### The statements about the command words -/

/-- Settles O3: R103's ranges are the words the decoder refuses. -/
theorem illegalWordsRaiseIllegalCommand : Obligations.IllegalWordsRaiseIllegalCommand := by
  intro s w hp hw
  simp only [← decodeOp_eq_none_iff, ← exists_decode_error_iff]
  exact ⟨step_illegal hp hw, step_legal hp hw⟩

/-- Settles O1: the 24 rows and the two refused words, each decoded by evaluation. -/
theorem specWordsDecodeToTheirCommands : Obligations.SpecWordsDecodeToTheirCommands :=
  ⟨by decide, rfl, rfl⟩

end Sys2Proof.Proofs
end

section
/-! SUPPORT. The statements about the GF commands and the ROMs they read (40_gf256.md R130 to R145). -/

namespace Sys2Proof.Proofs

open Sys2Proof.Machine Sys2Proof.Safety Sys2Proof.Laws

/-! ### How a command ends -/

theorem runCommand_setResult (s : State) (v : Word) :
    runCommand s (.ok (s.setResult v)) =
      .next (afterSuccess s { s.regs with result := v } s.status s.mem) := rfl

theorem runCommand_raise_eq_afterError (s : State) (k : ErrorKind) :
    runCommand s (.error (.raise k)) = .next (afterError s k) := rfl

/-! ### Operands -/

theorem raiseIf_of_true {c : Bool} (h : c = true) (k : ErrorKind) : raiseIf c k = .error (.raise k) := by
  rw [raiseIf_cases, if_pos h]

theorem raiseIf_of_false {c : Bool} (h : c = false) (k : ErrorKind) : raiseIf c k = .ok () := by
  rw [raiseIf_cases, if_neg (by simp [h])]

/-- Two field-element operands in range are their low bytes (R140 to R142). -/
theorem byteOperands_ok {α : Type} {a b : Word} (ha : a.toNat ≤ 255) (hb : b.toNat ≤ 255)
    (f : Byte → Byte → Except Stop α) :
    (byteOperand a >>= fun x => byteOperand b >>= fun y => f x y) = f (a.setWidth 8) (b.setWidth 8) := by
  rw [byteOperand_ok ha, ok_bind, byteOperand_ok hb, ok_bind]

/-- Of two field-element operands one above 255 raises BAD_PARAMETER, whatever is done with them. -/
theorem byteOperands_bad {α : Type} {a b : Word} (h : 255 < a.toNat ∨ 255 < b.toNat)
    (f : Byte → Byte → Except Stop α) :
    (byteOperand a >>= fun x => byteOperand b >>= fun y => f x y) = .error (.raise .badParameter) := by
  by_cases ha : 255 < a.toNat
  · rw [byteOperand_bad ha, error_bind]
  · rw [byteOperand_ok (by omega), ok_bind, byteOperand_bad (h.resolve_left ha), error_bind]

theorem setWidth_setWidth_of_le {a : Word} (ha : a.toNat ≤ 255) : (a.setWidth 8).setWidth 32 = a := by
  rw [setWidth_setWidth_eq_mod, Nat.mod_eq_of_lt (by omega), BitVec.ofNat_toNat, BitVec.setWidth_eq]

theorem setWidth_eq_zero_iff {a : Word} (ha : a.toNat ≤ 255) : a.setWidth 8 = 0 ↔ a = 0 := by
  constructor
  · intro h
    rw [← setWidth_setWidth_of_le ha, h]
    rfl
  · rintro rfl
    rfl

/-! ### The field functions -/

theorem gadd_setWidth {a b : Word} (ha : a.toNat ≤ 255) (hb : b.toNat ≤ 255) :
    (gadd (a.setWidth 8) (b.setWidth 8)).setWidth 32 = a ^^^ b := by
  rw [gadd, BitVec.setWidth_xor, setWidth_setWidth_of_le ha, setWidth_setWidth_of_le hb]

theorem glog_one : glog 1 = 0 := by decide

theorem gmul_comm (a b : Byte) : gmul a b = gmul b a := by
  simp only [gmul, or_comm, Nat.add_comm]

@[simp] theorem gmul_one (a : Byte) : gmul a 1 = a := by
  by_cases ha : a = 0
  · rw [ha, zero_gmul]
  · rw [gmul_of_ne ha (by decide), glog_one, Nat.add_zero, Nat.mod_eq_of_lt (glog_lt a), gexp_glog ha]

@[simp] theorem one_gmul (a : Byte) : gmul 1 a = a := by
  rw [gmul_comm, gmul_one]

theorem gdiv_of_ne (a : Byte) {b : Byte} (hb : b ≠ 0) : gdiv a b = .ok (gquot a b) := by
  rw [gdiv, if_neg hb]

theorem gdiv_zero (a : Byte) : gdiv a 0 = .error (.raise .divisionByZero) := rfl

/-- R136 read on the operand words: the zero dividend is the zero word. -/
theorem gquot_setWidth {a : Word} (b : Word) (ha : a.toNat ≤ 255) :
    gquot (a.setWidth 8) (b.setWidth 8) =
      if a = 0 then 0 else gexp ((glog (a.setWidth 8) + 255 - glog (b.setWidth 8)) % 255) := by
  simp only [gquot, setWidth_eq_zero_iff ha]

theorem gquot_self {a : Byte} (ha : a ≠ 0) : gquot a a = 1 := by
  rw [gquot, if_neg ha, Nat.add_sub_cancel_left, Nat.mod_self, gexp_zero]

theorem gpow_of_ne {a : Byte} (ha : a ≠ 0) (n : Nat) : gpow a n = gexp (glog a * n % 255) := by
  rw [gpow, if_neg ha]

theorem zero_gpow {n : Nat} (hn : n ≠ 0) : gpow 0 n = 0 := by
  rw [gpow, if_pos rfl, if_neg hn]

@[simp] theorem gpow_zero (a : Byte) : gpow a 0 = 1 := by
  by_cases ha : a = 0
  · rw [gpow, if_pos ha, if_pos rfl]
  · rw [gpow_of_ne ha, Nat.mul_zero, Nat.zero_mod, gexp_zero]

/-! ### The ROMs -/

/-- A product with x that overflows the byte fits in it again after the reduction: 0x12D clears bit 8. -/
theorem xor_primPoly_lt {y : Nat} (hlow : 256 ≤ y) (hhigh : y < 512) : y ^^^ Config.primPoly < 256 := by
  have hbit : (y ^^^ Config.primPoly) / 256 = 0 := by
    rw [show 256 = 2 ^ 8 from rfl, Nat.xor_div_two_pow, show y / 2 ^ 8 = 1 by omega]
    rfl
  omega

/-- R131's step as a number: shift left, and reduce by 0x12D if bit 8 is set. -/
theorem xtime_toNat (x : Byte) :
    (xtime x).toNat = if x.toNat * 2 ≥ 256 then x.toNat * 2 ^^^ 0x12D else x.toNat * 2 := by
  rw [xtime, BitVec.toNat_ofNat]
  refine Nat.mod_eq_of_lt ?_
  split_ifs with h
  · exact xor_primPoly_lt h (by omega)
  · omega

/-- R131: the indices 255..510 mirror 0..255. -/
theorem gexp_mirror {i : Nat} (hlow : 255 ≤ i) (hhigh : i ≤ 510) : gexp i = gexp (i - 255) := by
  rw [gexp_mod i (by omega), gexp_mod (i - 255) (by omega), Nat.mod_eq_sub_mod hlow]

/-! ### The statements about the GF commands and the ROMs -/

/-- Settles O27: the two byte operands, then `gmul`; its corner cases are the zero and unit laws. -/
theorem gfMulWritesTheProduct : Obligations.GfMulWritesTheProduct := by
  refine ⟨rfl, ?product, ?range, fun a => ⟨gmul_zero a, zero_gmul a, gmul_one a, one_gmul a⟩,
    by decide, by decide⟩
  case product =>
    intro s ha hb
    rw [exec, execGfMul, byteOperands_ok ha hb, runCommand_setResult]
  case range =>
    intro s h
    rw [exec, execGfMul, byteOperands_bad h, runCommand_raise_eq_afterError]

/-- Settles O28: the ranges are checked before `gdiv`, which tests the divisor before it divides. -/
theorem gfDivWritesTheQuotient : Obligations.GfDivWritesTheQuotient := by
  refine ⟨rfl, ?quotient, ?range, ?divisor⟩
  case quotient =>
    intro s ha hb hb0
    have hdivisor : s.regs.opb.setWidth 8 ≠ 0 := mt (setWidth_eq_zero_iff hb).1 hb0
    refine ⟨gquot (s.regs.opa.setWidth 8) (s.regs.opb.setWidth 8), gquot_setWidth _ ha, ?same, ?half, ?run⟩
    case same =>
      intro hab
      rw [hab, gquot_self hdivisor]
    case half =>
      intro h1 h2
      rw [h1, h2]
      decide
    case run =>
      rw [exec, execGfDiv, byteOperands_ok ha hb, gdiv_of_ne _ hdivisor, ok_bind, runCommand_setResult]
  case range =>
    intro s h
    rw [exec, execGfDiv, byteOperands_bad h, runCommand_raise_eq_afterError]
  case divisor =>
    intro s ha hb0
    have hzero : s.regs.opb.setWidth 8 = 0 := by rw [hb0]; rfl
    rw [exec, execGfDiv, byteOperands_ok ha (by simp [hb0]), hzero, gdiv_zero, error_bind,
      runCommand_raise_eq_afterError]

/-- Settles O29: one byte operand, then `gpow` with all of OPB. -/
theorem gfPowWritesThePower : Obligations.GfPowWritesThePower := by
  refine ⟨rfl, ?power, ?range, gpow_zero, fun n hn => zero_gpow (by omega), fun a n ha => gpow_of_ne ha n,
    by decide, by decide, by decide, by decide⟩
  case power =>
    intro s ha
    rw [exec, execGfPow, byteOperand_ok ha, ok_bind, runCommand_setResult]
  case range =>
    intro s ha
    rw [exec, execGfPow, byteOperand_bad ha, error_bind, runCommand_raise_eq_afterError]

/-- Settles O26: the xor of the low bytes of two operands in range is the xor of the words. -/
theorem gfAddWritesTheSum : Obligations.GfAddWritesTheSum := by
  refine ⟨rfl, ?sum, ?range⟩
  case sum =>
    intro s ha hb
    rw [exec, execGfAdd, byteOperands_ok ha hb, runCommand_setResult, gadd_setWidth ha hb]
  case range =>
    intro s h
    rw [exec, execGfAdd, byteOperands_bad h, runCommand_raise_eq_afterError]

/-- Settles O30: the range check, then the ROM. -/
theorem gfExpReadsTheTable : Obligations.GfExpReadsTheTable := by
  refine ⟨rfl, ?entry, ?range, gexp_zero, by decide, by decide, by decide⟩
  case entry =>
    intro s hi
    rw [exec, execGfExp, raiseIf_of_false (by simpa using hi), ok_bind, runCommand_setResult]
  case range =>
    intro s hi
    rw [exec, execGfExp, raiseIf_of_true (by simpa using hi), error_bind, runCommand_raise_eq_afterError]

/-- Settles O31: the range check, which excludes 0, then the ROM. -/
theorem gfLogReadsTheTable : Obligations.GfLogReadsTheTable := by
  refine ⟨rfl, ?entry, ?range, glog_one, by decide, by decide⟩
  case entry =>
    intro s h0 ha
    have hpos : s.regs.opa.toNat ≠ 0 := fun h => h0 (BitVec.eq_of_toNat_eq h)
    rw [exec, execGfLog, raiseIf_of_false (by simp [hpos, ha]), ok_bind, runCommand_setResult]
  case range =>
    intro s h
    have hbad : s.regs.opa.toNat = 0 ∨ 255 < s.regs.opa.toNat := h.imp_left (congrArg BitVec.toNat)
    rw [exec, execGfLog, raiseIf_of_true (by simpa using hbad), error_bind, runCommand_raise_eq_afterError]

/-- Settles O32: each entry is `xtime` of the one before it, and EXP repeats with period 255. -/
theorem romsAreTheConstruction : Obligations.RomsAreTheConstruction := by
  refine ⟨gexp_zero, ?step, glog_gexp, fun i => gexp_mirror, gexp_mod 511 (by decide), glog_zero⟩
  case step =>
    intro i hi
    rw [gexp_succ i hi, xtime_toNat]

end Sys2Proof.Proofs
end

section
/-! SUPPORT. The laws of the field product that the Reed-Solomon functions rest on: multiplication by α^e is `e` steps
of R131's construction, which is additive (40_gf256.md R131, R135, R138, R139). -/

namespace Sys2Proof.Proofs

open Sys2Proof.Machine Sys2Proof.Safety Sys2Proof.Laws

/-! ### Multiplication by x -/

/-- R130 on bits: shift left, and xor with the low byte of 0x12D if bit 7 goes out. -/
theorem xtime_eq_shiftLeft : ∀ x : Byte, xtime x = x <<< 1 ^^^ (if x.msb then 0x2D else 0) := by
  decide +kernel

@[simp] theorem xtime_zero : xtime 0 = 0 := by decide

theorem xtime_xor (x y : Byte) : xtime (x ^^^ y) = xtime x ^^^ xtime y := by
  have hreduce : ∀ b c : Bool, (if b ^^ c then 0x2D else 0 : Byte) =
      (if b then 0x2D else 0) ^^^ (if c then 0x2D else 0) := by decide
  simp only [xtime_eq_shiftLeft, BitVec.shiftLeft_xor_distrib, BitVec.msb_xor, hreduce]
  ac_rfl

theorem iterate_xtime_xor (n : Nat) (x y : Byte) : xtime^[n] (x ^^^ y) = xtime^[n] x ^^^ xtime^[n] y := by
  induction n with
  | zero => rfl
  | succ n ih => simp only [Function.iterate_succ_apply', ih, xtime_xor]

/-! ### Powers of α -/

@[simp] theorem alphaPow_zero : alphaPow 0 = 1 := gexp_zero

theorem alphaPow_succ (e : Nat) : alphaPow (e + 1) = xtime (alphaPow e) := by
  by_cases hlast : e % 255 = 254
  · rw [alphaPow, alphaPow, hlast, xtime_gexp_254, show (e + 1) % 255 = 0 by omega, gexp_zero]
  · rw [alphaPow, alphaPow, ← gexp_succ _ (by omega), show (e + 1) % 255 = e % 255 + 1 by omega]

theorem alphaPow_glog {a : Byte} (ha : a ≠ 0) : alphaPow (glog a) = a := by
  rw [alphaPow, Nat.mod_eq_of_lt (glog_lt a), gexp_glog ha]

theorem glog_alphaPow (e : Nat) : glog (alphaPow e) = e % 255 := glog_gexp _ (by omega)

theorem alphaPow_add (m n : Nat) : alphaPow (m + n) = gmul (alphaPow m) (alphaPow n) := by
  rw [gmul_of_ne (alphaPow_ne_zero m) (alphaPow_ne_zero n), glog_alphaPow, glog_alphaPow, ← Nat.add_mod, alphaPow]

/-- Every field element is 0 or a power of α (R133). -/
theorem eq_zero_or_alphaPow (a : Byte) : a = 0 ∨ ∃ e, a = alphaPow e := by
  by_cases ha : a = 0
  · exact .inl ha
  · exact .inr ⟨glog a, (alphaPow_glog ha).symm⟩

/-! ### The product -/

theorem gmul_alphaPow (a : Byte) (e : Nat) : gmul a (alphaPow e) = xtime^[e] a := by
  rcases eq_zero_or_alphaPow a with rfl | ⟨k, rfl⟩
  · rw [zero_gmul, Function.iterate_fixed xtime_zero]
  · rw [← alphaPow_add]
    induction e with
    | zero => rfl
    | succ e ih => rw [← Nat.add_assoc, alphaPow_succ, ih, Function.iterate_succ_apply']

theorem xor_gmul (a b c : Byte) : gmul (a ^^^ b) c = gmul a c ^^^ gmul b c := by
  rcases eq_zero_or_alphaPow c with rfl | ⟨e, rfl⟩
  · simp only [gmul_zero]
    rfl
  · simp only [gmul_alphaPow, iterate_xtime_xor]

theorem gmul_xor (a b c : Byte) : gmul a (b ^^^ c) = gmul a b ^^^ gmul a c := by
  simp only [gmul_comm a, xor_gmul]

theorem gmul_assoc (a b c : Byte) : gmul (gmul a b) c = gmul a (gmul b c) := by
  rcases eq_zero_or_alphaPow a with rfl | ⟨i, rfl⟩
  · simp only [zero_gmul]
  rcases eq_zero_or_alphaPow b with rfl | ⟨j, rfl⟩
  · rw [gmul_zero, zero_gmul, gmul_zero]
  rcases eq_zero_or_alphaPow c with rfl | ⟨k, rfl⟩
  · simp only [gmul_zero]
  simp only [← alphaPow_add, Nat.add_assoc]

theorem gmul_right_comm (a b c : Byte) : gmul (gmul a b) c = gmul (gmul a c) b := by
  rw [gmul_assoc, gmul_comm b, ← gmul_assoc]

end Sys2Proof.Proofs
end

section
/-! SUPPORT. The polynomials of the Reed-Solomon code on plain lists: Horner's rule, the generator polynomial, the
remainder of no data, and what one wrong codeword does to a syndrome (41_rs_encode.md R170 to R173). -/

namespace Sys2Proof.Proofs

open Sys2Proof.Machine Sys2Proof.Safety Sys2Proof.Laws

/-! ### Horner's rule -/

/-- Horner's rule at `x` from the value `v` reached so far, over the remaining coefficients, high-order first. -/
def hornerFrom (x : Byte) : Byte → List Byte → Byte
  | v, [] => v
  | v, c :: p => hornerFrom x (gmul v x ^^^ c) p

theorem foldl_eq_hornerFrom (x v : Byte) (p : List Byte) :
    p.foldl (fun r c => gmul r x ^^^ c) v = hornerFrom x v p := by
  induction p generalizing v with
  | nil => rfl
  | cons c p ih => exact ih _

theorem pevalHi_eq_hornerFrom (p : List Byte) (x : Byte) : pevalHi p x = hornerFrom x 0 p :=
  foldl_eq_hornerFrom x 0 p

theorem syndrome_eq_hornerFrom (m : List Byte) (i : Nat) : syndrome m i = hornerFrom (alphaPow i) 0 m :=
  foldl_eq_hornerFrom (alphaPow i) 0 m

/-- A change of the value reached so far is shifted by the number of coefficients still to come. -/
theorem hornerFrom_xor (i : Nat) (v e : Byte) (m : List Byte) :
    hornerFrom (alphaPow i) (v ^^^ e) m =
      hornerFrom (alphaPow i) v m ^^^ gmul e (alphaPow (i * m.length)) := by
  induction m generalizing v e with
  | nil => rw [hornerFrom, hornerFrom, List.length_nil, Nat.mul_zero, alphaPow_zero, gmul_one]
  | cons c m ih =>
    have hstep : gmul (v ^^^ e) (alphaPow i) ^^^ c =
        (gmul v (alphaPow i) ^^^ c) ^^^ gmul e (alphaPow i) := by
      rw [xor_gmul]
      ac_rfl
    rw [hornerFrom, hstep, ih, hornerFrom, gmul_assoc, ← alphaPow_add, List.length_cons, Nat.mul_succ, Nat.add_comm i]

theorem hornerFrom_set (i : Nat) (v e : Byte) {m : List Byte} {p : Nat} (hp : p < m.length) :
    hornerFrom (alphaPow i) v (m.set p (m.getD p 0 ^^^ e)) =
      hornerFrom (alphaPow i) v m ^^^ gmul e (alphaPow (i * (m.length - 1 - p))) := by
  induction m generalizing v p with
  | nil => simp at hp
  | cons c m ih =>
    cases p with
    | zero =>
      show hornerFrom (alphaPow i) (gmul v (alphaPow i) ^^^ (c ^^^ e)) m = _
      rw [← BitVec.xor_assoc, hornerFrom_xor]
      rfl
    | succ p =>
      have hlen : (c :: m).length - 1 - (p + 1) = m.length - 1 - p := by
        rw [List.length_cons]
        omega
      rw [hlen]
      exact ih _ (Nat.lt_of_succ_lt_succ hp)

/-! ### The generator polynomial -/

/-- R170's loop body from coefficient j on, with `c` the product of coefficient j - 1 and the root. -/
def mulRootFrom (r : Byte) : Byte → List Byte → List Byte
  | c, [] => [c]
  | c, a :: g => (a ^^^ c) :: mulRootFrom r (gmul a r) g

theorem zipWith_eq_mulRootFrom (r c : Byte) (g : List Byte) :
    List.zipWith (fun x y => x ^^^ y) (g ++ [0]) (c :: g.map (fun a => gmul a r)) = mulRootFrom r c g := by
  induction g generalizing c with
  | nil => simp [mulRootFrom]
  | cons a g ih => exact congrArg ((a ^^^ c) :: ·) (ih (gmul a r))

theorem mulRoot_eq_mulRootFrom (g : List Byte) (r : Byte) : mulRoot g r = mulRootFrom r 0 g :=
  zipWith_eq_mulRootFrom r 0 g

theorem getD_mulRootFrom (r c : Byte) (g : List Byte) (j : Nat) :
    (mulRootFrom r c g).getD j 0 =
      g.getD j 0 ^^^ (if j = 0 then c else gmul (g.getD (j - 1) 0) r) := by
  induction g generalizing c j with
  | nil =>
    cases j with
    | zero => simp [mulRootFrom]
    | succ j => simpa [mulRootFrom] using (zero_gmul r).symm
  | cons a g ih =>
    cases j with
    | zero => rfl
    | succ j =>
      rw [mulRootFrom, List.getD_cons_succ, ih, List.getD_cons_succ, if_neg (Nat.succ_ne_zero j)]
      cases j <;> rfl

/-- Multiplying by (x + r) multiplies the value by it. `v` and `w` are the values of the product and of the factor so
far: they agree but for the term `c` that the product still owes. -/
theorem hornerFrom_mulRootFrom (x r : Byte) {v w c : Byte} (g : List Byte)
    (h : gmul v x ^^^ c = gmul w (x ^^^ r)) :
    hornerFrom x v (mulRootFrom r c g) = gmul (hornerFrom x w g) (x ^^^ r) := by
  induction g generalizing v w c with
  | nil => exact h
  | cons a g ih =>
    refine ih ?_
    have hvalue : gmul v x ^^^ (a ^^^ c) = gmul w (x ^^^ r) ^^^ a := by
      rw [← h]
      ac_rfl
    rw [hvalue, xor_gmul, xor_gmul, gmul_right_comm, gmul_xor a, BitVec.xor_assoc]

theorem pevalHi_mulRoot (g : List Byte) (r x : Byte) :
    pevalHi (mulRoot g r) x = gmul (pevalHi g x) (x ^^^ r) := by
  rw [pevalHi_eq_hornerFrom, pevalHi_eq_hornerFrom, mulRoot_eq_mulRootFrom, hornerFrom_mulRootFrom (w := 0)]
  rw [zero_gmul, zero_gmul]
  rfl

theorem genpoly_head? (n : Nat) : (genpoly n).head? = some 1 := by
  induction n with
  | zero => rfl
  | succ n ih =>
    obtain ⟨g, hg⟩ := List.head?_eq_some_iff.1 ih
    rw [genpoly, hg]
    rfl

theorem pevalHi_genpoly (n : Nat) (x : Byte) :
    pevalHi (genpoly n) x = (List.range n).foldl (fun r i => gmul r (x ^^^ alphaPow (i + 1))) 1 := by
  induction n with
  | zero =>
    rw [genpoly, pevalHi, List.foldl_cons, zero_gmul]
    rfl
  | succ n ih => rw [genpoly, pevalHi_mulRoot, ih, List.range_succ, List.foldl_append, List.foldl_cons, List.foldl_nil]

/-! ### The zero message -/

/-- A leading value 0 is dropped, so the division of zeros leaves the zeros that no round takes off. -/
theorem longDivision_zeros (gTail : List Byte) (k n : Nat) :
    longDivision gTail k (List.replicate (k + n) 0) = List.replicate n 0 := by
  induction k with
  | zero => rw [Nat.zero_add, longDivision]
  | succ k ih => rw [Nat.succ_add, List.replicate_succ, longDivision, if_pos rfl, ih]

theorem rsRemainder_zeros (k n : Nat) : rsRemainder (List.replicate k 0) n = List.replicate n 0 := by
  rw [rsRemainder, List.length_replicate, List.replicate_append_replicate, longDivision_zeros]

theorem syndrome_zeros (n i : Nat) : syndrome (List.replicate n 0) i = 0 := by
  induction n with
  | zero => rfl
  | succ n ih =>
    rw [syndrome, List.replicate_succ, List.foldl_cons, zero_gmul]
    exact ih

/-! ### Syndromes -/

theorem syndromes_getElem? (m : List Byte) {n i : Nat} (h1 : 1 ≤ i) (hn : i ≤ n) :
    (syndromes m n)[i - 1]? = some (syndrome m i) := by
  simp [syndromes, show i - 1 < n by omega, Nat.sub_add_cancel h1]

/-- An error `e` at position `p` of a message with syndrome 0 is all that its syndrome sees (R182). -/
theorem syndrome_of_one_error {c : List Byte} {p i : Nat} (e : Byte) (hp : p < c.length)
    (h : syndrome c i = 0) :
    syndrome (c.set p (c.getD p 0 ^^^ e)) i = gmul e (alphaPow (i * (c.length - 1 - p))) := by
  rw [syndrome_eq_hornerFrom] at h ⊢
  rw [hornerFrom_set i 0 e hp, h]
  exact BitVec.zero_xor

end Sys2Proof.Proofs
end

section
/-! SUPPORT. The statements about the generator polynomial, RS_GENPOLY, RS_ENCODE and RS_SYNDROME (41_rs_encode.md R170,
R176, R180 to R182). -/

namespace Sys2Proof.Proofs

open Sys2Proof.Machine Sys2Proof.Safety Sys2Proof.Laws

/-! ### Runs of elements -/

section
variable {w : Nat} {b : Buffer w}

theorem holds_writeRange (b : Buffer w) (i : Nat) (vs : List (BitVec w)) : Holds (Buffer.writeRange b i vs) i vs := by
  intro j hj
  rw [read_writeRange, if_pos (by omega), Nat.add_sub_cancel_left]

/-- Writing a run right after elements that hold `us`. -/
theorem holds_append_writeRange {i : Nat} {us : List (BitVec w)} (h : Holds b i us) (vs : List (BitVec w)) :
    Holds (Buffer.writeRange b (i + us.length) vs) i (us ++ vs) := by
  intro j hj
  by_cases hus : j < us.length
  · rw [read_writeRange_outside _ _ (.inl (by omega)), h j hus, List.getElem?_append_left hus]
  · rw [List.length_append] at hj
    rw [read_writeRange, if_pos (by omega), List.getElem?_append_right (by omega), Nat.add_sub_add_left]

theorem readRange_of_holds (id : BufId) {i : Nat} {vs : List (BitVec w)} (h : Holds b i vs) :
    readRange id b i vs.length = .ok vs :=
  readRange_of_read id b vs i fun j hj => (h j hj).trans (List.getElem?_eq_getElem hj)

end

/-! ### The parameter check -/

theorem rsCheck_of_rsRange {s : State} (h : RsRange s) : rsCheck s = .ok (s.regs.len.toNat, s.regs.nsym.toNat) := by
  obtain ⟨hnsym, hmax, hlen, hcap⟩ := h
  exact rsCheck_ok hnsym hmax hlen hcap

theorem rsCheck_of_not_rsRange {s : State} (h : ¬ RsRange s) : rsCheck s = .error (.raise .badParameter) := by
  unfold RsRange at h
  exact rsCheck_bad (by omega)

/-! ### The three commands in range -/

theorem exec_rsGenpoly {s : State} (h1 : 1 ≤ s.regs.nsym.toNat) (hmax : s.regs.nsym.toNat ≤ 1023) :
    exec .rsGenpoly s = .next (afterSuccess s s.regs s.status
      { s.mem with gen := Buffer.writeRange s.mem.gen 0 (genpoly s.regs.nsym.toNat) }) := by
  rw [exec, execRsGenpoly, nsymOperand_ok h1 hmax, ok_bind, runCommand_ok]
  rfl

theorem exec_rsEncode {s : State} {d : List Byte} (hr : RsRange s)
    (hlen : d.length = s.regs.len.toNat - s.regs.nsym.toNat) (hd : Holds s.mem.msg 0 d) :
    exec .rsEncode s = .next (afterSuccess s s.regs s.status
      { s.mem with
        msg := Buffer.writeRange s.mem.msg d.length (rsRemainder d s.regs.nsym.toNat)
        gen := Buffer.writeRange s.mem.gen 0 (genpoly s.regs.nsym.toNat) }) := by
  rw [exec, execRsEncode, rsCheck_of_rsRange hr, ok_bind]
  dsimp only
  rw [← hlen, readRange_of_holds .msg hd, ok_bind, runCommand_ok]
  rfl

theorem exec_rsSyndrome {s : State} {m : List Byte} (hr : RsRange s) (hlen : m.length = s.regs.len.toNat)
    (hm : Holds s.mem.msg 0 m) :
    exec .rsSyndrome s = .next (afterSuccess s s.regs
      { s.status with synz := allZero (syndromes m s.regs.nsym.toNat) }
      { s.mem with syn := Buffer.writeRange s.mem.syn 0 (syndromes m s.regs.nsym.toNat) }) := by
  rw [exec, execRsSyndrome, rsCheck_of_rsRange hr, ok_bind]
  dsimp only
  rw [← hlen, readRange_of_holds .msg hm, ok_bind, runCommand_ok]
  rfl

/-! ### The statements -/

/-- Settles O34: GEN takes the whole generator in one run of writes, and its first coefficient is 1. -/
theorem rsGenpolyWritesTheGenerator : Obligations.RsGenpolyWritesTheGenerator := by
  refine ⟨rfl, ?run, ?range, by decide, by decide⟩
  case run =>
    intro s h1 hmax
    have hgen := holds_writeRange s.mem.gen 0 (genpoly s.regs.nsym.toNat)
    refine ⟨_, exec_rsGenpoly h1 hmax, rfl, genpoly_length _, hgen, ?frame, ?monic⟩
    case frame =>
      intro j hj
      exact read_writeRange_outside _ _ (.inr (by rw [genpoly_length]; omega))
    case monic =>
      rw [← genpoly_head? s.regs.nsym.toNat, List.head?_eq_getElem?]
      exact hgen 0 (by rw [genpoly_length]; omega)
  case range =>
    intro s h
    rw [exec, execRsGenpoly, nsymOperand_bad (by omega), error_bind, runCommand_raise_eq_afterError]

/-- Settles O35: each factor acts on the coefficients as `getD_mulRootFrom` says, and on the value as a product. -/
theorem generatorIsTheProductOfItsFactors : Obligations.GeneratorIsTheProductOfItsFactors := by
  refine ⟨rfl, ?coefficients, fun n => ⟨genpoly_length n, genpoly_head? n, pevalHi_genpoly n⟩⟩
  case coefficients =>
    intro n j
    rw [genpoly, mulRoot_eq_mulRootFrom, getD_mulRootFrom]

/-- Settles O36: the remainder is written right after the data, which is read and left as it is. -/
theorem rsEncodeAppendsTheRemainder : Obligations.RsEncodeAppendsTheRemainder := by
  refine ⟨rfl, ?run, ?range, rsRemainder_zeros, by decide⟩
  case run =>
    intro s d hr hlen hd
    have hmsg := holds_append_writeRange hd (rsRemainder d s.regs.nsym.toNat)
    rw [Nat.zero_add] at hmsg
    refine ⟨_, exec_rsEncode hr hlen hd, rfl, rsRemainder_length _ _, hmsg, ?message,
      holds_writeRange _ _ _, ?generator⟩
    case message =>
      intro j hj
      obtain ⟨-, -, hle, -⟩ := hr
      exact read_writeRange_outside _ _ (.inr (by rw [rsRemainder_length]; omega))
    case generator =>
      intro j hj
      exact read_writeRange_outside _ _ (.inr (by rw [genpoly_length]; omega))
  case range =>
    intro s h
    rw [exec, execRsEncode, rsCheck_of_not_rsRange h, error_bind, runCommand_raise_eq_afterError]

/-- Settles O38: SYN takes the syndromes in one run of writes; the rest is linearity of Horner's rule. -/
theorem rsSyndromeWritesTheSyndromes : Obligations.RsSyndromeWritesTheSyndromes := by
  refine ⟨rfl, ?run, ?range, syndrome_zeros, fun c p i e => syndrome_of_one_error e, by decide⟩
  case run =>
    intro s m hr hlen hm
    refine ⟨_, exec_rsSyndrome hr hlen hm, rfl, allZero_syndromes m _, ?elements, ?frame⟩
    case elements =>
      intro i h1 hi
      have hsyn := holds_writeRange s.mem.syn 0 (syndromes m s.regs.nsym.toNat) (i - 1)
        (by rw [syndromes_length]; omega)
      rw [Nat.zero_add, syndromes_getElem? m h1 hi] at hsyn
      exact hsyn
    case frame =>
      intro j hj
      exact read_writeRange_outside _ _ (.inr (by rw [syndromes_length]; omega))
  case range =>
    intro s h
    rw [exec, execRsSyndrome, rsCheck_of_not_rsRange h, error_bind, runCommand_raise_eq_afterError]

end Sys2Proof.Proofs
end

section
/-! SUPPORT. Berlekamp-Massey round by round, and the statement about RS_LOCATOR (42_rs_decode.md R201, R202, R210). -/

namespace Sys2Proof.Proofs

open Sys2Proof.Machine Sys2Proof.Safety Sys2Proof.Laws

/-! ### One round -/

theorem getD_xorShifted {c b : List Byte} (m : Nat) (q : Byte) (hb : b.length = c.length) {j : Nat}
    (hj : j < c.length) :
    (xorShifted c m q b).getD j 0 =
      if m ≤ j then c.getD j 0 ^^^ gmul q (b.getD (j - m) 0) else c.getD j 0 := by
  have hlen : j < (xorShifted c m q b).length := by rwa [xorShifted_length m q hb]
  rw [List.getD_eq_getElem _ _ hlen, List.getD_eq_getElem _ _ hj]
  simp only [xorShifted, List.getElem_zipWith, List.getElem_append, List.length_replicate]
  split_ifs with hm hj' hj'
  · omega
  · simp
  · rw [List.getElem_map, List.getD_eq_getElem _ _ (by omega)]
  · omega

section
variable {v : List Byte} {r : Nat} {t : BmState}

theorem bmRound_of_zero (hd : discrepancy v t.c t.l r = 0) : bmRound v r t = { t with m := t.m + 1 } := by
  rw [bmRound, if_pos hd]

/-- A discrepancy that a longer register has to explain (2L <= r). -/
theorem bmRound_of_grow (hd : discrepancy v t.c t.l r ≠ 0) (hl : 2 * t.l ≤ r) :
    bmRound v r t =
      { c := xorShifted t.c t.m (gquot (discrepancy v t.c t.l r) t.delta) t.b
        b := t.c, l := r + 1 - t.l, m := 1, delta := discrepancy v t.c t.l r } := by
  rw [bmRound, if_neg hd, if_pos hl]

/-- A discrepancy that a register of the same length can explain (r < 2L). -/
theorem bmRound_of_keep (hd : discrepancy v t.c t.l r ≠ 0) (hl : r < 2 * t.l) :
    bmRound v r t =
      { t with
        c := xorShifted t.c t.m (gquot (discrepancy v t.c t.l r) t.delta) t.b
        m := t.m + 1 } := by
  rw [bmRound, if_neg hd, if_neg (by omega)]

/-- `bmRound` is the loop body of R201. -/
theorem locatorRound_bmRound (v : List Byte) (r : Nat) (hb : t.b.length = t.c.length) :
    LocatorRound v r t (bmRound v r t) := by
  show (discrepancy v t.c t.l r = 0 → _) ∧ (discrepancy v t.c t.l r ≠ 0 → _)
  refine ⟨bmRound_of_zero, fun hd => ?_⟩
  by_cases hl : 2 * t.l ≤ r
  · rw [bmRound_of_grow hd hl]
    exact ⟨xorShifted_length _ _ hb, fun j hj => getD_xorShifted _ _ hb hj, fun _ => ⟨rfl, rfl, rfl, rfl⟩,
      fun h => absurd h (by omega)⟩
  · rw [bmRound_of_keep hd (by omega)]
    exact ⟨xorShifted_length _ _ hb, fun j hj => getD_xorShifted _ _ hb hj, fun h => absurd h hl,
      fun _ => ⟨rfl, rfl, rfl, rfl⟩⟩

/-- C[0] is 1 and stays so, because a correction of C starts at element m. -/
def MonicShifted (t : BmState) : Prop := t.c.getD 0 0 = 1 ∧ 1 ≤ t.m

theorem bmRound_monicShifted {n : Nat} (hok : BmOk n r t) (h : MonicShifted t) : MonicShifted (bmRound v r t) := by
  obtain ⟨hone, hm⟩ := h
  have hmonic (q : Byte) : (xorShifted t.c t.m q t.b).getD 0 0 = 1 := by
    have hc := hok.c_length
    rw [getD_xorShifted _ _ (hok.b_length.trans hc.symm) (by omega), if_neg (by omega), hone]
  by_cases hd : discrepancy v t.c t.l r = 0
  · rw [bmRound_of_zero hd]
    exact ⟨hone, Nat.le_succ_of_le hm⟩
  · by_cases hl : 2 * t.l ≤ r
    · rw [bmRound_of_grow hd hl]
      exact ⟨hmonic _, le_rfl⟩
    · rw [bmRound_of_keep hd (by omega)]
      exact ⟨hmonic _, Nat.le_succ_of_le hm⟩

end

/-! ### All rounds -/

/-- The variables of R201's loop after the rounds 0..k-1. -/
def bmAfter (v : List Byte) (k : Nat) : BmState :=
  (List.range k).foldl (fun t r => bmRound v r t) (bmStart v.length)

theorem bm_eq_bmAfter (v : List Byte) : bm v = bmAfter v v.length := rfl

theorem bmAfter_succ (v : List Byte) (k : Nat) : bmAfter v (k + 1) = bmRound v k (bmAfter v k) := by
  rw [bmAfter, List.range_succ, List.foldl_append]
  rfl

theorem bmAfter_ok (v : List Byte) (k : Nat) : BmOk v.length k (bmAfter v k) := bmRounds_ok v.length v k

theorem bmAfter_monicShifted (v : List Byte) (k : Nat) : MonicShifted (bmAfter v k) := by
  induction k with
  | zero => exact ⟨rfl, le_rfl⟩
  | succ k ih =>
    rw [bmAfter_succ]
    exact bmRound_monicShifted (bmAfter_ok v k) ih

theorem locatorRound_bmAfter (v : List Byte) (r : Nat) : LocatorRound v r (bmAfter v r) (bmAfter v (r + 1)) := by
  have hok := bmAfter_ok v r
  rw [bmAfter_succ]
  exact locatorRound_bmRound v r (hok.b_length.trans hok.c_length.symm)

/-- On zero syndromes no round finds a discrepancy, so only m moves. -/
theorem bmAfter_zeros (n k : Nat) : bmAfter (List.replicate n 0) k = { bmStart n with m := k + 1 } := by
  induction k with
  | zero =>
    rw [bmAfter, List.length_replicate]
    rfl
  | succ k ih =>
    have hd : discrepancy (List.replicate n 0) (bmStart n).c 0 k = 0 := by
      by_cases hk : k < n <;> simp [discrepancy, List.getD, hk]
    rw [bmAfter_succ, ih]
    exact bmRound_of_zero hd

theorem bm_zeros (n : Nat) : bm (List.replicate n 0) = { bmStart n with m := n + 1 } := by
  rw [bm_eq_bmAfter, bmAfter_zeros, List.length_replicate]

theorem bm_singleton {x : Byte} (hx : x ≠ 0) : (bm [x]).l = 1 := by
  have hd : discrepancy [x] (bmStart 1).c (bmStart 1).l 0 ≠ 0 := hx
  show (bmRound [x] 0 (bmStart 1)).l = 1
  rw [bmRound_of_grow hd le_rfl]
  rfl

/-! ### RS_LOCATOR -/

theorem getElem?_evaluator {v : List Byte} (c : List Byte) (l : Nat) {i : Nat} (hi : i < v.length) :
    (evaluator v c l)[i]? =
      some ((List.range (min i l + 1)).foldl (fun r j => r ^^^ gmul (c.getD j 0) (v.getD (i - j) 0)) 0) := by
  rw [evaluator, List.getElem?_map, List.getElem?_range hi, Option.map_some]

section
variable {s : State} {v : List Byte} (h1 : 1 ≤ s.regs.nsym.toNat) (hmax : s.regs.nsym.toNat ≤ 1023)
  (hlen : v.length = s.regs.nsym.toNat) (hv : Holds s.mem.syn 0 v)
include h1 hmax hlen hv

theorem exec_rsLocator (hl : (bm v).l ≤ s.regs.nsym.toNat / 2) :
    exec .rsLocator s = .next (afterSuccess s { s.regs with nerr := BitVec.ofNat 32 (bm v).l } s.status
      { s.mem with
        loc := Buffer.writeRange s.mem.loc 0 (bm v).c
        eval := Buffer.writeRange s.mem.eval 0 (evaluator v (bm v).c (bm v).l) }) := by
  rw [exec, execRsLocator, nsymOperand_ok h1 hmax, ok_bind, ← hlen, readRange_of_holds .syn hv, ok_bind]
  dsimp only
  rw [raiseIf_of_false (by rw [hlen]; simpa using hl), ok_bind, runCommand_ok]
  rfl

theorem exec_rsLocator_uncorrectable (hl : s.regs.nsym.toNat / 2 < (bm v).l) :
    exec .rsLocator s = .next (afterError s .uncorrectable) := by
  rw [exec, execRsLocator, nsymOperand_ok h1 hmax, ok_bind, ← hlen, readRange_of_holds .syn hv, ok_bind]
  dsimp only
  rw [raiseIf_of_true (by rw [hlen]; simpa using hl), error_bind, runCommand_raise_eq_afterError]

end

/-- Settles O40: LOC and EVAL each take one run of writes, and `bmAfter` gives the variables of R201 round by round. -/
theorem rsLocatorWritesTheLocator : Obligations.RsLocatorWritesTheLocator := by
  refine ⟨rfl, ?run, ?range, ?zeros, fun x => bm_singleton, by decide, by decide, by decide, by decide, by decide,
    by decide, ?rounds⟩
  case run =>
    intro s v h1 hmax hlen hv
    refine ⟨fun hl => ?_, exec_rsLocator_uncorrectable h1 hmax hlen hv⟩
    have hc : (bm v).c.length = s.regs.nsym.toNat + 1 := hlen ▸ (bm_ok v).c_length
    refine ⟨_, exec_rsLocator h1 hmax hlen hv hl, rfl, hc, holds_writeRange _ _ _, ?locFrame, ?eval, ?evalFrame⟩
    case locFrame =>
      intro j hj
      exact read_writeRange_outside _ _ (.inr (by omega))
    case eval =>
      intro i hi
      have heval := holds_writeRange s.mem.eval 0 (evaluator v (bm v).c (bm v).l) i
        (by rw [evaluator_length]; omega)
      rwa [Nat.zero_add, getElem?_evaluator _ _ (by omega)] at heval
    case evalFrame =>
      intro j hj
      exact read_writeRange_outside _ _ (.inr (by rw [evaluator_length]; omega))
  case range =>
    intro s h
    rw [exec, execRsLocator, nsymOperand_bad (by omega), error_bind, runCommand_raise_eq_afterError]
  case zeros =>
    intro n
    rw [bm_zeros]
    exact ⟨rfl, rfl⟩
  case rounds =>
    intro v
    exact ⟨(bmAfter_monicShifted v v.length).1, bmAfter v, rfl, fun r _ => locatorRound_bmAfter v r,
      fun r _ => (bmAfter_ok v r).delta_ne, rfl⟩

end Sys2Proof.Proofs
end

section
/-! SUPPORT. The Forney corrections on the buffers, and the statement about RS_FORNEY (42_rs_decode.md R204, R212). -/

namespace Sys2Proof.Proofs

open Sys2Proof.Machine Sys2Proof.Safety Sys2Proof.Laws

/-! ### Reading elements -/

theorem readElem_of_holds {b : Buffer 8} (id : BufId) {vs : List Byte} (h : Holds b 0 vs) {i : Nat}
    (hi : i < vs.length) : readElem id b i = .ok (vs.getD i 0) := by
  have hread := h i hi
  rw [Nat.zero_add, List.getElem?_eq_getElem hi] at hread
  rw [readElem_eq_ok, hread, List.getD_eq_getElem _ _ hi]

theorem isSome_read_write {b : Buffer 8} {j : Nat} (h : (Buffer.read b j).isSome) (i : Nat) (v : Byte) :
    (Buffer.read (Buffer.write b i v) j).isSome := by
  rw [read_write]
  split_ifs
  · rfl
  · exact h

/-- A run of readings of which one raises `k` and none stops otherwise raises `k`. -/
theorem collect_of_raise {α : Type} {f : Nat → Except Stop α} {k : ErrorKind} {n i : Nat}
    (hall : ∀ j < n, (∃ a, f (i + j) = .ok a) ∨ f (i + j) = .error (.raise k))
    (hone : ∃ j < n, f (i + j) = .error (.raise k)) : collect f i n = .error (.raise k) := by
  induction n generalizing i with
  | zero =>
    obtain ⟨j, hj, -⟩ := hone
    omega
  | succ n ih =>
    rw [collect]
    rcases hall 0 n.succ_pos with ⟨a, ha⟩ | hraise
    · obtain ⟨j, hj, hraise⟩ := hone
      rw [Nat.add_zero] at ha
      cases j with
      | zero => cases ha.symm.trans hraise
      | succ j =>
        have hrest : collect f (i + 1) n = .error (.raise k) :=
          ih (fun j hj => Nat.succ_add_eq_add_succ i j ▸ hall (j + 1) (by omega))
            ⟨j, by omega, Nat.succ_add_eq_add_succ i j ▸ hraise⟩
        rw [ha, ok_bind, hrest, error_bind]
    · rw [Nat.add_zero] at hraise
      rw [hraise, error_bind]

/-- Reading written elements at the positions `ps`, one for each of them, succeeds. -/
theorem collect_readElem_positions {b : Buffer 8} (id : BufId) {ps : List Nat}
    (h : ∀ p ∈ ps, (Buffer.read b p).isSome) :
    ∃ vs, collect (fun k => readElem id b (ps.getD k 0)) 0 ps.length = .ok vs := by
  refine ⟨ps.map fun p => (Buffer.read b p).getD 0, ?_⟩
  rw [← List.length_map (as := ps) fun p => (Buffer.read b p).getD 0]
  refine collect_of_ok _ _ 0 fun k hk => ?_
  rw [List.length_map] at hk
  obtain ⟨v, hv⟩ := Option.isSome_iff_exists.1 (h _ (List.getElem_mem hk))
  rw [Nat.zero_add, List.getD_eq_getElem _ _ hk, List.getElem_map, readElem_eq_ok, hv, Option.getD_some]

/-! ### The corrections of a message -/

/-- The value `v` of element j after the corrections `e p` at the positions `ps`, one for each occurrence of j. -/
def xorOccurrences (e : Nat → Byte) (ps : List Nat) (j : Nat) (v : Byte) : Byte :=
  ps.foldl (fun v p => if p = j then v ^^^ e p else v) v

theorem xorOccurrences_cons_same (e : Nat → Byte) (p : Nat) (ps : List Nat) (v : Byte) :
    xorOccurrences e (p :: ps) p v = xorOccurrences e ps p (v ^^^ e p) := by
  rw [xorOccurrences, List.foldl_cons, if_pos rfl, xorOccurrences]

theorem xorOccurrences_cons_other (e : Nat → Byte) {p j : Nat} (ps : List Nat) (v : Byte) (h : p ≠ j) :
    xorOccurrences e (p :: ps) j v = xorOccurrences e ps j v := by
  rw [xorOccurrences, List.foldl_cons, if_neg h, xorOccurrences]

/-- One correction, then the others. -/
theorem read_write_map_xorOccurrences (e : Nat → Byte) {m : Buffer 8} {p : Nat} {v : Byte}
    (hp : Buffer.read m p = some v) (ps : List Nat) (j : Nat) :
    (Buffer.read (Buffer.write m p (v ^^^ e p)) j).map (xorOccurrences e ps j) =
      (Buffer.read m j).map (xorOccurrences e (p :: ps) j) := by
  by_cases hj : j = p
  · rw [hj, read_write_same, hp, Option.map_some, Option.map_some, xorOccurrences_cons_same]
  · rw [read_write_other _ _ hj]
    exact congrArg (fun f => (Buffer.read m j).map f)
      (funext fun u => (xorOccurrences_cons_other e ps u (Ne.symm hj)).symm)

/-! ### The denominator -/

theorem le_of_mem_oddsUpTo {i l : Nat} (h : i ∈ oddsUpTo l) : i ≤ l := by
  simp only [oddsUpTo, List.mem_map, List.mem_range] at h
  omega

theorem dpevalLoc_of_holds {loc : Buffer 8} {q : List Byte} (hq : Holds loc 0 q) (x : Byte) {is : List Nat}
    (his : ∀ i ∈ is, i < q.length) (d : Byte) :
    dpevalLoc loc x is d = .ok (is.foldl (fun d i => d ^^^ gmul (q.getD i 0) (gpow x (i - 1))) d) := by
  induction is generalizing d with
  | nil => rfl
  | cons i is ih =>
    rw [List.forall_mem_cons] at his
    rw [dpevalLoc, readElem_of_holds .loc hq his.1, ok_bind, ih his.2, List.foldl_cons]

/-- R204's derivative on LOC is the one on the coefficients it holds. -/
theorem dpevalLoc_eq_denominator {loc : Buffer 8} {q : List Byte} {l : Nat} (hq : Holds loc 0 q)
    (hlen : q.length = l + 1) (n p : Nat) :
    dpevalLoc loc (alphaInv (degOf n p)) (oddsUpTo l) 0 = .ok (denominator q l n p) :=
  dpevalLoc_of_holds hq _ (fun i hi => by have := le_of_mem_oddsUpTo hi; omega) 0

/-! ### The loop of RS_FORNEY -/

section
variable {s : State} {q w : List Byte} {l nsym : Nat} (hqlen : q.length = l + 1) (hq : Holds s.mem.loc 0 q)
include hqlen hq

theorem forneyLoop_cons_of_zero {n p : Nat} (hden : denominator q l n p = 0) (ps : List Nat) (m : Buffer 8) :
    forneyLoop s n l nsym (p :: ps) m = .error (.raise .uncorrectable) := by
  rw [forneyLoop]
  dsimp only
  rw [dpevalLoc_eq_denominator hq hqlen, ok_bind, raiseIf_of_true (by simpa using hden), error_bind]

variable (hwlen : w.length = nsym) (hw : Holds s.mem.eval 0 w)
include hwlen hw

theorem forneyLoop_cons_of_ne {n p : Nat} {v : Byte} (hden : denominator q l n p ≠ 0) (ps : List Nat) {m : Buffer 8}
    (hv : Buffer.read m p = some v) :
    forneyLoop s n l nsym (p :: ps) m =
      forneyLoop s n l nsym ps (Buffer.write m p (v ^^^ magnitude q w l nsym n p)) >>= fun r =>
        .ok (r.1, magnitude q w l nsym n p :: r.2) := by
  rw [forneyLoop]
  dsimp only
  rw [dpevalLoc_eq_denominator hq hqlen, ok_bind, raiseIf_of_false (by simpa using hden), ok_bind, ← hwlen,
    readRange_of_holds .eval hw, ok_bind, readElem_eq_ok.2 hv, ok_bind]
  rfl

/-- R212's loop where every denominator divides: the magnitudes in order, and the scratch message corrected. -/
theorem forneyLoop_ok {n : Nat} {ps : List Nat} {m : Buffer 8} (hden : ∀ p ∈ ps, denominator q l n p ≠ 0)
    (hm : ∀ p ∈ ps, (Buffer.read m p).isSome) :
    ∃ m', forneyLoop s n l nsym ps m = .ok (m', ps.map (magnitude q w l nsym n)) ∧
      ∀ j, Buffer.read m' j = (Buffer.read m j).map (xorOccurrences (magnitude q w l nsym n) ps j) := by
  induction ps generalizing m with
  | nil => exact ⟨m, rfl, fun j => Option.map_id'.symm⟩
  | cons p ps ih =>
    rw [List.forall_mem_cons] at hden hm
    obtain ⟨v, hv⟩ := Option.isSome_iff_exists.1 hm.1
    obtain ⟨m', hloop, hread⟩ := ih hden.2 fun p' hp' =>
      isSome_read_write (hm.2 p' hp') p (v ^^^ magnitude q w l nsym n p)
    refine ⟨m', ?_, fun j => ?_⟩
    · rw [forneyLoop_cons_of_ne hqlen hq hwlen hw hden.1 ps hv, hloop]
      rfl
    · rw [hread, read_write_map_xorOccurrences _ hv]

/-- R212's loop ends at the first denominator that is 0. -/
theorem forneyLoop_raise {n : Nat} {ps : List Nat} {m : Buffer 8} (hden : ∃ p ∈ ps, denominator q l n p = 0)
    (hm : ∀ p ∈ ps, (Buffer.read m p).isSome) :
    forneyLoop s n l nsym ps m = .error (.raise .uncorrectable) := by
  induction ps generalizing m with
  | nil =>
    obtain ⟨p, hp, -⟩ := hden
    cases hp
  | cons p ps ih =>
    rw [List.forall_mem_cons] at hm
    obtain ⟨v, hv⟩ := Option.isSome_iff_exists.1 hm.1
    by_cases h0 : denominator q l n p = 0
    · exact forneyLoop_cons_of_zero hqlen hq h0 ps m
    · have hrest := ih (((List.exists_mem_cons_iff ..).1 hden).resolve_left h0)
        fun p' hp' => isSome_read_write (hm.2 p' hp') p (v ^^^ magnitude q w l nsym n p)
      rw [forneyLoop_cons_of_ne hqlen hq hwlen hw h0 ps hv, hrest, error_bind]

end

/-! ### RS_FORNEY -/

/-- The register ranges of RS_FORNEY (R212). -/
def ForneyRange (s : State) : Prop :=
  1 ≤ s.regs.nsym.toNat ∧ s.regs.nsym.toNat ≤ 1023 ∧ s.regs.len.toNat ≤ 4096 ∧ s.regs.nerr.toNat ≤ 1023 ∧
    s.regs.nfound.toNat ≤ 1024

/-- The check of R212's first line, as RS_FORNEY evaluates it. -/
theorem forneyCheck_iff (s : State) :
    (s.regs.nsym.toNat < 1 || s.regs.nsym.toNat > Config.nsymMax || s.regs.len.toNat > Config.msgCap ||
      s.regs.nerr.toNat > Config.nsymMax || s.regs.nfound.toNat > Config.bufCap) = true ↔ ¬ ForneyRange s := by
  unfold ForneyRange Config.nsymMax Config.msgCap Config.bufCap
  simp only [Bool.or_eq_true, decide_eq_true_eq]
  omega

theorem exec_rsForney_of_not_range {s : State} (h : ¬ ForneyRange s) :
    exec .rsForney s = .next (afterError s .badParameter) := by
  rw [exec, execRsForney]
  dsimp only
  rw [raiseIf_of_true ((forneyCheck_iff s).2 h), error_bind, runCommand_raise_eq_afterError]

theorem forneyPosition_of_read {s : State} {k p : Nat} (h : (Buffer.read s.mem.pos k).map BitVec.toNat = some p) :
    forneyPosition s k = if s.regs.len.toNat ≤ p then .error (.raise .badParameter) else .ok p := by
  obtain ⟨v, hv, rfl⟩ := Option.map_eq_some_iff.1 h
  rw [forneyPosition, readElem_eq_ok.2 hv, ok_bind]

section
variable {s : State} {ps : List Nat} (hr : ForneyRange s) (hlen : ps.length = s.regs.nfound.toNat)
  (hps : ∀ k, k < ps.length → (Buffer.read s.mem.pos k).map BitVec.toNat = ps[k]?)
include hps

theorem forneyPosition_eq {k : Nat} (hk : k < ps.length) :
    forneyPosition s k = if s.regs.len.toNat ≤ ps[k] then .error (.raise .badParameter) else .ok ps[k] :=
  forneyPosition_of_read ((hps k hk).trans (List.getElem?_eq_getElem hk))

theorem collect_forneyPosition_ok (hbelow : ∀ p ∈ ps, p < s.regs.len.toNat) :
    collect (forneyPosition s) 0 ps.length = .ok ps := by
  refine collect_of_ok _ ps 0 fun k hk => ?_
  have hk' := hbelow _ (List.getElem_mem hk)
  rw [Nat.zero_add, forneyPosition_eq hps hk, if_neg (by omega)]

theorem collect_forneyPosition_raise (hbeyond : ∃ p ∈ ps, s.regs.len.toNat ≤ p) :
    collect (forneyPosition s) 0 ps.length = .error (.raise .badParameter) := by
  refine collect_of_raise (fun k hk => ?_) ?_
  · rw [Nat.zero_add, forneyPosition_eq hps hk]
    split_ifs
    · exact .inr rfl
    · exact .inl ⟨_, rfl⟩
  · obtain ⟨p, hp, hle⟩ := hbeyond
    obtain ⟨k, hk, rfl⟩ := List.getElem_of_mem hp
    exact ⟨k, hk, by rw [Nat.zero_add, forneyPosition_eq hps hk, if_pos hle]⟩

include hr hlen

theorem exec_rsForney_of_beyond (hbeyond : ∃ p ∈ ps, s.regs.len.toNat ≤ p) :
    exec .rsForney s = .next (afterError s .badParameter) := by
  rw [exec, execRsForney]
  dsimp only
  rw [raiseIf_of_false (Bool.eq_false_iff.2 fun h => (forneyCheck_iff s).1 h hr), ok_bind, ← hlen,
    collect_forneyPosition_raise hps hbeyond, error_bind, runCommand_raise_eq_afterError]

/-- With registers and positions in range and MSG written at the positions, all of RS_FORNEY is its loop. -/
theorem exec_rsForney_eq_loop (hbelow : ∀ p ∈ ps, p < s.regs.len.toNat)
    (hmsg : ∀ p ∈ ps, (Buffer.read s.mem.msg p).isSome) :
    exec .rsForney s = runCommand s
      (forneyLoop s s.regs.len.toNat s.regs.nerr.toNat s.regs.nsym.toNat ps s.mem.msg >>= fun r =>
        .ok { s with mem := { s.mem with msg := r.1, mag := Buffer.writeRange s.mem.mag 0 r.2 } }) := by
  obtain ⟨vs, hvs⟩ := collect_readElem_positions .msg hmsg
  rw [exec, execRsForney]
  dsimp only
  rw [raiseIf_of_false (Bool.eq_false_iff.2 fun h => (forneyCheck_iff s).1 h hr), ok_bind, ← hlen,
    collect_forneyPosition_ok hps hbelow, ok_bind, hvs, ok_bind]

end

/-- Settles O43: the positions are checked before anything is computed, then the loop corrects a copy of MSG. -/
theorem rsForneyAppliesTheMagnitudes : Obligations.RsForneyAppliesTheMagnitudes := by
  refine ⟨rfl, ?run, fun s h => exec_rsForney_of_not_range (by unfold ForneyRange; omega)⟩
  intro s ps q w h1 h2 h3 h4 h5 hlen hps
  have hr : ForneyRange s := ⟨h1, h2, h3, h4, h5⟩
  refine ⟨exec_rsForney_of_beyond hr hlen hps, fun hbelow hmsg hqlen hq hwlen hw =>
    ⟨fun hden => ?zero, fun hden => ?corrected⟩⟩
  case zero =>
    rw [exec_rsForney_eq_loop hr hlen hps hbelow hmsg, forneyLoop_raise hqlen hq hwlen hw hden hmsg, error_bind,
      runCommand_raise_eq_afterError]
  case corrected =>
    obtain ⟨m', hloop, hread⟩ := forneyLoop_ok hqlen hq hwlen hw hden hmsg
    refine ⟨_, by rw [exec_rsForney_eq_loop hr hlen hps hbelow hmsg, hloop, ok_bind, runCommand_ok], rfl, ?mag,
      fun j hj => ?frame, hread⟩
    case mag =>
      intro k hk
      have hmag := holds_writeRange s.mem.mag 0
        (ps.map (magnitude q w s.regs.nerr.toNat s.regs.nsym.toNat s.regs.len.toNat)) k (by rwa [List.length_map])
      rwa [Nat.zero_add, List.getElem?_map, List.getElem?_eq_getElem hk, Option.map_some,
        ← List.getD_eq_getElem _ 0 hk] at hmag
    case frame => exact read_writeRange_outside _ _ (.inr (by rw [List.length_map]; omega))

end Sys2Proof.Proofs
end

section
/-! SUPPORT. The two corrections of a whole message, and the statements about RS_CORRECT and RS_CORRECT_BITFLIP
(42_rs_decode.md R205, R213, R214). -/

namespace Sys2Proof.Proofs

open Sys2Proof.Machine Sys2Proof.Safety Sys2Proof.Laws

/-! ### How a correction ends -/

theorem allZero_syndromes_iff (m : List Byte) (nsym : Nat) :
    allZero (syndromes m nsym) = true ↔ IsCodeword m nsym := allZero_syndromes m nsym

/-- What RS_CORRECT and RS_CORRECT_BITFLIP do once the message is read: `v` are its syndromes, and `r` is the corrected
MSG with the number of errors, or none where there is no correction. -/
def correction (s : State) (nsym : Nat) (v : List Byte) (r : Option (Buffer 8 × Nat)) : Except Stop State :=
  if allZero v then .ok (s.noErrors nsym)
  else
    match r with
    | none => .error (.raise .uncorrectable)
    | some (msg, l) => .ok (s.corrected msg v l)

theorem runCommand_correction_codeword {s : State} {m : List Byte} {nsym : Nat} (hc : IsCodeword m nsym)
    (r : Option (Buffer 8 × Nat)) :
    ∃ t, runCommand s (correction s nsym (syndromes m nsym) r) = .next t ∧
      t = afterSuccess s { s.regs with nerr := 0 } { s.status with synz := true, corr := false }
        { s.mem with syn := t.mem.syn } ∧
      Holds t.mem.syn 0 (List.replicate nsym 0) ∧
      ∀ j, nsym ≤ j → Buffer.read t.mem.syn j = Buffer.read s.mem.syn j := by
  unfold correction
  rw [if_pos ((allZero_syndromes_iff m nsym).2 hc), runCommand_ok]
  refine ⟨_, rfl, rfl, holds_writeRange _ _ _, fun j hj => ?_⟩
  exact read_writeRange_outside _ _ (.inr (by rw [List.length_replicate]; omega))

theorem runCommand_correction_some {s : State} {m : List Byte} {nsym : Nat} (hc : ¬ IsCodeword m nsym)
    (msg : Buffer 8) (l : Nat) :
    runCommand s (correction s nsym (syndromes m nsym) (some (msg, l))) =
      .next (afterSuccess s { s.regs with nerr := BitVec.ofNat 32 l } { s.status with synz := false, corr := true }
        { s.mem with msg := msg, syn := Buffer.writeRange s.mem.syn 0 (syndromes m nsym) }) := by
  rw [correction, if_neg (mt (allZero_syndromes_iff m nsym).1 hc), runCommand_ok]
  rfl

theorem runCommand_correction_none {s : State} {m : List Byte} {nsym : Nat} (hc : ¬ IsCodeword m nsym) :
    runCommand s (correction s nsym (syndromes m nsym) none) = .next (afterError s .uncorrectable) := by
  rw [correction, if_neg (mt (allZero_syndromes_iff m nsym).1 hc), runCommand_raise_eq_afterError]

section
variable {s : State} {m : List Byte} (hr : RsRange s) (hlen : m.length = s.regs.len.toNat) (hm : Holds s.mem.msg 0 m)
include hr hlen hm

theorem exec_rsCorrect :
    exec .rsCorrect s = runCommand s (correction s s.regs.nsym.toNat (syndromes m s.regs.nsym.toNat)
      ((correctErrors m (syndromes m s.regs.nsym.toNat) s.regs.nsym.toNat).map fun r =>
        (Buffer.writeRange s.mem.msg 0 r.2, r.1))) := by
  rw [exec, execRsCorrect, rsCheck_of_rsRange hr, ok_bind]
  dsimp only
  rw [← hlen, readRange_of_holds .msg hm, ok_bind]
  cases correctErrors m (syndromes m s.regs.nsym.toNat) s.regs.nsym.toNat <;> rfl

theorem exec_rsCorrectBitflip :
    exec .rsCorrectBitflip s = runCommand s (correction s s.regs.nsym.toNat (syndromes m s.regs.nsym.toNat)
      ((bitflipSearch m s.regs.nsym.toNat).map fun k =>
        (Buffer.write s.mem.msg (k / 8) ((bitflipTrial m k).getD (k / 8) 0), 1))) := by
  rw [exec, execRsCorrectBitflip, rsCheck_of_rsRange hr, ok_bind]
  dsimp only
  rw [← hlen, readRange_of_holds .msg hm, ok_bind]
  cases bitflipSearch m s.regs.nsym.toNat <;> rfl

end

/-! ### The validations of RS_CORRECT -/

/-- At distinct positions each correction happens once. -/
theorem xorOccurrences_of_nodup (e : Nat → Byte) {ps : List Nat} (hps : ps.Nodup) (j : Nat) (v : Byte) :
    xorOccurrences e ps j v = if j ∈ ps then v ^^^ e j else v := by
  induction ps generalizing v with
  | nil => rfl
  | cons p ps ih =>
    obtain ⟨hp, hnodup⟩ := List.nodup_cons.1 hps
    by_cases hj : p = j
    · subst hj
      rw [xorOccurrences_cons_same, ih hnodup, if_neg hp, if_pos (List.mem_cons_self ..)]
    · rw [xorOccurrences_cons_other _ _ _ hj, ih hnodup]
      simp only [List.mem_cons, Ne.symm hj, false_or]

/-- One correction, then the others. -/
theorem mapIdx_xorOccurrences_set (e : Nat → Byte) {m : List Byte} {p : Nat} (hp : p < m.length) (ps : List Nat) :
    (m.set p (m.getD p 0 ^^^ e p)).mapIdx (xorOccurrences e ps) = m.mapIdx (xorOccurrences e (p :: ps)) := by
  refine List.ext_getElem (by simp) fun j h1 h2 => ?_
  simp only [List.getElem_mapIdx, List.getElem_set]
  by_cases hj : p = j
  · subst hj
    rw [if_pos rfl, xorOccurrences_cons_same, List.getD_eq_getElem _ _ hp]
  · rw [if_neg hj, xorOccurrences_cons_other _ _ _ hj]

/-- R213's loop, with R204's magnitudes and denominators. -/
theorem forneyApply_cons (c w : List Byte) (l nsym n p : Nat) (ps : List Nat) (m : List Byte) :
    forneyApply c w l nsym n (p :: ps) m =
      if denominator c l n p = 0 then none
      else forneyApply c w l nsym n ps (m.set p (m.getD p 0 ^^^ magnitude c w l nsym n p)) := rfl

theorem forneyApply_of_ne {c w : List Byte} {l nsym n : Nat} {ps : List Nat} {m : List Byte}
    (hden : ∀ p ∈ ps, denominator c l n p ≠ 0) (hps : ∀ p ∈ ps, p < m.length) :
    forneyApply c w l nsym n ps m = some (m.mapIdx (xorOccurrences (magnitude c w l nsym n) ps)) := by
  induction ps generalizing m with
  | nil => exact congrArg some (List.ext_getElem (by simp) (by simp [xorOccurrences]))
  | cons p ps ih =>
    rw [List.forall_mem_cons] at hden hps
    rw [forneyApply_cons, if_neg hden.1, ih hden.2 (by simpa using hps.2), mapIdx_xorOccurrences_set _ hps.1]

theorem denominator_ne_of_forneyApply {c w : List Byte} {l nsym n : Nat} {ps : List Nat} {m m' : List Byte}
    (h : forneyApply c w l nsym n ps m = some m') : ∀ p ∈ ps, denominator c l n p ≠ 0 := by
  induction ps generalizing m with
  | nil => exact fun p hp => by cases hp
  | cons p ps ih =>
    rw [forneyApply_cons] at h
    split_ifs at h with hden
    exact List.forall_mem_cons.2 ⟨hden, ih h⟩

/-- The message `m` with syndromes `v` corrected at its located positions (R203, R204). -/
def correctedMessage (m v : List Byte) (nsym : Nat) : List Byte :=
  m.mapIdx (fun p c => if p ∈ chien (bm v).c (bm v).l m.length then
    c ^^^ magnitude (bm v).c (evaluator v (bm v).c (bm v).l) (bm v).l nsym m.length p else c)

@[simp] theorem correctedMessage_length (m v : List Byte) (nsym : Nat) :
    (correctedMessage m v nsym).length = m.length := by
  simp [correctedMessage]

/-- What RS_CORRECT asks of a message `m` with syndromes `v` that are not all 0: R205's length and the four validations
of R213. -/
structure Validated (m v : List Byte) (nsym : Nat) : Prop where
  length_le : m.length ≤ 255
  l_le : (bm v).l ≤ nsym / 2
  roots : (chien (bm v).c (bm v).l m.length).length = (bm v).l
  denominators : ∀ p ∈ chien (bm v).c (bm v).l m.length, denominator (bm v).c (bm v).l m.length p ≠ 0
  codeword : IsCodeword (correctedMessage m v nsym) nsym

theorem forneyApply_chien {m v : List Byte} {nsym : Nat}
    (hden : ∀ p ∈ chien (bm v).c (bm v).l m.length, denominator (bm v).c (bm v).l m.length p ≠ 0) :
    forneyApply (bm v).c (evaluator v (bm v).c (bm v).l) (bm v).l nsym m.length (chien (bm v).c (bm v).l m.length) m =
      some (correctedMessage m v nsym) := by
  have hnodup := (chien_ascending (bm v).c (bm v).l m.length).imp Nat.ne_of_lt
  rw [forneyApply_of_ne hden fun p hp => (mem_chien.1 hp).1, correctedMessage,
    funext₂ (xorOccurrences_of_nodup _ hnodup)]

/-- R213: a correction is found exactly if every validation passes, and then it is the corrected message. -/
theorem correctErrors_eq_some_iff {m v : List Byte} {nsym : Nat} {r : Nat × List Byte} :
    correctErrors m v nsym = some r ↔ Validated m v nsym ∧ r = ((bm v).l, correctedMessage m v nsym) := by
  constructor
  · intro h
    simp only [correctErrors] at h
    split_ifs at h with hn hl hroots
    cases hf : forneyApply (bm v).c (evaluator v (bm v).c (bm v).l) (bm v).l nsym m.length
        (chien (bm v).c (bm v).l m.length) m with
    | none => simp [hf] at h
    | some m' =>
      have hden := denominator_ne_of_forneyApply hf
      obtain rfl : correctedMessage m v nsym = m' := Option.some.inj ((forneyApply_chien hden).symm.trans hf)
      simp only [hf, Option.ite_none_right_eq_some, Option.some.injEq] at h
      obtain ⟨hzero, rfl⟩ := h
      exact ⟨⟨by omega, by omega, by simpa using hroots, hden, (allZero_syndromes_iff _ _).1 hzero⟩, rfl⟩
  · rintro ⟨h, rfl⟩
    have hn := h.length_le
    have hl := h.l_le
    simp only [correctErrors]
    rw [if_neg (by omega), if_neg (by omega), if_neg (by simpa using h.roots), forneyApply_chien h.denominators]
    exact if_pos ((allZero_syndromes_iff _ _).2 h.codeword)

theorem correctErrors_of_validated {m v : List Byte} {nsym : Nat} (h : Validated m v nsym) :
    correctErrors m v nsym = some ((bm v).l, correctedMessage m v nsym) :=
  correctErrors_eq_some_iff.2 ⟨h, rfl⟩

theorem correctErrors_of_not_validated {m v : List Byte} {nsym : Nat} (h : ¬ Validated m v nsym) :
    correctErrors m v nsym = none :=
  Option.eq_none_iff_forall_ne_some.2 fun _ hr => h (correctErrors_eq_some_iff.1 hr).1

/-! ### The bit-flip search -/

/-- A trial is numbered by its position and then by its bit (R214). -/
theorem bitflipTrial_mul_add (m : List Byte) (p : Nat) {b : Nat} (hb : b < 8) :
    bitflipTrial m (8 * p + b) = m.set p (m.getD p 0 ^^^ (1#8 <<< b)) := by
  rw [bitflipTrial, show (8 * p + b) / 8 = p by omega, show (8 * p + b) % 8 = b by omega]

theorem bitflipSearch_of_first {m : List Byte} {nsym p b : Nat} (hp : p < m.length) (hb : b < 8)
    (hflip : IsCodeword (m.set p (m.getD p 0 ^^^ (1#8 <<< b))) nsym)
    (hfirst : ∀ p' b', p' < m.length → b' < 8 → (p' < p ∨ (p' = p ∧ b' < b)) →
      ¬ IsCodeword (m.set p' (m.getD p' 0 ^^^ (1#8 <<< b'))) nsym) :
    bitflipSearch m nsym = some (8 * p + b) := by
  rw [bitflipSearch, List.find?_range_eq_some]
  refine ⟨?_, List.mem_range.2 (by omega), fun k hk => ?_⟩
  · rwa [bitflipTrial_mul_add m p hb, allZero_syndromes_iff]
  · have hk' := hfirst (k / 8) (k % 8) (by omega) (by omega) (by omega)
    rw [Bool.not_eq_true', Bool.eq_false_iff, Ne, allZero_syndromes_iff]
    exact hk'

theorem bitflipSearch_of_none {m : List Byte} {nsym : Nat}
    (hnone : ∀ p b, p < m.length → b < 8 → ¬ IsCodeword (m.set p (m.getD p 0 ^^^ (1#8 <<< b))) nsym) :
    bitflipSearch m nsym = none := by
  rw [bitflipSearch, List.find?_eq_none]
  intro k hk
  have hk := List.mem_range.1 hk
  rw [allZero_syndromes_iff]
  exact hnone (k / 8) (k % 8) (by omega) (by omega)

/-! ### The statements -/

/-- Settles O44: the message is an encoded one, or the validations of R213 decide what `correctErrors` answers. -/
theorem rsCorrectFollowsItsValidations : Obligations.RsCorrectFollowsItsValidations := by
  refine ⟨rfl, fun s m hr hlen hm => ⟨?codeword, ?wrong⟩, ?range⟩
  case codeword =>
    intro hc
    rw [exec_rsCorrect hr hlen hm]
    exact runCommand_correction_codeword hc _
  case wrong =>
    intro hc v q l ps m' valid
    have hiff : valid ↔ Validated m (syndromes m s.regs.nsym.toNat) s.regs.nsym.toNat :=
      ⟨fun ⟨hn, hl, hroots, hden, hcode⟩ => ⟨hn, hl, hroots, hden, hcode⟩,
        fun ⟨hn, hl, hroots, hden, hcode⟩ => ⟨hn, hl, hroots, hden, hcode⟩⟩
    rw [exec_rsCorrect hr hlen hm, hiff]
    refine ⟨fun hvalid => ?_, fun hvalid => ?_⟩
    · rw [correctErrors_of_validated hvalid, Option.map_some, runCommand_correction_some hc]
      refine ⟨_, rfl, rfl, holds_writeRange _ _ _, fun j hj => ?msgFrame, holds_writeRange _ _ _, fun j hj => ?synFrame⟩
      case msgFrame => exact read_writeRange_outside _ _ (.inr (by rw [correctedMessage_length]; omega))
      case synFrame => exact read_writeRange_outside _ _ (.inr (by rw [syndromes_length]; omega))
    · rw [correctErrors_of_not_validated hvalid, Option.map_none, runCommand_correction_none hc]
  case range =>
    intro s h
    rw [exec, execRsCorrect, rsCheck_of_not_rsRange h, error_bind, runCommand_raise_eq_afterError]

/-- Settles O47: the trial numbers 8p + b put positions first and bits second, and the search takes the least one. -/
theorem rsCorrectBitflipTakesTheFirstFlip : Obligations.RsCorrectBitflipTakesTheFirstFlip := by
  refine ⟨rfl, fun s m hr hlen hm => ⟨?codeword, ?first, ?none⟩, ?range⟩
  case codeword =>
    intro hc
    rw [exec_rsCorrectBitflip hr hlen hm]
    exact runCommand_correction_codeword hc _
  case first =>
    intro p b hc hp hb hflip hfirst
    rw [exec_rsCorrectBitflip hr hlen hm, bitflipSearch_of_first hp hb hflip hfirst, Option.map_some,
      runCommand_correction_some hc, bitflipTrial_mul_add m p hb, show (8 * p + b) / 8 = p by omega]
    refine ⟨_, rfl, rfl, ?flipped, fun j hj => read_write_other _ _ hj, holds_writeRange _ _ _, fun j hj => ?synFrame⟩
    case flipped => exact (read_write_same _ _ _).trans (congrArg some (by simp [List.getD, hp]))
    case synFrame => exact read_writeRange_outside _ _ (.inr (by rw [syndromes_length]; omega))
  case none =>
    intro hc hnone
    rw [exec_rsCorrectBitflip hr hlen hm, bitflipSearch_of_none hnone, Option.map_none, runCommand_correction_none hc]
  case range =>
    intro s h
    rw [exec, execRsCorrectBitflip, rsCheck_of_not_rsRange h, error_bind, runCommand_raise_eq_afterError]

end Sys2Proof.Proofs
end

section
/-! SUPPORT. The search of SIZE_TABLE, and the statements about GEO_SELECT, GEO_LOOKUP and GEO_INFO (43_geometry.md R250
to R253, R260 to R262). -/

namespace Sys2Proof.Proofs

open Sys2Proof.Machine Sys2Proof.Safety Sys2Proof.Laws

/-! ### SIZE_TABLE -/

theorem sizeAt_eq_getElem {i : Nat} (hi : i < sizeTable.length) : sizeAt i = sizeTable[i] :=
  List.getD_eq_getElem _ _ hi

/-- R250: the entries stand in the order of their data capacities. -/
theorem dataCw_sizeAt_mono {i j : Nat} (hij : i ≤ j) (hj : j < 30) : (sizeAt i).dataCw ≤ (sizeAt j).dataCw := by
  have htable : ∀ b < 30, ∀ a ≤ b, (sizeAt a).dataCw ≤ (sizeAt b).dataCw := by decide
  exact htable j hj i hij

/-- R253: no two entries have the same dimensions. -/
theorem sizeAt_dims_ne_of_lt {i j : Nat} (hij : i < j) (hj : j < 30) :
    ¬ ((sizeAt j).rows = (sizeAt i).rows ∧ (sizeAt j).cols = (sizeAt i).cols) := by
  have htable : ∀ b < 30, ∀ a < b,
      ¬ ((sizeAt b).rows = (sizeAt a).rows ∧ (sizeAt b).cols = (sizeAt a).cols) := by decide
  exact htable j hj i hij

theorem findIdx?_sizeTable_eq_some_iff {p : SymbolSize → Bool} {i : Nat} :
    sizeTable.findIdx? p = some i ↔ i < 30 ∧ p (sizeAt i) = true ∧ ∀ j < i, ¬ p (sizeAt j) = true := by
  rw [List.findIdx?_eq_some_iff_getElem]
  constructor
  · rintro ⟨hi, hp, hbefore⟩
    refine ⟨hi, by rwa [sizeAt_eq_getElem hi], fun j hj => ?_⟩
    rw [sizeAt_eq_getElem (hj.trans hi)]
    exact hbefore j hj
  · rintro ⟨hi, hp, hbefore⟩
    refine ⟨hi, by rwa [sizeAt_eq_getElem hi] at hp, fun j hj => ?_⟩
    rw [← sizeAt_eq_getElem]
    exact hbefore j hj

theorem findIdx?_sizeTable_eq_none_iff {p : SymbolSize → Bool} :
    sizeTable.findIdx? p = none ↔ ∀ i < 30, ¬ p (sizeAt i) = true := by
  rw [List.findIdx?_eq_none_iff, List.forall_mem_iff_getElem]
  refine forall₂_congr fun i hi => ?_
  rw [sizeAt_eq_getElem hi, Bool.not_eq_true]

/-! ### The selection and the lookup -/

/-- R252: up to the largest capacity there is a first entry that holds `k` codewords. -/
theorem exists_selectSize {k : Nat} (hk : k ≤ 1558) :
    ∃ i, selectSize k = .ok i ∧ i < 30 ∧ k ≤ (sizeAt i).dataCw ∧ ∀ j < i, (sizeAt j).dataCw < k := by
  unfold selectSize
  cases hfind : sizeTable.findIdx? (fun e => decide (e.dataCw ≥ k)) with
  | none =>
    have hlast := findIdx?_sizeTable_eq_none_iff.1 hfind 29 (by decide)
    exact absurd (decide_eq_true hk) hlast
  | some i =>
    obtain ⟨hi, hfit, hbefore⟩ := findIdx?_sizeTable_eq_some_iff.1 hfind
    exact ⟨i, rfl, hi, of_decide_eq_true hfit, fun j hj => by simpa using hbefore j hj⟩

/-- R252: no entry holds more codewords than the last one. -/
theorem selectSize_tooLong {k : Nat} (hk : 1558 < k) : selectSize k = .error (.raise .dataTooLong) := by
  have hnone : sizeTable.findIdx? (fun e => decide (e.dataCw ≥ k)) = none := by
    refine findIdx?_sizeTable_eq_none_iff.2 fun i hi hfit => ?_
    have hmax : (sizeAt i).dataCw ≤ 1558 := dataCw_sizeAt_mono (j := 29) (by omega) (by decide)
    have hfit := of_decide_eq_true hfit
    omega
  rw [selectSize, hnone]

/-- R253: the entry with the given dimensions is the first one, as it is the only one. -/
theorem lookupSize_of_dims {i rows cols : Nat} (hi : i < 30) (hr : rows = (sizeAt i).rows)
    (hc : cols = (sizeAt i).cols) :
    lookupSize rows cols = .ok i := by
  have hsome : sizeTable.findIdx? (fun e => decide (e.rows = rows ∧ e.cols = cols)) = some i := by
    refine findIdx?_sizeTable_eq_some_iff.2 ⟨hi, decide_eq_true ⟨hr.symm, hc.symm⟩, fun j hj hdims => ?_⟩
    obtain ⟨hjr, hjc⟩ := of_decide_eq_true hdims
    exact sizeAt_dims_ne_of_lt hj hi ⟨(hjr.trans hr).symm, (hjc.trans hc).symm⟩
  rw [lookupSize, hsome]

theorem lookupSize_unsupported {rows cols : Nat}
    (h : ∀ i, i < 30 → ¬ (rows = (sizeAt i).rows ∧ cols = (sizeAt i).cols)) :
    lookupSize rows cols = .error (.raise .unsupportedSymbolSize) := by
  have hnone : sizeTable.findIdx? (fun e => decide (e.rows = rows ∧ e.cols = cols)) = none := by
    refine findIdx?_sizeTable_eq_none_iff.2 fun i hi hdims => ?_
    obtain ⟨hr, hc⟩ := of_decide_eq_true hdims
    exact h i hi ⟨hr.symm, hc.symm⟩
  rw [lookupSize, hnone]

/-! ### The statements -/

/-- Settles O49: the search ends at the first entry that fits, and the capacities rise, so no fitting entry is
smaller. -/
theorem geoSelectTakesTheFirstFit : Obligations.GeoSelectTakesTheFirstFit := by
  refine ⟨rfl, ?fit, ?tooLong⟩
  case fit =>
    intro s hk
    obtain ⟨i, hselect, hi, hfit, hbefore⟩ := exists_selectSize hk
    refine ⟨i, hi, hfit, hbefore, fun j hj hfitj => ?smallest, ?run⟩
    case smallest =>
      have hij : ¬ j < i := fun h => absurd hfitj (Nat.not_le_of_lt (hbefore j h))
      exact dataCw_sizeAt_mono (Nat.le_of_not_lt hij) hj
    case run =>
      rw [exec, execGeoSelect, hselect, ok_bind, runCommand_ok]
      rfl
  case tooLong =>
    intro s hk
    rw [exec, execGeoSelect, selectSize_tooLong hk, error_bind, runCommand_raise_eq_afterError]

/-- Settles O50: the dimensions determine the entry, so the search finds it or finds none. -/
theorem geoLookupFindsTheEntry : Obligations.GeoLookupFindsTheEntry := by
  refine ⟨rfl, ?entry, ?unsupported⟩
  case entry =>
    intro s i hi hr hc
    rw [exec, execGeoLookup, lookupSize_of_dims hi hr hc, ok_bind, runCommand_ok]
    rfl
  case unsupported =>
    intro s h
    rw [exec, execGeoLookup, lookupSize_unsupported h, error_bind, runCommand_raise_eq_afterError]

/-- Settles O51: the check of SIZE_IDX, then the entry's four values. -/
theorem geoInfoReadsTheEntry : Obligations.GeoInfoReadsTheEntry := by
  refine ⟨rfl, ?entry, ?range⟩
  case entry =>
    intro s h
    rw [exec, execGeoInfo, sizeOperand_ok h, ok_bind, runCommand_ok]
    rfl
  case range =>
    intro s h
    rw [exec, execGeoInfo, sizeOperand_bad h, error_bind, runCommand_raise_eq_afterError]

end Sys2Proof.Proofs
end

section
/-! SUPPORT. The finder pattern, and the statements about GRID_INIT and GEO_CLASSIFY (43_geometry.md R255, R263,
R264). -/

namespace Sys2Proof.Proofs

open Sys2Proof.Machine Sys2Proof.Safety Sys2Proof.Laws

/-! ### The finder pattern -/

/-- What R255 needs of the dimensions for its four rules of the ring to agree at the corners. -/
structure EvenDims (e : SymbolSize) : Prop where
  two_le_rows : 2 ≤ e.rows
  rows_even : e.rows % 2 = 0
  two_le_cols : 2 ≤ e.cols
  cols_even : e.cols % 2 = 0

theorem evenDims_sizeAt {i : Nat} (hi : i ≤ 29) : EvenDims (sizeAt i) := by
  have htable : ∀ a < 30, (2 ≤ (sizeAt a).rows ∧ (sizeAt a).rows % 2 = 0) ∧
      2 ≤ (sizeAt a).cols ∧ (sizeAt a).cols % 2 = 0 := by decide
  obtain ⟨⟨hr, hre⟩, hc, hce⟩ := htable i (by omega)
  exact ⟨hr, hre, hc, hce⟩

theorem finder_bottom (rows cols c : Nat) : finder rows cols (rows - 1) c = (true, true) := if_pos rfl

theorem finder_left (rows cols r : Nat) : finder rows cols r 0 = (true, true) := by
  rw [finder, if_pos rfl, ite_self]

section
variable {e : SymbolSize} (he : EvenDims e)
include he

theorem finder_top (c : Nat) : finder e.rows e.cols 0 c = (true, decide (c % 2 = 0)) := by
  have := he.two_le_rows
  rw [finder, if_neg (by omega), if_pos rfl]
  split_ifs with hc
  · rw [hc]; rfl
  · rfl

theorem finder_right (r : Nat) : finder e.rows e.cols r (e.cols - 1) = (true, decide ((r + 1) % 2 = 0)) := by
  obtain ⟨_, hrows, _, hcols⟩ := he
  rw [finder]
  split_ifs with hbottom hleft htop hright
  · rw [decide_eq_true (by omega)]
  · omega
  · rw [decide_eq_false (by omega), decide_eq_false (by omega)]
  · rfl
  · exact absurd rfl hright

theorem finder_interior {r c : Nat} (hr1 : 1 ≤ r) (hr2 : r ≤ e.rows - 2) (hc1 : 1 ≤ c) (hc2 : c ≤ e.cols - 2) :
    finder e.rows e.cols r c = (false, false) := by
  have := he.two_le_rows
  have := he.two_le_cols
  rw [finder, if_neg (by omega), if_neg (by omega), if_neg (by omega), if_neg (by omega)]

end

/-! ### The grid after GRID_INIT -/

@[simp] theorem afterSuccess_mem (s : State) (g : Regs) (st : Status) (m : Memory) :
    (afterSuccess s g st m).mem = m := rfl

/-- R263: what GRID_INIT leaves, with every cell of the new grid `g`. -/
theorem exec_gridInit {s : State} (h : s.regs.sizeIdx.toNat ≤ 29) :
    ∃ g, exec .gridInit s = .next (afterSuccess s s.regs s.status { s.mem with grid := g }) ∧
      (∀ j, 144 * 144 ≤ j → Buffer.read g j = none) ∧
      ∀ r c, r < 144 → c < 144 →
        Buffer.read g (r * 144 + c) = some (gridInitModule (sizeAt s.regs.sizeIdx.toNat) r c) := by
  refine ⟨_, by rw [exec, execGridInit, sizeOperand_ok h, ok_bind, runCommand_ok]; rfl, fun j hj => ?beyond,
    fun r c hr hc => ?cell⟩
  case beyond => rw [read_fill, Config.gridDim, if_neg (Nat.not_lt_of_le hj)]
  case cell =>
    have hcell : r * 144 + c < Config.gridDim * Config.gridDim := gridIndex_lt_cap hr hc
    rw [read_fill, if_pos hcell, Config.gridDim, show (r * 144 + c) / 144 = r by omega,
      show (r * 144 + c) % 144 = c by omega]

/-- The module GRID_INIT puts where the finder pattern answers `fv` (R263). -/
def moduleOf (fv : Bool × Bool) : Module := if fv.1 then BitVec.ofBool fv.2 else 0

theorem moduleOf_finder (p : Prop) [Decidable p] : moduleOf (true, decide p) = if p then 1 else 0 := by
  by_cases hp : p <;> simp [moduleOf, hp]

theorem gridInitModule_inside {e : SymbolSize} {r c : Nat} (hr : r < e.rows) (hc : c < e.cols) :
    gridInitModule e r c = moduleOf (finder e.rows e.cols r c) := if_pos ⟨hr, hc⟩

theorem gridInitModule_outside {e : SymbolSize} {r c : Nat} (h : e.rows ≤ r ∨ e.cols ≤ c) :
    gridInitModule e r c = 0 := if_neg (by omega)

/-! ### The class of a module -/

theorem classOf_finder (p : Prop) [Decidable p] : classOf (true, decide p) = if p then 3 else 1 := by
  by_cases hp : p <;> simp [classOf, hp]

theorem exec_geoClassify {s : State} (h : s.regs.sizeIdx.toNat ≤ 29)
    (hr : s.regs.row.toNat < (sizeAt s.regs.sizeIdx.toNat).rows)
    (hc : s.regs.col.toNat < (sizeAt s.regs.sizeIdx.toNat).cols) :
    exec .geoClassify s = .next (afterSuccess s
      { s.regs with
        result := classOf (finder (sizeAt s.regs.sizeIdx.toNat).rows (sizeAt s.regs.sizeIdx.toNat).cols
          s.regs.row.toNat s.regs.col.toNat) } s.status s.mem) := by
  rw [exec, execGeoClassify, sizeOperand_ok h, ok_bind, raiseIf_of_false (by simp [hr, hc]), ok_bind,
    runCommand_setResult]

/-! ### The statements -/

/-- Settles O52: every cell holds the module of its row and column, which inside the symbol is the finder's. -/
theorem gridInitStampsTheFinder : Obligations.GridInitStampsTheFinder := by
  refine ⟨rfl, ?stamp, ?range⟩
  case stamp =>
    rintro s e hs rfl
    have he := evenDims_sizeAt hs
    obtain ⟨g, hrun, hbeyond, hread⟩ := exec_gridInit hs
    refine ⟨_, hrun, rfl, hbeyond, fun r c hr hc => ?_⟩
    rw [afterSuccess_mem, hread r c hr hc]
    refine ⟨fun hre hce => ?inside, fun hout => congrArg some (gridInitModule_outside hout)⟩
    rw [gridInitModule_inside hre hce]
    refine ⟨?bottom, ?left, ?top, ?right, fun hr1 hr2 hc1 hc2 => ?interior⟩
    case bottom =>
      rintro rfl
      rw [finder_bottom]
      rfl
    case left =>
      rintro rfl
      rw [finder_left]
      rfl
    case top =>
      rintro rfl
      rw [finder_top he, moduleOf_finder]
    case right =>
      rintro rfl
      rw [finder_right he, moduleOf_finder]
    case interior =>
      rw [finder_interior he hr1 hr2 hc1 hc2]
      rfl
  case range =>
    intro s h
    rw [exec, execGridInit, sizeOperand_bad h, error_bind, runCommand_raise_eq_afterError]

/-- Settles O53: RESULT is the class of the finder's answer, rule by rule of the ring. -/
theorem geoClassifyNamesTheModule : Obligations.GeoClassifyNamesTheModule := by
  refine ⟨rfl, ?inside, ?range⟩
  case inside =>
    rintro s e hs rfl hr hc
    have he := evenDims_sizeAt hs
    refine ⟨_, exec_geoClassify hs hr hc, ?dark, ?top, ?right, fun hr1 hr2 hc1 hc2 => ?interior⟩
    case dark =>
      rintro (h | h)
      · rw [h, finder_bottom]
        rfl
      · rw [h, finder_left]
        rfl
    case top =>
      intro h
      rw [h, finder_top he, classOf_finder]
    case right =>
      intro h
      rw [h, finder_right he, classOf_finder]
    case interior =>
      rw [finder_interior he hr1 hr2 hc1 hc2]
      rfl
  case range =>
    intro s h
    by_cases hs : 29 < s.regs.sizeIdx.toNat
    · rw [exec, execGeoClassify, sizeOperand_bad hs, error_bind, runCommand_raise_eq_afterError]
    · have hout := h.resolve_left hs
      rw [exec, execGeoClassify, sizeOperand_ok (Nat.le_of_not_lt hs), ok_bind, raiseIf_of_true (by simpa using hout),
        error_bind, runCommand_raise_eq_afterError]

end Sys2Proof.Proofs
end

section
/-! SUPPORT. The closed form of the traversal, index and cell inverse to each other, and the statements about PLACE_MAP and
PLACE_UNMAP (44_placement.md R291, R293, R302, R303). -/

namespace Sys2Proof.Proofs

open Sys2Proof.Machine Sys2Proof.Safety Sys2Proof.Laws

/-! ### The closed form -/

/-- R293: bit t of row pair q, the pairs counted from the bottom and each holding two rows' width of bits. -/
theorem cellOf_pair (e : SymbolSize) (q : Nat) {t : Nat} (ht : t < 2 * (e.cols - 2)) :
    cellOf e (2 * (e.cols - 2) * q + t) = (e.rows - 2 - 2 * q - t % 2, e.cols - 2 - t / 2) := by
  rw [cellOf, Nat.mul_add_div (by omega), Nat.mul_add_mod, Nat.div_eq_of_lt ht, Nat.mod_eq_of_lt ht, Nat.add_zero]

theorem cellOf_zero (e : SymbolSize) : cellOf e 0 = (e.rows - 2, e.cols - 2) := by
  simp [cellOf]

section
variable {e : SymbolSize} (he : EvenDims e)
include he

/-- An index of the interior is a bit of one of its (rows - 2) / 2 row pairs. -/
theorem exists_pair_of_lt_interior {k : Nat} (hk : k < e.interior) :
    ∃ q t, k = 2 * (e.cols - 2) * q + t ∧ t < 2 * (e.cols - 2) ∧ 2 * q + 2 ≤ e.rows - 2 := by
  obtain ⟨_, hrows, _, _⟩ := he
  have hhalf : e.interior = (e.rows - 2) / 2 * (2 * (e.cols - 2)) := by
    rw [SymbolSize.interior, ← Nat.mul_assoc, Nat.div_mul_cancel (by omega)]
  have hwidth : 0 < 2 * (e.cols - 2) := Nat.pos_of_lt_mul_left (hhalf ▸ hk)
  have hq : k / (2 * (e.cols - 2)) < (e.rows - 2) / 2 := Nat.div_lt_of_lt_mul (by rwa [Nat.mul_comm, ← hhalf])
  exact ⟨_, _, (Nat.div_add_mod k _).symm, Nat.mod_lt _ hwidth, by omega⟩

/-- R293: the cell of an index of the interior lies in the interior. -/
theorem cellOf_mem_interior {k : Nat} (hk : k < e.interior) :
    (1 ≤ (cellOf e k).1 ∧ (cellOf e k).1 ≤ e.rows - 2) ∧ 1 ≤ (cellOf e k).2 ∧ (cellOf e k).2 ≤ e.cols - 2 := by
  obtain ⟨q, t, rfl, ht, hq⟩ := exists_pair_of_lt_interior he hk
  rw [cellOf_pair e q ht]
  omega

/-- R293: index inverts cell. -/
theorem indexOf_cellOf {k : Nat} (hk : k < e.interior) : indexOf e (cellOf e k).1 (cellOf e k).2 = k := by
  obtain ⟨q, t, rfl, ht, hq⟩ := exists_pair_of_lt_interior he hk
  obtain ⟨_, hrows, _, _⟩ := he
  rw [cellOf_pair e q ht]
  have hparity : (e.rows - 2 - 2 * q - t % 2) % 2 = t % 2 := by omega
  have hpair : (e.rows - 2 - (e.rows - 2 - 2 * q - t % 2) - t % 2) / 2 = q := by omega
  simp only [indexOf, hparity, hpair]
  omega

variable {r c : Nat} (hr1 : 1 ≤ r) (hr2 : r ≤ e.rows - 2) (hc1 : 1 ≤ c) (hc2 : c ≤ e.cols - 2)
include hr1 hr2 hc1 hc2

/-- The row pair of an interior cell, and the bit of the cell in it. -/
theorem exists_pair_of_interior :
    ∃ q t, indexOf e r c = 2 * (e.cols - 2) * q + t ∧ t < 2 * (e.cols - 2) ∧ 2 * q + 2 ≤ e.rows - 2 ∧
      r = e.rows - 2 - 2 * q - t % 2 ∧ c = e.cols - 2 - t / 2 := by
  obtain ⟨_, hrows, _, _⟩ := he
  exact ⟨_, 2 * (e.cols - 2 - c) + r % 2, Nat.add_assoc .., by omega, by omega, by omega, by omega⟩

/-- R293: cell inverts index. -/
theorem cellOf_indexOf : cellOf e (indexOf e r c) = (r, c) := by
  obtain ⟨q, t, hindex, ht, _, hr, hc⟩ := exists_pair_of_interior he hr1 hr2 hc1 hc2
  rw [hindex, cellOf_pair e q ht, ← hr, ← hc]

theorem indexOf_lt_interior : indexOf e r c < e.interior := by
  obtain ⟨q, t, hindex, ht, hq, -, -⟩ := exists_pair_of_interior he hr1 hr2 hc1 hc2
  calc indexOf e r c
      = 2 * (e.cols - 2) * q + t := hindex
    _ < 2 * (e.cols - 2) * q + 2 * (e.cols - 2) := by omega
    _ = (2 * q + 2) * (e.cols - 2) := by ring
    _ ≤ e.interior := Nat.mul_le_mul_right _ hq

end

/-! ### The statements about PLACE_MAP and PLACE_UNMAP -/

/-- Settles O58: the checks of SIZE_IDX and of the bit index, then the closed form. -/
theorem placeMapNamesTheCell : Obligations.PlaceMapNamesTheCell := by
  refine ⟨rfl, ?entry, ?range⟩
  case entry =>
    rintro s e hs rfl
    refine ⟨fun (hk : _ < SymbolSize.placed _) => ?below, fun (hk : SymbolSize.placed _ ≤ _) => ?beyond, cellOf_zero _⟩
    case below =>
      rw [exec, execPlaceMap, sizeOperand_ok hs, ok_bind, raiseIf_of_false (decide_eq_false (Nat.not_le_of_lt hk)),
        ok_bind, runCommand_ok]
      rfl
    case beyond =>
      rw [exec, execPlaceMap, sizeOperand_ok hs, ok_bind, raiseIf_of_true (decide_eq_true hk), error_bind,
        runCommand_raise_eq_afterError]
  case range =>
    intro s h
    rw [exec, execPlaceMap, sizeOperand_bad h, error_bind, runCommand_raise_eq_afterError]

/-- Settles O59: the range check passes exactly the interior cells, and the index of one is the k below I whose cell it
is. -/
theorem placeUnmapFindsTheIndex : Obligations.PlaceUnmapFindsTheIndex := by
  refine ⟨rfl, ?entry, ?range⟩
  case entry =>
    rintro s e hs rfl
    have he := evenDims_sizeAt hs
    refine ⟨fun hr1 hr2 hc1 hc2 => ?interior, fun hout => ?outside⟩
    case interior =>
      refine ⟨_, cellOf_indexOf he hr1 hr2 hc1 hc2, indexOf_lt_interior he hr1 hr2 hc1 hc2, ?_⟩
      rw [exec, execPlaceUnmap, sizeOperand_ok hs, ok_bind]
      dsimp only
      rw [raiseIf_of_false (by simp [hr2, hc2, Nat.ne_of_gt hr1, Nat.ne_of_gt hc1]), ok_bind, runCommand_ok]
      rfl
    case outside =>
      rw [exec, execPlaceUnmap, sizeOperand_ok hs, ok_bind]
      dsimp only
      rw [raiseIf_of_true (by simpa [or_assoc] using hout), error_bind, runCommand_raise_eq_afterError]
  case range =>
    intro s h
    rw [exec, execPlaceUnmap, sizeOperand_bad h, error_bind, runCommand_raise_eq_afterError]

end Sys2Proof.Proofs
end

section
/-! SUPPORT. The bits of the message in the grid, and the statements about PLACE_WRITE and PLACE_READ (44_placement.md R290,
R300, R301). -/

namespace Sys2Proof.Proofs

open Sys2Proof.Machine Sys2Proof.Safety Sys2Proof.Laws

/-! ### The cells of GRID -/

theorem cols_sizeAt_le {i : Nat} (hi : i ≤ 29) : (sizeAt i).cols ≤ 144 := by
  have htable : ∀ a < 30, (sizeAt a).cols ≤ 144 := by decide
  exact htable i (by omega)

/-- R300: the bits that are placed fill the codewords they come from, so PLACE_WRITE reads exactly MSG[0..N-1]. -/
theorem placed_codewords_sizeAt {i : Nat} (hi : i ≤ 29) : ((sizeAt i).placed + 7) / 8 = (sizeAt i).codewords := by
  have htable : ∀ a < 30, ((sizeAt a).placed + 7) / 8 = (sizeAt a).codewords := by decide
  exact htable i (by omega)

theorem gridIndex_inj {r c r' c' : Nat} (hc : c < 144) (hc' : c' < 144) (h : gridIndex r c = gridIndex r' c') :
    r = r' ∧ c = c' := by
  simp only [gridIndex, Config.gridDim] at h
  omega

/-- No two indexes of the interior go to the same module. -/
theorem placeIndex_inj {e : SymbolSize} (he : EvenDims e) (hcols : e.cols ≤ 144) {i k : Nat} (hi : i < e.interior)
    (hk : k < e.interior) (h : placeIndex e i = placeIndex e k) : i = k := by
  obtain ⟨-, -, hci⟩ := cellOf_mem_interior he hi
  obtain ⟨-, -, hck⟩ := cellOf_mem_interior he hk
  obtain ⟨hrow, hcol⟩ := gridIndex_inj (by omega) (by omega) h
  rw [← indexOf_cellOf he hi, hrow, hcol, indexOf_cellOf he hk]

/-! ### Writing the stream -/

theorem read_placeBits_other (e : SymbolSize) (d : List Byte) {n k j : Nat} {g : Buffer 1}
    (h : ∀ i, k ≤ i → i < k + n → j ≠ placeIndex e i) :
    Buffer.read (placeBits e d k n g) j = Buffer.read g j := by
  induction n generalizing k g with
  | zero => rfl
  | succ n ih =>
    rw [placeBits, ih fun i hlow hhigh => h i (by omega) (by omega), read_write_other _ _ (h k (by omega) (by omega))]

/-- Each module written holds its bit at the end, as no later bit goes to the same module. -/
theorem read_placeBits {e : SymbolSize} (d : List Byte) {n k i : Nat} {g : Buffer 1}
    (hinj : ∀ a b, a < k + n → b < k + n → placeIndex e a = placeIndex e b → a = b) (hlow : k ≤ i) (hhigh : i < k + n) :
    Buffer.read (placeBits e d k n g) (placeIndex e i) = some (streamBit d i) := by
  induction n generalizing k g with
  | zero => omega
  | succ n ih =>
    rw [placeBits]
    obtain rfl | hlt := hlow.eq_or_lt
    · have hlater : ∀ a, k + 1 ≤ a → a < k + 1 + n → placeIndex e k ≠ placeIndex e a := fun a hka han heq =>
        absurd (hinj k a (by omega) (by omega) heq) (by omega)
      rw [read_placeBits_other e d hlater, read_write_same]
    · exact ih (fun a b ha hb => hinj a b (by omega) (by omega)) hlt (by omega)

/-! ### Packing the modules -/

/-- A run of readings that answer `v 0`, `v 1`, ... -/
theorem collect_eq_map_range {α : Type} {f : Nat → Except Stop α} {v : Nat → α} {i n : Nat}
    (h : ∀ j < n, f (i + j) = .ok (v j)) : collect f i n = .ok ((List.range n).map v) := by
  have hrun := collect_of_ok f ((List.range n).map v) i fun j hj => by
    rw [List.getElem_map, List.getElem_range]
    exact h j (by simpa using hj)
  rwa [List.length_map, List.length_range] at hrun

/-- R301: module j of the eight is bit 7 - j of the codeword. -/
theorem getLsbD_packByte (b : Nat → Bool) {j : Nat} (hj : j < 8) :
    (packByte ((List.range 8).map fun i => BitVec.ofBool (b i))).getLsbD (7 - j) = b j := by
  interval_cases j <;> simp [packByte, List.range_succ]

/-- The stream PLACE_READ sees: the modules `b` at the cells of the interior, and 0 past it (R301). -/
def interiorBit (e : SymbolSize) (b : Nat → Bool) (k : Nat) : Bool := decide (k < e.interior) && b k

theorem gridBit_eq_interiorBit {e : SymbolSize} {g : Buffer 1} {b : Nat → Bool} {k : Nat}
    (h : k < e.interior → Buffer.read g (placeIndex e k) = some (BitVec.ofBool (b k))) :
    gridBit e g k = .ok (BitVec.ofBool (interiorBit e b k)) := by
  unfold gridBit interiorBit
  split_ifs with hk
  · rw [readElem_eq_ok.2 (h hk), decide_eq_true hk, Bool.true_and]
  · rw [decide_eq_false hk, Bool.false_and]
    rfl

/-- Codeword i of the modules `b` (R301). -/
def packedCodeword (e : SymbolSize) (b : Nat → Bool) (i : Nat) : Byte :=
  packByte ((List.range 8).map fun j => BitVec.ofBool (interiorBit e b (8 * i + j)))

theorem getLsbD_packedCodeword (e : SymbolSize) (b : Nat → Bool) (i : Nat) {j : Nat} (hj : j < 8) :
    (packedCodeword e b i).getLsbD (7 - j) = interiorBit e b (8 * i + j) :=
  getLsbD_packByte (fun j => interiorBit e b (8 * i + j)) hj

theorem gridCodeword_eq_packedCodeword {e : SymbolSize} {g : Buffer 1} {b : Nat → Bool} {i : Nat}
    (h : ∀ j < 8, 8 * i + j < e.interior →
      Buffer.read g (placeIndex e (8 * i + j)) = some (BitVec.ofBool (b (8 * i + j)))) :
    gridCodeword e g i = .ok (packedCodeword e b i) := by
  rw [gridCodeword, collect_eq_map_range fun j hj => gridBit_eq_interiorBit (h j hj), ok_bind]
  rfl

/-! ### The two commands -/

/-- R300: what PLACE_WRITE leaves. -/
theorem exec_placeWrite {s : State} {d : List Byte} (hs : s.regs.sizeIdx.toNat ≤ 29)
    (hlen : d.length = (sizeAt s.regs.sizeIdx.toNat).codewords) (hd : Holds s.mem.msg 0 d) :
    exec .placeWrite s = .next (afterSuccess s s.regs s.status
      { s.mem with
        grid := placeBits (sizeAt s.regs.sizeIdx.toNat) d 0 (sizeAt s.regs.sizeIdx.toNat).placed s.mem.grid }) := by
  rw [exec, execPlaceWrite, sizeOperand_ok hs, ok_bind, placed_codewords_sizeAt hs, ← hlen, readRange_of_holds .msg hd,
    ok_bind, runCommand_ok]
  rfl

/-- R301: what PLACE_READ leaves when the modules below B and I are `b`. -/
theorem exec_placeRead {s : State} {b : Nat → Bool} (hs : s.regs.sizeIdx.toNat ≤ 29)
    (hb : ∀ k, k < (sizeAt s.regs.sizeIdx.toNat).budget → k < (sizeAt s.regs.sizeIdx.toNat).interior →
      Buffer.read s.mem.grid (placeIndex (sizeAt s.regs.sizeIdx.toNat) k) = some (BitVec.ofBool (b k))) :
    exec .placeRead s = .next (afterSuccess s s.regs s.status
      { s.mem with
        msg := Buffer.writeRange s.mem.msg 0 ((List.range (sizeAt s.regs.sizeIdx.toNat).codewords).map
          (packedCodeword (sizeAt s.regs.sizeIdx.toNat) b)) }) := by
  have hcodeword : ∀ i < (sizeAt s.regs.sizeIdx.toNat).codewords,
      gridCodeword (sizeAt s.regs.sizeIdx.toNat) s.mem.grid (0 + i) =
        .ok (packedCodeword (sizeAt s.regs.sizeIdx.toNat) b i) := fun i hi => by
    rw [Nat.zero_add]
    exact gridCodeword_eq_packedCodeword fun j hj => hb _ (by rw [SymbolSize.budget]; omega)
  rw [exec, execPlaceRead, sizeOperand_ok hs, ok_bind, collect_eq_map_range hcodeword, ok_bind, runCommand_ok]
  rfl

/-! ### The statements about PLACE_WRITE and PLACE_READ -/

/-- Settles O55: the cells of the bits placed are distinct, so each keeps its own bit. -/
theorem placeWritePlacesTheStream : Obligations.PlaceWritePlacesTheStream := by
  refine ⟨rfl, ?place, ?range⟩
  case place =>
    rintro s e d hs rfl hlen hd
    have hinj := @placeIndex_inj _ (evenDims_sizeAt hs) (cols_sizeAt_le hs)
    have hplaced : (sizeAt s.regs.sizeIdx.toNat).placed ≤ (sizeAt s.regs.sizeIdx.toNat).interior := Nat.min_le_right ..
    refine ⟨_, exec_placeWrite hs hlen hd, rfl, fun k hk => ?bit, fun j hj => ?frame⟩
    case bit =>
      exact read_placeBits d (fun a b ha hb => hinj (by omega) (by omega)) k.zero_le (by rwa [Nat.zero_add])
    case frame =>
      exact read_placeBits_other _ d fun k _ hk => hj k (by rwa [Nat.zero_add] at hk)
  case range =>
    intro s h
    rw [exec, execPlaceWrite, sizeOperand_bad h, error_bind, runCommand_raise_eq_afterError]

/-- Settles O56: each codeword is packed from its eight modules, and the run written is MSG[0..N-1]. -/
theorem placeReadPacksTheModules : Obligations.PlaceReadPacksTheModules := by
  refine ⟨rfl, ?pack, ?range⟩
  case pack =>
    rintro s e g hs rfl hg
    refine ⟨_, exec_placeRead hs hg, rfl, fun i hi => ?codeword, fun i hi => ?frame⟩
    case codeword =>
      refine ⟨packedCodeword _ g i, ?_, fun j hj => getLsbD_packedCodeword _ g i hj⟩
      have hlt : i < (sizeAt s.regs.sizeIdx.toNat).codewords := hi
      simp [read_writeRange, hlt]
    case frame =>
      exact read_writeRange_outside _ _ (.inr (by rwa [List.length_map, List.length_range, Nat.zero_add]))
  case range =>
    intro s h
    rw [exec, execPlaceRead, sizeOperand_bad h, error_bind, runCommand_raise_eq_afterError]

end Sys2Proof.Proofs
end

section
/-! SUPPORT. The statement about NOP (45_control.md R320). -/

namespace Sys2Proof.Proofs

open Sys2Proof.Machine Sys2Proof.Safety Sys2Proof.Laws

/-- Settles O25: the command succeeds at once in the state it was given, so all that is left is its completion. -/
theorem nopOnlyCompletes : Obligations.NopOnlyCompletes := by
  refine ⟨rfl, ?completes⟩
  case completes =>
    intro s
    rw [exec, execNop, runCommand_ok]
    rfl

end Sys2Proof.Proofs
end

section
/-! SUPPORT. The statement about failed commands (60_exceptions.md R364): a command that completes leaves ERR as it was
(10_state.md R37), so an ERR that has become nonzero was raised, and raising changes nothing else. -/

namespace Sys2Proof.Proofs

open Sys2Proof.Machine Sys2Proof.Safety Sys2Proof.Laws

/-! ### What a pseudocode that returns has returned -/

/-- If the pseudocode `r` returns, the state with its writes satisfies `P`; of a raise or a stop it says nothing. -/
def ReturnsOnly (P : State → Prop) (r : Except Stop State) : Prop := ∀ u, r = .ok u → P u

section
variable {P : State → Prop}

theorem ReturnsOnly.ok {u : State} (h : P u) : ReturnsOnly P (.ok u) := by
  rintro _ ⟨⟩
  exact h

theorem ReturnsOnly.error (e : Stop) : ReturnsOnly P (.error e) := nofun

/-- Whatever an operand check or a reading answers, only what follows it returns. -/
theorem ReturnsOnly.bind {α : Type} {x : Except Stop α} {f : α → Except Stop State}
    (h : ∀ a, ReturnsOnly P (f a)) : ReturnsOnly P (x >>= f) := by
  intro u hu
  obtain ⟨a, -, ha⟩ := bind_ok hu
  exact h a u ha

theorem ReturnsOnly.ite {c : Prop} [Decidable c] {r r' : Except Stop State} (h : ReturnsOnly P r)
    (h' : ReturnsOnly P r') : ReturnsOnly P (if c then r else r') := by
  split
  · exact h
  · exact h'

end

/-! ### Completion leaves ERR -/

/-- ERR in the state `u` is as in `s`. -/
def SameErr (s u : State) : Prop := u.status.err = s.status.err

/-- No command's own writes touch ERR. The commands are grouped by how many checks and readings come before the writes;
the two corrections also choose between them. -/
theorem exec_returns_sameErr (s : State) :
    ∀ i : Instr, ∃ r, exec i s = runCommand s r ∧ ReturnsOnly (SameErr s) r
  | .nop => ⟨_, rfl, .ok rfl⟩
  | .gfPow | .gfExp | .gfLog | .rsGenpoly | .geoSelect | .geoLookup | .geoInfo | .gridInit =>
    ⟨_, rfl, .bind fun _ => .ok rfl⟩
  | .gfAdd | .gfMul | .rsEncode | .rsSyndrome | .geoClassify | .placeWrite | .placeRead | .placeMap | .placeUnmap =>
    ⟨_, rfl, .bind fun _ => .bind fun _ => .ok rfl⟩
  | .gfDiv | .rsLocator | .rsChien => ⟨_, rfl, .bind fun _ => .bind fun _ => .bind fun _ => .ok rfl⟩
  | .rsForney => ⟨_, rfl, .bind fun _ => .bind fun _ => .bind fun _ => .bind fun _ => .ok rfl⟩
  | .rsCorrect => by
    refine ⟨_, rfl, .bind fun _ => .bind fun _ => .ite (.ok rfl) ?_⟩
    split
    · exact .error _
    · exact .ok rfl
  | .rsCorrectBitflip => by
    refine ⟨_, rfl, .bind fun _ => .bind fun _ => .ite (.ok rfl) ?_⟩
    split
    · exact .error _
    · exact .ok rfl

/-- A command that answers a next state has completed with ERR as it was, or has ended as one raised error ends. -/
theorem exec_next_sameErr_or_afterError {i : Instr} {s t : State} (h : exec i s = .next t) :
    SameErr s t ∨ ∃ k, t = afterError s k := by
  obtain ⟨r, hrun, hret⟩ := exec_returns_sameErr s i
  obtain ⟨u, hr, rfl⟩ | ⟨k, -, rfl⟩ := runCommand_next (hrun.symm.trans h)
  · exact .inl (hret u hr)
  · exact .inr ⟨k, rfl⟩

/-! ### The statement about failed commands -/

/-- Settles O18: ERR was 0 and is not, so the command has not completed. -/
theorem failedCommandChangesOnlyStatus : Obligations.FailedCommandChangesOnlyStatus :=
  fun _ _ _ herr h hne => (exec_next_sameErr_or_afterError h).resolve_left fun hsame => hne (hsame.trans herr)

end Sys2Proof.Proofs
end

section
/-! SUPPORT. The statements about the state after reset and about host accesses while a command runs
(70_reset_and_hazards.md R400, R410, R411). -/

namespace Sys2Proof.Proofs

open Sys2Proof.Machine Sys2Proof.Safety Sys2Proof.Laws

/-! ### The state after reset -/

@[simp] theorem readReg_reset (r : RegId) : State.reset.readReg r = 0 := by cases r <;> rfl

@[simp] theorem elem_memory_reset (b : BufId) (i : Nat) : Memory.reset.elem b i = none := by cases b <;> rfl

/-! ### A host read while a command runs -/

/-- R411: while BUSY = 1 a read of STATUS answers its value and any other read answers 0, an element without a value
included. -/
theorem hostRead_busy {s : State} (hb : s.status.busy = true) (t : Target) :
    hostRead s t = .ok (if t = .reg .status then s.status.word else 0) := by
  cases t with
  | reg r => cases r <;> simp [hostRead, hb]
  | elem b i => simp [hostRead, hb]

/-! ### The statements -/

/-- Settles O6: the registers and the memories of the reset state, one by one. -/
theorem resetClearsRegistersAndValues : Obligations.ResetClearsRegistersAndValues :=
  ⟨readReg_reset, rfl, rfl, elem_memory_reset⟩

/-- Settles O14: a valid target is mapped, and `hostWrite` looks at nothing but BUSY. -/
theorem writeWhileBusyIsDropped : Obligations.WriteWhileBusyIsDropped :=
  fun _ _ _ _ _ _ hp hb hw ht hi => step_waiting_write hp hb hw ht hi

/-- Settles O15: a valid target is mapped, and the read has an answer whatever the target holds. -/
theorem readWhileBusyAnswersZero : Obligations.ReadWhileBusyAnswersZero := by
  intro s w k t rest hp hb hw ht hi
  rw [step_waiting hp hw]
  exact hostStep_read (s := { s with wait := k }) hi (targetAt_addr ht) (hostRead_busy hb t)

end Sys2Proof.Proofs
end

section
/-! SUPPORT. The statement that every accepted command completes (70_reset_and_hazards.md R418). While the command
waits, each host operation only moves the model's own fields and HAZ, so the engine comes to its step with the registers
and memories of the accepted write; its step ends the command and leaves the host's operations to the host. -/

namespace Sys2Proof.Proofs

open Sys2Proof.Machine Sys2Proof.Safety Sys2Proof.Laws

/-! ### Steps in a row -/

theorem run_one (M : Host.Core) (s : M.State) : M.run 1 s = M.step s := by
  simp only [Host.Core.run]
  cases M.step s <;> rfl

theorem run_succ_of_step {M : Host.Core} {n : Nat} {s t : M.State} (h : M.step s = .next t) :
    M.run (n + 1) s = M.run n t := by
  simp only [Host.Core.run, h]

/-- One step more, at the end of a run that has answered a next state. -/
theorem run_succ_of_run {M : Host.Core} {n : Nat} {s t : M.State} (h : M.run n s = .next t) :
    M.run (n + 1) s = M.step t := by
  induction n generalizing s with
  | zero =>
    cases h
    exact run_one M _
  | succ n ih =>
    cases hs : M.step s with
    | next s' => exact (run_succ_of_step hs).trans (ih ((run_succ_of_step hs).symm.trans h))
    | fault f => simp [Host.Core.run, hs] at h
    | refused r => simp [Host.Core.run, hs] at h

/-! ### The host while a command waits -/

/-- The operations left after one host move while BUSY = 1: a poll reads BUSY = 1 and stays, any other is issued. -/
def leftWhileBusy : List Input → List Input
  | .poll :: rest => .poll :: rest
  | ops => ops.tail

/-- What the host can have changed in `s` before the engine's step: HAZ and the model's own fields. -/
def waited (s : State) (n : Nat) (haz : Bool) (ops : List Input) (answers : List Reply) : State :=
  { s with status := { s.status with haz := haz }, wait := n, inputs := ops, replies := answers }

theorem waited_eq_self {s : State} {n : Nat} {ops : List Input} (hw : s.wait = n) (hi : s.inputs = ops) :
    waited s n s.status.haz ops s.replies = s := by
  subst hw hi
  rfl

theorem hostStep_nil {s : State} (hi : s.inputs = []) : hostStep s = .next s := by
  simp [hostStep, hi]

theorem hostStep_poll {s : State} {rest : List Input} (hi : s.inputs = .poll :: rest) :
    hostStep s = .next { s with
      inputs := if s.status.busy then .poll :: rest else rest
      replies := .readOk (Target.reg .status).addr s.status.word :: s.replies } := by
  simp [hostStep, hi]

/-- R410, R411: a harmless operation while BUSY = 1 is answered. -/
theorem hostStep_harmless {s : State} (hb : s.status.busy = true) (hh : ∀ x ∈ s.inputs.head?, harmless x) :
    ∃ haz answers, hostStep s = .next (waited s s.wait haz (leftWhileBusy s.inputs) answers) := by
  cases hi : s.inputs with
  | nil => exact ⟨_, _, (hostStep_nil hi).trans (congrArg _ (waited_eq_self rfl hi).symm)⟩
  | cons x rest =>
    have hx : harmless x := hh x (by simp [hi])
    cases x with
    | reset => exact hx.elim
    | poll => exact ⟨_, _, by rw [hostStep_poll hi, if_pos hb]; rfl⟩
    | read a =>
      obtain ⟨t, ht⟩ := Option.ne_none_iff_exists'.mp hx
      exact ⟨_, _, hostStep_read hi ht (hostRead_busy hb t)⟩
    | write a v =>
      obtain ⟨t, ht⟩ := Option.ne_none_iff_exists'.mp hx
      exact ⟨_, _, by rw [hostStep_write hi ht, hostWrite_busy hb]; rfl⟩

/-- The next `n` moves of the host while BUSY = 1 are all harmless. -/
def HarmlessFor : Nat → List Input → Prop
  | 0, _ => True
  | n + 1, ops => (∀ x ∈ ops.head?, harmless x) ∧ HarmlessFor n (leftWhileBusy ops)

/-- A move takes at most one operation, so `n` moves reach no further than the first `n`. -/
theorem harmlessFor_of_take {n : Nat} {ops : List Input} (h : ∀ x ∈ ops.take n, harmless x) :
    HarmlessFor n ops := by
  induction n generalizing ops with
  | zero => trivial
  | succ n ih =>
    cases ops with
    | nil => exact ⟨by simp, ih (by simp [leftWhileBusy])⟩
    | cons x rest =>
      obtain ⟨hx, hrest⟩ := List.forall_mem_cons.mp h
      refine ⟨by simpa using hx, ih ?_⟩
      cases x with
      | poll => exact fun y hy => h y (List.take_subset_take_left _ n.le_succ hy)
      | _ => exact hrest

/-- A polling host goes no further than its poll. -/
theorem harmlessFor_poll (n : Nat) (rest : List Input) : HarmlessFor n (.poll :: rest) := by
  induction n with
  | zero => trivial
  | succ n ih => exact ⟨by simp [harmless], ih⟩

theorem leftWhileBusy_iterate_poll (n : Nat) (rest : List Input) :
    leftWhileBusy^[n] (.poll :: rest) = .poll :: rest :=
  Function.iterate_fixed (f := leftWhileBusy) rfl n

/-- R417: when the latency has run out nothing has changed but HAZ and the model's own fields. -/
theorem run_wait {n : Nat} {s : State} {w : Word} (hp : s.pending = some w) (hb : s.status.busy = true)
    (hw : s.wait = n) (hh : HarmlessFor n s.inputs) :
    ∃ haz answers, Host.Core.run core n s = .next (waited s 0 haz (leftWhileBusy^[n] s.inputs) answers) := by
  induction n generalizing s with
  | zero => exact ⟨_, _, congrArg _ (waited_eq_self hw rfl).symm⟩
  | succ n ih =>
    obtain ⟨hhead, hrest⟩ := hh
    obtain ⟨haz, answers, hmove⟩ := hostStep_harmless (s := { s with wait := n }) hb hhead
    have hstep : step s = .next (waited s n haz (leftWhileBusy s.inputs) answers) := (step_waiting hp hw).trans hmove
    obtain ⟨haz', answers', hrun⟩ := ih (s := waited s n haz (leftWhileBusy s.inputs) answers) hp hb rfl hrest
    exact ⟨haz', answers', (run_succ_of_step (M := core) hstep).trans hrun⟩

/-! ### The engine's step -/

/-- `u` is `s` with other registers, memories and flags SYNZ and CORR. -/
def SameButWrites (s u : State) : Prop :=
  ∃ g z c m, u = { s with regs := g, status := { s.status with synz := z, corr := c }, mem := m }

theorem SameButWrites.inputs_eq {s u : State} (h : SameButWrites s u) : u.inputs = s.inputs := by
  obtain ⟨g, z, c, m, rfl⟩ := h
  rfl

/-- All that a command writes before it completes is registers, memories and the flags SYNZ and CORR. The commands are
grouped as in `exec_returns_sameErr`. -/
theorem exec_returns_sameButWrites (s : State) :
    ∀ i : Instr, ∃ r, exec i s = runCommand s r ∧ ReturnsOnly (SameButWrites s) r
  | .nop => ⟨_, rfl, .ok ⟨_, _, _, _, rfl⟩⟩
  | .gfPow | .gfExp | .gfLog | .rsGenpoly | .geoSelect | .geoLookup | .geoInfo | .gridInit =>
    ⟨_, rfl, .bind fun _ => .ok ⟨_, _, _, _, rfl⟩⟩
  | .gfAdd | .gfMul | .rsEncode | .rsSyndrome | .geoClassify | .placeWrite | .placeRead | .placeMap | .placeUnmap =>
    ⟨_, rfl, .bind fun _ => .bind fun _ => .ok ⟨_, _, _, _, rfl⟩⟩
  | .gfDiv | .rsLocator | .rsChien => ⟨_, rfl, .bind fun _ => .bind fun _ => .bind fun _ => .ok ⟨_, _, _, _, rfl⟩⟩
  | .rsForney => ⟨_, rfl, .bind fun _ => .bind fun _ => .bind fun _ => .bind fun _ => .ok ⟨_, _, _, _, rfl⟩⟩
  | .rsCorrect | .rsCorrectBitflip => by
    refine ⟨_, rfl, .bind fun _ => .bind fun _ => .ite (.ok ⟨_, _, _, _, rfl⟩) ?_⟩
    split
    · exact .error _
    · exact .ok ⟨_, _, _, _, rfl⟩

/-- R37: in `u` the command of `s` has ended, and the host has moved no further. -/
structure Ended (s u : State) : Prop where
  pending_eq : u.pending = none
  not_busy : u.status.busy = false
  done : u.status.done = true
  inputs_eq : u.inputs = s.inputs

theorem ended_raiseError (s : State) (k : ErrorKind) : Ended s (s.raiseError k) := ⟨rfl, rfl, rfl, rfl⟩

theorem exec_ended_or_unwritten (i : Instr) (s : State) :
    (∃ u, exec i s = .next u ∧ Ended s u) ∨ ∃ b j, exec i s = .fault (.unwrittenRead b j) := by
  obtain ⟨r, hexec, hret⟩ := exec_returns_sameButWrites s i
  rw [hexec]
  rcases runCommand_cases s r with ⟨u, hr, hrun⟩ | ⟨k, -, hrun⟩ | ⟨b, j, -, hrun⟩
  · exact .inl ⟨_, hrun, rfl, rfl, rfl, (hret u hr).inputs_eq⟩
  · exact .inl ⟨_, hrun, ended_raiseError s k⟩
  · exact .inr ⟨b, j, hrun⟩

/-- R37, R103: the engine's step ends the command, an illegal one too, or stops at an element without a value. -/
theorem engineStep_ended_or_unwritten (w : Word) (s : State) :
    (∃ u, engineStep w s = .next u ∧ Ended s u) ∨ ∃ b i, engineStep w s = .fault (.unwrittenRead b i) := by
  rcases engineStep_cases w s with ⟨i, -, hi⟩ | ⟨e, -, he⟩
  · rw [hi]
    exact exec_ended_or_unwritten i s
  · exact .inl ⟨_, he, ended_raiseError s .illegalCommand⟩

/-- The step after a run that leaves the engine's step due. -/
theorem run_ended_or_unwritten {n : Nat} {s t : State} {w : Word} (hrun : Host.Core.run core n s = .next t)
    (hp : t.pending = some w) (hw : t.wait = 0) :
    (∃ u, Host.Core.run core (n + 1) s = .next u ∧ Ended t u) ∨
      ∃ b i, Host.Core.run core (n + 1) s = .fault (.unwrittenRead b i) := by
  rw [(run_succ_of_run hrun).trans (step_engine hp hw)]
  exact engineStep_ended_or_unwritten w t

/-- A poll after the end of the command reads BUSY = 0, and the host goes on. -/
theorem step_poll_of_ended {s u : State} {rest : List Input} (hu : Ended s u) (hi : s.inputs = .poll :: rest) :
    ∃ u' v, step u = .next u' ∧ u'.inputs = rest ∧
      u'.replies.head? = some (.readOk 0x00004#20 v) ∧ v.getLsbD 0 = false :=
  ⟨_, u.status.word, (step_pending_none hu.pending_eq).trans (hostStep_poll (hu.inputs_eq.trans hi)),
    by simp [hu.not_busy], rfl, (status_word_busy u.status).trans hu.not_busy⟩

/-! ### The statement -/

/-- Settles O24: the host's moves while the command waits, by induction on the latency, then the engine's step, then the
poll that was waiting for it. -/
theorem everyAcceptedCommandCompletes : Obligations.EveryAcceptedCommandCompletes := by
  intro s w hp hb
  refine ⟨fun hharmless => ?completes, fun rest hi => ?polled⟩
  case completes =>
    obtain ⟨haz, answers, hrun⟩ := run_wait hp hb rfl (harmlessFor_of_take hharmless)
    refine ⟨⟨_, hrun, rfl, hp, rfl, rfl, step_engine hp rfl⟩, ?_⟩
    exact (run_ended_or_unwritten hrun hp rfl).imp_left fun ⟨u, hu, hend⟩ =>
      ⟨u, hu, hend.pending_eq, hend.not_busy, hend.done⟩
  case polled =>
    obtain ⟨haz, answers, hrun⟩ := run_wait hp hb rfl (hi ▸ harmlessFor_poll s.wait rest)
    have hleft : leftWhileBusy^[s.wait] s.inputs = .poll :: rest := hi ▸ leftWhileBusy_iterate_poll s.wait rest
    refine (run_ended_or_unwritten hrun hp rfl).imp_left fun ⟨u, hu, hend⟩ => ?_
    obtain ⟨u', v, hpoll, hread⟩ := step_poll_of_ended hend hleft
    exact ⟨u', v, (run_succ_of_run hu).trans hpoll, hread⟩

end Sys2Proof.Proofs
end

section
/-! SUPPORT. The decoder and the encoder against each other on every word, and the engine's step of a word that decodes
(30_encoding.md R100, R101). -/

namespace Sys2Proof.Proofs

open Sys2Proof.Machine Sys2Proof.Safety Sys2Proof.Laws

theorem decode_encode (i : Instr) : decode (encode i) = .ok i := by
  cases i <;> rfl

/-- Settles O2: the decoder reads each command back from its encoding, and a word that it reads is the encoding of what
it answers. -/
theorem decodeInvertsEncodeOnEveryWord : Obligations.DecodeInvertsEncodeOnEveryWord := by
  refine fun w i => ⟨eq_encode_of_decode, ?_⟩
  rintro rfl
  exact decode_encode i

/-- Settles O4: with no latency left the step is the engine's, which decodes first. -/
theorem stepRunsTheDecodedCommand : Obligations.StepRunsTheDecodedCommand := by
  intro s w i hp hw hi
  rw [step_engine hp hw, engineStep, hi]

end Sys2Proof.Proofs
end

section
/-! SUPPORT. The remainder of the division by the generator: the division keeps the value at each root, so data and
remainder together are 0 there (41_rs_encode.md R171 to R173). -/

namespace Sys2Proof.Proofs

open Sys2Proof.Machine Sys2Proof.Safety Sys2Proof.Laws

/-! ### Addition of bytes, with 0 as the numeral that the model writes -/

theorem byte_xor_zero (a : Byte) : a ^^^ 0 = a := BitVec.xor_zero

theorem byte_zero_xor (a : Byte) : 0 ^^^ a = a := BitVec.zero_xor

theorem byte_xor_self (a : Byte) : a ^^^ a = 0 := BitVec.xor_self

theorem byte_xor_eq_zero_iff {a b : Byte} : a ^^^ b = 0 ↔ a = b := BitVec.xor_eq_zero_iff

/-! ### Horner's rule on parts of a polynomial -/

theorem hornerFrom_append (x v : Byte) (p q : List Byte) :
    hornerFrom x v (p ++ q) = hornerFrom x (hornerFrom x v p) q := by
  simp only [← foldl_eq_hornerFrom, List.foldl_append]

theorem hornerFrom_zero_cons (x c : Byte) (p : List Byte) : hornerFrom x 0 (c :: p) = hornerFrom x c p := by
  rw [hornerFrom, zero_gmul, byte_zero_xor]

theorem hornerFrom_zeros (x : Byte) (n : Nat) : hornerFrom x 0 (List.replicate n 0) = 0 := by
  induction n with
  | zero => rfl
  | succ n ih => rw [List.replicate_succ, hornerFrom_zero_cons, ih]

theorem hornerFrom_map_gmul (x v c : Byte) (p : List Byte) :
    hornerFrom x (gmul v c) (p.map fun g => gmul g c) = gmul (hornerFrom x v p) c := by
  induction p generalizing v with
  | nil => rfl
  | cons g p ih => rw [List.map_cons, hornerFrom, gmul_right_comm, ← xor_gmul, ih, hornerFrom]

/-- A polynomial with `w` added to the value reached so far: `w` alone is carried through zeros. -/
theorem hornerFrom_xor_zeros (x v w : Byte) (m : List Byte) :
    hornerFrom x (v ^^^ w) m = hornerFrom x v m ^^^ hornerFrom x w (List.replicate m.length 0) := by
  induction m generalizing v w with
  | nil => rfl
  | cons c m ih =>
    have hstep : gmul (v ^^^ w) x ^^^ c = (gmul v x ^^^ c) ^^^ (gmul w x ^^^ 0) := by
      rw [xor_gmul, byte_xor_zero]
      ac_rfl
    rw [hornerFrom, hstep, ih, List.length_cons, List.replicate_succ]
    rfl

/-- The value of a sum of two polynomials, the second continued by zeros. -/
theorem hornerFrom_xorFront (x v w : Byte) {p m : List Byte} (h : p.length ≤ m.length) :
    hornerFrom x (v ^^^ w) (xorFront p m) =
      hornerFrom x v m ^^^ hornerFrom x w (p ++ List.replicate (m.length - p.length) 0) := by
  induction p generalizing v w m with
  | nil => exact hornerFrom_xor_zeros x v w m
  | cons a p ih =>
    cases m with
    | nil => cases h
    | cons c m =>
      have hstep : gmul (v ^^^ w) x ^^^ (c ^^^ a) = (gmul v x ^^^ c) ^^^ (gmul w x ^^^ a) := by
        rw [xor_gmul]
        ac_rfl
      rw [xorFront, hornerFrom, hstep, ih _ _ (Nat.le_of_succ_le_succ h), List.length_cons, List.length_cons,
        Nat.add_sub_add_right]
      rfl

/-! ### The division -/

/-- Taking a leading value `c` off with the multiple `c` of a polynomial that is 0 at `x` keeps the value at `x`. -/
theorem hornerFrom_eliminate {x : Byte} {g : List Byte} (hroot : hornerFrom x 1 g = 0) (c : Byte) {m : List Byte}
    (h : g.length ≤ m.length) : hornerFrom x 0 (xorFront (g.map fun a => gmul a c) m) = hornerFrom x c m := by
  have hmultiple : hornerFrom x c (g.map fun a => gmul a c) = 0 := by
    have hscaled := hornerFrom_map_gmul x 1 c g
    rwa [one_gmul, hroot, zero_gmul] at hscaled
  have hsum := hornerFrom_xorFront x c c (p := g.map fun a => gmul a c) (m := m) (by rwa [List.length_map])
  rwa [byte_xor_self, hornerFrom_append, hmultiple, hornerFrom_zeros, byte_xor_zero] at hsum

/-- R171's loop keeps the value at every root of the generator. -/
theorem hornerFrom_longDivision {x : Byte} {g : List Byte} (hroot : hornerFrom x 1 g = 0) {k : Nat} {m : List Byte}
    (h : k + g.length ≤ m.length) : hornerFrom x 0 (longDivision g k m) = hornerFrom x 0 m := by
  induction k generalizing m with
  | zero => rfl
  | succ k ih =>
    cases m with
    | nil => simp at h
    | cons c m =>
      rw [List.length_cons] at h
      rw [longDivision, hornerFrom_zero_cons]
      split_ifs with hc
      · rw [ih (by omega), hc]
      · rw [ih (by rw [xorFront_length]; omega), hornerFrom_eliminate hroot c (by omega)]

/-! ### The encoded message -/

/-- R170: α^1, ..., α^nsym are the roots of the generator. -/
theorem pevalHi_genpoly_root {n i : Nat} (h1 : 1 ≤ i) (hn : i ≤ n) : pevalHi (genpoly n) (alphaPow i) = 0 := by
  induction n with
  | zero => omega
  | succ n ih =>
    rw [genpoly, pevalHi_mulRoot]
    obtain rfl | hlt := hn.eq_or_lt
    · rw [byte_xor_self, gmul_zero]
    · rw [ih (Nat.le_of_lt_succ hlt), zero_gmul]

theorem hornerFrom_genpoly_tail {n i : Nat} (h1 : 1 ≤ i) (hn : i ≤ n) :
    hornerFrom (alphaPow i) 1 (genpoly n).tail = 0 := by
  obtain ⟨g, hg⟩ := List.head?_eq_some_iff.1 (genpoly_head? n)
  have hroot := pevalHi_genpoly_root h1 hn
  rw [pevalHi_eq_hornerFrom, hg, hornerFrom_zero_cons] at hroot
  rwa [hg]

/-- The remainder agrees with the data followed by zeros at each root, and an equal value added cancels (R173). -/
theorem isCodeword_append_rsRemainder (d : List Byte) (nsym : Nat) : IsCodeword (d ++ rsRemainder d nsym) nsym := by
  intro i h1 hn
  have hdivision : hornerFrom (alphaPow i) 0 (rsRemainder d nsym) =
      hornerFrom (alphaPow i) 0 (d ++ List.replicate nsym 0) :=
    hornerFrom_longDivision (hornerFrom_genpoly_tail h1 hn) (by simp)
  have hsum := hornerFrom_xor_zeros (alphaPow i) 0 (hornerFrom (alphaPow i) 0 d) (rsRemainder d nsym)
  rw [byte_zero_xor, rsRemainder_length, hdivision, hornerFrom_append, byte_xor_self] at hsum
  rwa [syndrome_eq_hornerFrom, hornerFrom_append]

theorem syndromes_of_isCodeword {m : List Byte} {nsym : Nat} (h : IsCodeword m nsym) :
    syndromes m nsym = List.replicate nsym 0 := by
  refine List.eq_replicate_iff.2 ⟨syndromes_length m nsym, fun v hv => ?_⟩
  obtain ⟨i, hi, rfl⟩ := List.mem_map.1 hv
  exact h (i + 1) (by omega) (List.mem_range.1 hi)

/-- Settles O37: what RS_ENCODE leaves in MSG is the data with its remainder, and RS_SYNDROME reads it back. -/
theorem encodedMessagesHaveZeroSyndromes : Obligations.EncodedMessagesHaveZeroSyndromes := by
  refine ⟨isCodeword_append_rsRemainder, fun s d hr hlen hd => ?_⟩
  have hcode := isCodeword_append_rsRemainder d s.regs.nsym.toNat
  have hmsg := holds_append_writeRange hd (rsRemainder d s.regs.nsym.toNat)
  rw [Nat.zero_add] at hmsg
  have hmlen : (d ++ rsRemainder d s.regs.nsym.toNat).length = s.regs.len.toNat := by
    obtain ⟨-, -, hle, -⟩ := hr
    rw [List.length_append, rsRemainder_length]
    omega
  refine ⟨_, _, exec_rsEncode hr hlen hd, exec_rsSyndrome hr hmlen hmsg, (allZero_syndromes_iff _ _).2 hcode, rfl, ?_⟩
  rw [← syndromes_of_isCodeword hcode]
  exact holds_writeRange _ _ _

end Sys2Proof.Proofs
end

section
/-! SUPPORT. The law of the placement: the modules that PLACE_WRITE leaves pack to the codewords it read
(44_placement.md R294). -/

namespace Sys2Proof.Proofs

open Sys2Proof.Machine Sys2Proof.Safety Sys2Proof.Laws

/-- R291: in every entry the interior has room for all bits of the codewords, so all of them are placed. -/
theorem budget_le_interior_sizeAt {i : Nat} (hi : i ≤ 29) : (sizeAt i).budget ≤ (sizeAt i).interior := by
  have htable : ∀ a < 30, (sizeAt a).budget ≤ (sizeAt a).interior := by decide
  exact htable i (by omega)

/-- Bit k of the stream of the codewords `d` (R290). -/
def streamBool (d : List Byte) (k : Nat) : Bool := (d.getD (k / 8) 0).getLsbD (7 - k % 8)

theorem streamBit_eq_ofBool (d : List Byte) (k : Nat) : streamBit d k = BitVec.ofBool (streamBool d k) := rfl

/-- Packing the bits of codeword i gives codeword i back. -/
theorem packedCodeword_streamBool {e : SymbolSize} {d : List Byte} {i : Nat} (hin : 8 * i + 8 ≤ e.interior) :
    packedCodeword e (streamBool d) i = d.getD i 0 := by
  refine BitVec.eq_of_getLsbD_eq fun k hk => ?_
  have hbit := getLsbD_packedCodeword e (streamBool d) i (j := 7 - k) (by omega)
  rwa [show 7 - (7 - k) = k by omega, interiorBit, decide_eq_true (by omega), Bool.true_and, streamBool,
    show (8 * i + (7 - k)) / 8 = i by omega, show 7 - (8 * i + (7 - k)) % 8 = k by omega] at hbit

/-- The run of codewords that PLACE_READ packs from the stream of `d` is `d`. -/
theorem map_packedCodeword_streamBool {e : SymbolSize} {d : List Byte} (hlen : d.length = e.codewords)
    (hin : e.budget ≤ e.interior) : (List.range e.codewords).map (packedCodeword e (streamBool d)) = d := by
  refine List.ext_getElem (by simp [hlen]) fun i h1 h2 => ?_
  rw [SymbolSize.budget] at hin
  rw [List.getElem_map, List.getElem_range, packedCodeword_streamBool (by omega), List.getD_eq_getElem _ _ h2]

/-- The interior modules after PLACE_WRITE, below the bit budget. -/
theorem read_placeBits_sizeAt {i : Nat} (hi : i ≤ 29) (d : List Byte) (g : Buffer 1) {k : Nat}
    (hk : k < (sizeAt i).budget) :
    Buffer.read (placeBits (sizeAt i) d 0 (sizeAt i).placed g) (placeIndex (sizeAt i) k) =
      some (BitVec.ofBool (streamBool d k)) := by
  have hplaced : (sizeAt i).placed = (sizeAt i).budget := Nat.min_eq_left (budget_le_interior_sizeAt hi)
  have hin := budget_le_interior_sizeAt hi
  exact read_placeBits d
    (fun a b ha hb => placeIndex_inj (evenDims_sizeAt hi) (cols_sizeAt_le hi) (by omega) (by omega)) k.zero_le
    (by omega)

/-- R294: PLACE_READ on a grid that holds the stream of `d` writes `d`. -/
theorem exec_placeRead_stream {u : State} {d : List Byte} (hs : u.regs.sizeIdx.toNat ≤ 29)
    (hlen : d.length = (sizeAt u.regs.sizeIdx.toNat).codewords)
    (hgrid : ∀ k < (sizeAt u.regs.sizeIdx.toNat).budget,
      Buffer.read u.mem.grid (placeIndex (sizeAt u.regs.sizeIdx.toNat) k) = some (BitVec.ofBool (streamBool d k))) :
    exec .placeRead u = .next (afterSuccess u u.regs u.status
      { u.mem with msg := Buffer.writeRange u.mem.msg 0 d }) := by
  rw [exec_placeRead hs fun k hk _ => hgrid k hk, map_packedCodeword_streamBool hlen (budget_le_interior_sizeAt hs)]

/-- Settles O57: every bit of the message is placed, in a module of its own, and read back from there. -/
theorem placeReadUndoesPlaceWrite : Obligations.PlaceReadUndoesPlaceWrite := by
  intro s d hs hlen hd
  refine ⟨_, exec_placeWrite hs hlen hd, fun u hsize hgrid => ⟨_, exec_placeRead_stream (d := d) ?_ ?_ ?_,
    holds_writeRange _ _ _⟩⟩
  · rwa [hsize]
  · rwa [hsize]
  · intro k hk
    rw [hsize] at hk ⊢
    rw [hgrid]
    exact read_placeBits_sizeAt hs d _ hk

end Sys2Proof.Proofs
end

section
/-! SUPPORT. Sums in the field, written as the model's loops run them, and what follows for the syndromes: Horner's
rule is the sum of R172 (41_rs_encode.md section 1). -/

namespace Sys2Proof.Proofs

open Sys2Proof.Machine Sys2Proof.Safety Sys2Proof.Laws

/-! ### Sums -/

/-- The sum of `f 0`, ..., `f (n-1)` in the field. -/
def xorSum (f : Nat → Byte) : Nat → Byte
  | 0 => 0
  | n + 1 => xorSum f n ^^^ f n

theorem foldl_range_eq_xorSum (f : Nat → Byte) (v : Byte) (n : Nat) :
    (List.range n).foldl (fun r k => r ^^^ f k) v = v ^^^ xorSum f n := by
  induction n with
  | zero => exact (byte_xor_zero v).symm
  | succ n ih => rw [List.range_succ, List.foldl_append, ih, xorSum, List.foldl_cons, List.foldl_nil, BitVec.xor_assoc]

theorem foldl_range_zero_eq_xorSum (f : Nat → Byte) (n : Nat) :
    (List.range n).foldl (fun r k => r ^^^ f k) 0 = xorSum f n := by
  rw [foldl_range_eq_xorSum, byte_zero_xor]

theorem xorSum_congr {f g : Nat → Byte} {n : Nat} (h : ∀ k < n, f k = g k) : xorSum f n = xorSum g n := by
  induction n with
  | zero => rfl
  | succ n ih => rw [xorSum, xorSum, ih fun k hk => h k (by omega), h n (by omega)]

theorem xorSum_eq_zero {f : Nat → Byte} {n : Nat} (h : ∀ k < n, f k = 0) : xorSum f n = 0 := by
  induction n with
  | zero => rfl
  | succ n ih => rw [xorSum, ih fun k hk => h k (by omega), h n (by omega), byte_xor_zero]

theorem xorSum_xor (f g : Nat → Byte) (n : Nat) : xorSum (fun k => f k ^^^ g k) n = xorSum f n ^^^ xorSum g n := by
  induction n with
  | zero => exact (byte_xor_self 0).symm
  | succ n ih =>
    simp only [xorSum, ih]
    ac_rfl

theorem xorSum_gmul (f : Nat → Byte) (c : Byte) (n : Nat) : xorSum (fun k => gmul (f k) c) n = gmul (xorSum f n) c := by
  induction n with
  | zero => exact (zero_gmul c).symm
  | succ n ih => rw [xorSum, xorSum, ih, xor_gmul]

/-- A sum taken in two parts. -/
theorem xorSum_add (f : Nat → Byte) (m n : Nat) : xorSum f (m + n) = xorSum f m ^^^ xorSum (fun k => f (m + k)) n := by
  induction n with
  | zero => exact (byte_xor_zero _).symm
  | succ n ih => rw [← Nat.add_assoc, xorSum, ih, xorSum, BitVec.xor_assoc]

theorem xorSum_succ_front (f : Nat → Byte) (n : Nat) : xorSum f (n + 1) = f 0 ^^^ xorSum (fun k => f (k + 1)) n := by
  rw [Nat.add_comm, xorSum_add, xorSum, xorSum, byte_zero_xor]
  simp only [Nat.add_comm 1]

/-- A sum whose terms below `m` are 0. -/
theorem xorSum_skip {f : Nat → Byte} {m : Nat} (h : ∀ k < m, f k = 0) (n : Nat) :
    xorSum f (m + n) = xorSum (fun k => f (m + k)) n := by
  rw [xorSum_add, xorSum_eq_zero h, byte_zero_xor]

/-- A sum whose terms from `m` on are 0. -/
theorem xorSum_stop {f : Nat → Byte} {m n : Nat} (h : ∀ k < n, f (m + k) = 0) : xorSum f (m + n) = xorSum f m := by
  rw [xorSum_add, xorSum_eq_zero h, byte_xor_zero]

/-! ### Powers of a power of α -/

theorem alphaPow_mod (e : Nat) : alphaPow (e % 255) = alphaPow e := by
  rw [alphaPow, alphaPow, Nat.mod_mod]

theorem gpow_alphaPow (e n : Nat) : gpow (alphaPow e) n = alphaPow (e * n) := by
  rw [gpow_of_ne (alphaPow_ne_zero e), glog_alphaPow, alphaPow, Nat.mod_mul_mod]

/-! ### Horner's rule as a sum -/

/-- The value of a polynomial stored high-order first is the sum over its coefficients from the last one. -/
theorem hornerFrom_eq_xorSum (i : Nat) (m : List Byte) :
    hornerFrom (alphaPow i) 0 m = xorSum (fun j => gmul (m.reverse.getD j 0) (alphaPow (i * j))) m.length := by
  induction m with
  | nil => rfl
  | cons c m ih =>
    have hlast : (c :: m).reverse.getD m.length 0 = c := by simp
    have hrest : xorSum (fun j => gmul ((c :: m).reverse.getD j 0) (alphaPow (i * j))) m.length =
        xorSum (fun j => gmul (m.reverse.getD j 0) (alphaPow (i * j))) m.length :=
      xorSum_congr fun j hj => by rw [List.reverse_cons, List.getD_append _ _ _ _ (by simpa using hj)]
    have hvalue := hornerFrom_xor i 0 c m
    rw [byte_zero_xor] at hvalue
    rw [hornerFrom_zero_cons, hvalue, ih, List.length_cons, xorSum, hlast, hrest]

/-- Settles O39: one more codeword in front adds the highest power's term. -/
theorem hornerSyndromeIsTheSum : Obligations.HornerSyndromeIsTheSum := by
  intro m i
  simp only [gpow_alphaPow]
  rw [foldl_range_zero_eq_xorSum, syndrome_eq_hornerFrom, hornerFrom_eq_xorSum]

end Sys2Proof.Proofs
end

section
/-! SUPPORT. The statement that the field functions are the field GF(2)[x] modulo 0x12D (40_gf256.md section 3, R136 to
R139). -/

namespace Sys2Proof.Proofs

open Sys2Proof.Machine Sys2Proof.Safety Sys2Proof.Laws

/-! ### Powers -/

theorem alphaPow_add_period (e : Nat) : alphaPow (e + 255) = alphaPow e := by
  rw [alphaPow, alphaPow, Nat.add_mod_right]

theorem alphaPow_mul_period (e : Nat) : alphaPow (e * 255) = 1 := by
  rw [alphaPow, Nat.mul_mod_left, gexp_zero]

theorem gpow_succ (a : Byte) (n : Nat) : gpow a (n + 1) = gmul (gpow a n) a := by
  rcases eq_zero_or_alphaPow a with rfl | ⟨e, rfl⟩
  · rw [zero_gpow n.succ_ne_zero, gmul_zero]
  · rw [gpow_alphaPow, gpow_alphaPow, Nat.mul_succ, alphaPow_add]

theorem gpow_add (a : Byte) (m n : Nat) : gpow a (m + n) = gmul (gpow a m) (gpow a n) := by
  induction n with
  | zero => rw [Nat.add_zero, gpow_zero, gmul_one]
  | succ n ih => rw [← Nat.add_assoc, gpow_succ, ih, gpow_succ, gmul_assoc]

theorem gpow_period {a : Byte} (ha : a ≠ 0) : gpow a 255 = 1 := by
  rw [← alphaPow_glog ha, gpow_alphaPow, alphaPow_mul_period]

theorem alphaPow_eq_gpow_two (e : Nat) : alphaPow e = gpow 2 e := by
  have htwo : (2 : Byte) = alphaPow 1 := by decide
  rw [htwo, gpow_alphaPow, Nat.one_mul]

/-! ### Division -/

theorem alphaInv_eq_alphaPow (e : Nat) : alphaInv e = alphaPow (255 - e % 255) := rfl

theorem gmul_alphaPow_alphaInv (e : Nat) : gmul (alphaPow e) (alphaInv e) = 1 := by
  rw [alphaInv_eq_alphaPow, ← alphaPow_add, alphaPow, show (e + (255 - e % 255)) % 255 = 0 by omega, gexp_zero]

theorem gquot_of_ne {a : Byte} (ha : a ≠ 0) (b : Byte) : gquot a b = alphaPow (glog a + 255 - glog b) := by
  rw [gquot, if_neg ha, alphaPow]

theorem gmul_gquot (a : Byte) {b : Byte} (hb : b ≠ 0) : gmul (gquot a b) b = a := by
  by_cases ha : a = 0
  · rw [ha, gquot, if_pos rfl, zero_gmul]
  · have hlog := glog_lt b
    calc gmul (gquot a b) b
        = gmul (alphaPow (glog a + 255 - glog b)) (alphaPow (glog b)) := by rw [gquot_of_ne ha, alphaPow_glog hb]
      _ = alphaPow (glog a + 255) := by rw [← alphaPow_add, show glog a + 255 - glog b + glog b = glog a + 255 by omega]
      _ = a := by rw [alphaPow_add_period, alphaPow_glog ha]

/-! ### The product as a product of polynomials -/

/-- A byte is the sum of the powers of x at its bits. -/
theorem xorSum_bits : ∀ b : Byte, xorSum (fun i => if b.getLsbD i then alphaPow i else 0) 8 = b := by
  decide +kernel

/-- R138: the table product adds up the shifted factor over the bits of the other. -/
theorem gmul_eq_polyProduct (a b : Byte) : gmul a b = polyProduct a b := by
  have hterm : ∀ (r : Byte) (i : Nat), (if b.getLsbD i then r ^^^ xtime^[i] a else r) =
      r ^^^ gmul (if b.getLsbD i then alphaPow i else 0) a := by
    intro r i
    split
    · rw [gmul_comm, gmul_alphaPow]
    · rw [zero_gmul, byte_xor_zero]
  simp only [polyProduct, hterm]
  rw [foldl_range_zero_eq_xorSum, xorSum_gmul, xorSum_bits, gmul_comm]

/-- Settles O33: every nonzero element is a power of α, where the product adds exponents. -/
theorem fieldFunctionsObeyTheFieldLaws : Obligations.FieldFunctionsObeyTheFieldLaws :=
  ⟨gmul_comm, gmul_assoc, gmul_xor, fun a _ => gmul_gquot a, gpow_add, gpow_succ, fun _ => gpow_period,
    gmul_eq_polyProduct, fun e => ⟨alphaPow_eq_gpow_two e, gmul_alphaPow_alphaInv e⟩⟩

end Sys2Proof.Proofs
end

section
/-! SUPPORT. The correctness of Berlekamp-Massey (42_rs_decode.md R201): what every round keeps of the locator C and of
the older locator B, whose discrepancy pays for that of C. -/

namespace Sys2Proof.Proofs

open Sys2Proof.Machine Sys2Proof.Safety Sys2Proof.Laws

/-! ### Coefficients of the product of the locator and the syndromes -/

/-- Coefficient `r` of the product of the polynomial `c` and the syndromes `v`. -/
def convolution (c v : List Byte) (r : Nat) : Byte :=
  xorSum (fun i => gmul (c.getD i 0) (v.getD (r - i) 0)) (r + 1)

theorem discrepancy_eq_xorSum (v c : List Byte) (l r : Nat) :
    discrepancy v c l r =
      v.getD r 0 ^^^ xorSum (fun k => gmul (c.getD (k + 1) 0) (v.getD (r - (k + 1)) 0)) l :=
  foldl_range_eq_xorSum _ _ _

/-- The discrepancy of R201 is a coefficient of the product, for a locator with C[0] = 1 of degree at most L. -/
theorem discrepancy_eq_convolution {v c : List Byte} {l r : Nat} (hone : c.getD 0 0 = 1)
    (hdegree : ∀ j, l < j → c.getD j 0 = 0) (hl : l ≤ r) : discrepancy v c l r = convolution c v r := by
  obtain ⟨n, rfl⟩ := Nat.exists_eq_add_of_le hl
  have hbeyond : ∀ k < n, gmul (c.getD (l + k + 1) 0) (v.getD (l + n - (l + k + 1)) 0) = 0 := fun k _ => by
    rw [hdegree _ (by omega), zero_gmul]
  rw [discrepancy_eq_xorSum, convolution, xorSum_succ_front, hone, one_gmul, Nat.sub_zero, xorSum_stop hbeyond]

/-- Adding `q` times `b`, shifted by `m`, adds `q` times the coefficient of `b` that stands `m` lower. -/
theorem convolution_xorShifted {c b : List Byte} (v : List Byte) {m j : Nat} (q : Byte) (hlen : b.length = c.length)
    (hm : m ≤ j) (hj : j < c.length) :
    convolution (xorShifted c m q b) v j = convolution c v j ^^^ gmul (convolution b v (j - m)) q := by
  have hterm : ∀ i < j + 1, gmul ((xorShifted c m q b).getD i 0) (v.getD (j - i) 0) =
      gmul (c.getD i 0) (v.getD (j - i) 0) ^^^
        (if m ≤ i then gmul (gmul q (b.getD (i - m) 0)) (v.getD (j - i) 0) else 0) := by
    intro i hi
    rw [getD_xorShifted m q hlen (by omega)]
    split_ifs
    · rw [xor_gmul]
    · rw [byte_xor_zero]
  have hshift : ∀ k, gmul (gmul q (b.getD (m + k - m) 0)) (v.getD (j - (m + k)) 0) =
      gmul (gmul (b.getD k 0) (v.getD (j - m - k) 0)) q := by
    intro k
    rw [Nat.add_sub_cancel_left, Nat.sub_add_eq, gmul_comm q, gmul_right_comm]
  have hsplit : j + 1 = m + (j - m + 1) := by omega
  rw [convolution, xorSum_congr hterm, xorSum_xor, ← convolution]
  congr 1
  rw [hsplit, xorSum_skip fun k hk => if_neg (by omega)]
  simp only [Nat.le_add_right, if_true, hshift]
  rw [xorSum_gmul, convolution]

/-! ### What a round keeps -/

/-- The polynomial `c` has degree at most `l` and generates the syndromes from number `l` up to number `r`. -/
structure Generates (v c : List Byte) (l r : Nat) : Prop where
  degree : ∀ j, l < j → c.getD j 0 = 0
  zero : ∀ j, l ≤ j → j < r → convolution c v j = 0

/-- One syndrome more, which the polynomial generates too. -/
theorem Generates.succ {v c : List Byte} {l r : Nat} (h : Generates v c l r) (hr : convolution c v r = 0) :
    Generates v c l (r + 1) where
  degree := h.degree
  zero j hl hj := by
    obtain rfl | hlt := (Nat.le_of_lt_succ hj).eq_or_lt
    · exact hr
    · exact h.zero j hl hlt

/-- What holds before round `r`, with `lb` the length of the older locator B: C generates the syndromes so far, B those
before the round of the last change of length, where its discrepancy was `delta`. Before the first change that round is
the one before round 0. -/
structure BmInv (v : List Byte) (r lb : Nat) (t : BmState) : Prop where
  lengths : t.l + lb + t.m = r + 1
  c_generates : Generates v t.c t.l r
  b_generates : Generates v t.b lb (r - t.m)
  b_discrepancy : t.m ≤ r → convolution t.b v (r - t.m) = t.delta

theorem bmInv_bmStart (v : List Byte) : BmInv v 0 0 (bmStart v.length) := by
  have hone : ∀ j, 0 < j → (1 :: List.replicate v.length (0 : Byte)).getD j 0 = 0 := by
    intro j hj
    obtain ⟨k, rfl⟩ := Nat.exists_eq_succ_of_ne_zero hj.ne'
    by_cases hk : k < v.length <;> simp [List.getD, hk]
  exact ⟨rfl, ⟨hone, fun _ _ h => absurd h (Nat.not_lt_zero _)⟩, ⟨hone, fun _ _ h => absurd h (Nat.not_lt_zero _)⟩,
    fun h => absurd h (Nat.not_succ_le_zero 0)⟩

section
variable {v : List Byte} {r lb : Nat} {t : BmState} (hok : BmOk v.length r t) (hmonic : MonicShifted t)
  (h : BmInv v r lb t)
include hok hmonic h

theorem BmInv.discrepancy_eq : discrepancy v t.c t.l r = convolution t.c v r :=
  discrepancy_eq_convolution hmonic.1 h.c_generates.degree hok.l_le

variable (hr : r < v.length)
include hr

/-- The locator corrected by the discrepancy generates the syndrome of this round too, if its new length `l'` covers
both parts. -/
theorem BmInv.corrected_generates {l' : Nat} (hl : t.l ≤ l') (hlb : lb + t.m ≤ l') (hm : l' ≤ r → t.m ≤ r) :
    Generates v (xorShifted t.c t.m (gquot (discrepancy v t.c t.l r) t.delta) t.b) l' (r + 1) := by
  have hlen : t.b.length = t.c.length := hok.b_length.trans hok.c_length.symm
  have hclen := hok.c_length
  refine ⟨fun j hj => ?degree, fun j hl' hj => ?zero⟩
  case degree =>
    by_cases hin : j < t.c.length
    · rw [getD_xorShifted _ _ hlen hin, if_pos (by omega), h.c_generates.degree j (by omega),
        h.b_generates.degree _ (by omega), gmul_zero, byte_xor_zero]
    · rw [List.getD_eq_default _ _ (by rw [xorShifted_length _ _ hlen]; omega)]
  case zero =>
    rw [convolution_xorShifted v _ hlen (by omega) (by omega)]
    obtain rfl | hlt := (Nat.le_of_lt_succ hj).eq_or_lt
    · rw [h.b_discrepancy (hm hl'), h.discrepancy_eq hok hmonic, gmul_comm, gmul_gquot _ hok.delta_ne, byte_xor_self]
    · rw [h.c_generates.zero j (by omega) hlt, h.b_generates.zero _ (by omega) (by omega), zero_gmul, byte_xor_zero]

/-- Each kind of round keeps the invariant; one that lengthens C makes the C before it the older locator. -/
theorem exists_bmInv_bmRound : ∃ lb', BmInv v (r + 1) lb' (bmRound v r t) := by
  have hlengths := h.lengths
  have hdisc := h.discrepancy_eq hok hmonic
  have hm := hmonic.2
  by_cases hd : discrepancy v t.c t.l r = 0
  · rw [bmRound_of_zero hd]
    refine ⟨lb, by simp only; omega, h.c_generates.succ (hdisc ▸ hd), ?_, ?_⟩
    · simpa using h.b_generates
    · simpa using h.b_discrepancy
  by_cases hl : 2 * t.l ≤ r
  · rw [bmRound_of_grow hd hl]
    have hgen := h.corrected_generates (l' := r + 1 - t.l) hok hmonic hr (by omega) (by omega) (by omega)
    refine ⟨t.l, by simp only; omega, hgen, ?_, ?_⟩
    · exact h.c_generates
    · exact fun _ => hdisc.symm
  · rw [bmRound_of_keep hd (by omega)]
    have hgen := h.corrected_generates (l' := t.l) hok hmonic hr le_rfl (by omega) (by omega)
    refine ⟨lb, by simp only; omega, hgen, ?_, ?_⟩
    · simpa using h.b_generates
    · simpa using h.b_discrepancy

end

theorem exists_bmInv_bmAfter (v : List Byte) {k : Nat} (hk : k ≤ v.length) : ∃ lb, BmInv v k lb (bmAfter v k) := by
  induction k with
  | zero => exact ⟨0, bmInv_bmStart v⟩
  | succ k ih =>
    obtain ⟨lb, h⟩ := ih (Nat.le_of_succ_le hk)
    rw [bmAfter_succ]
    exact exists_bmInv_bmRound (bmAfter_ok v k) (bmAfter_monicShifted v k) h hk

/-- Settles O41: after the last round C generates all syndromes from number L on. -/
theorem locatorGeneratesTheSyndromes : Obligations.LocatorGeneratesTheSyndromes := by
  intro v
  obtain ⟨hone, -⟩ := bmAfter_monicShifted v v.length
  obtain ⟨lb, -, hgen, -, -⟩ := exists_bmInv_bmAfter v le_rfl
  rw [← bm_eq_bmAfter] at hone hgen
  refine ⟨hone, (bm_ok v).l_le, hgen.degree, fun r hl hr => ?_⟩
  have hzero : discrepancy v (bm v).c (bm v).l r = 0 :=
    (discrepancy_eq_convolution hone hgen.degree hl).trans (hgen.zero r hl hr)
  rw [discrepancy_eq_xorSum] at hzero
  rw [foldl_range_zero_eq_xorSum]
  exact byte_xor_eq_zero_iff.1 hzero

end Sys2Proof.Proofs
end

section
/-! SUPPORT. Two laws of RS_CORRECT: what it returns without error is an encoded message near the input, and one wrong
codeword is corrected (42_rs_decode.md R201 to R207, R213). -/

namespace Sys2Proof.Proofs

open Sys2Proof.Machine Sys2Proof.Safety Sys2Proof.Laws

/-! ### Soundness -/

/-- The positions where two messages differ, counted one by one. -/
theorem distance_eq_length_filter_range {a b : List Byte} (h : b.length = a.length) :
    distance a b = ((List.range a.length).filter fun j => decide (a.getD j 0 ≠ b.getD j 0)).length := by
  have hzip : a.zip b = (List.range a.length).map fun j => (a.getD j 0, b.getD j 0) := by
    refine List.ext_getElem (by simp [h]) fun j h1 h2 => ?_
    simp only [List.length_map, List.length_range] at h2
    rw [List.getElem_zip, List.getElem_map, List.getElem_range, List.getD_eq_getElem _ _ h2,
      List.getD_eq_getElem _ _ (by omega)]
  rw [distance, hzip, List.filter_map, List.length_map]
  rfl

/-- A message changed at the positions `ps` only is no further away than they are many. -/
theorem distance_le_length {a b : List Byte} {ps : List Nat} (h : b.length = a.length)
    (hps : ∀ j ∉ ps, a.getD j 0 = b.getD j 0) : distance a b ≤ ps.length := by
  rw [distance_eq_length_filter_range h]
  refine (List.subperm_of_subset (List.nodup_range.filter _) fun j hj => ?_).length_le
  by_contra hout
  exact of_decide_eq_true (List.mem_filter.1 hj).2 (hps j hout)

theorem distance_correctedMessage_le (m v : List Byte) (nsym : Nat) :
    distance m (correctedMessage m v nsym) ≤ (chien (bm v).c (bm v).l m.length).length := by
  refine distance_le_length (correctedMessage_length m v nsym) fun j hj => ?_
  simp only [List.getD, correctedMessage, List.getElem?_mapIdx, if_neg hj, Option.map_id']

/-- Settles O45: an encoded message is left as it is, and otherwise the validations of R213 have all passed. -/
theorem correctionIsSound : Obligations.CorrectionIsSound := by
  intro s t m _ hr hlen hm hrun herr
  rw [exec_rsCorrect hr hlen hm] at hrun
  by_cases hc : IsCodeword m s.regs.nsym.toNat
  · obtain ⟨t', hrun', ht', -, -⟩ := runCommand_correction_codeword (s := s) hc
      ((correctErrors m (syndromes m s.regs.nsym.toNat) s.regs.nsym.toNat).map fun r =>
        (Buffer.writeRange s.mem.msg 0 r.2, r.1))
    obtain rfl : t' = t := Host.Outcome.next.inj (hrun'.symm.trans hrun)
    rw [ht']
    exact ⟨m, rfl, hm, hc, (distance_le_length (ps := []) rfl fun _ _ => rfl).trans (Nat.zero_le _), fun _ _ => rfl⟩
  · by_cases hvalid : Validated m (syndromes m s.regs.nsym.toNat) s.regs.nsym.toNat
    · rw [correctErrors_of_validated hvalid, Option.map_some, runCommand_correction_some hc] at hrun
      cases hrun
      refine ⟨_, correctedMessage_length _ _ _, holds_writeRange _ _ _, hvalid.codeword, ?near, fun j hj => ?frame⟩
      case near => exact (distance_correctedMessage_le ..).trans (hvalid.roots.trans_le hvalid.l_le)
      case frame => exact read_writeRange_outside _ _ (.inr (by rw [correctedMessage_length]; omega))
    · rw [correctErrors_of_not_validated hvalid, Option.map_none, runCommand_correction_none hc] at hrun
      cases hrun
      cases herr

/-! ### Cancelling factors -/

theorem gmul_eq_zero {a b : Byte} (h : gmul a b = 0) (hb : b ≠ 0) : a = 0 :=
  not_not.1 fun ha => gmul_ne_zero ha hb h

theorem gmul_right_cancel {a b c : Byte} (hc : c ≠ 0) (h : gmul a c = gmul b c) : a = b := by
  refine byte_xor_eq_zero_iff.1 (gmul_eq_zero ?_ hc)
  rw [xor_gmul, h, byte_xor_self]

theorem gquot_gmul (a : Byte) {b : Byte} (hb : b ≠ 0) : gquot (gmul a b) b = a :=
  gmul_right_cancel hb (gmul_gquot _ hb)

/-! ### The locator of a geometric sequence -/

/-- The syndromes of one error: each is `x` times the one before it, and the first is not 0. -/
structure Geometric (x : Byte) (v : List Byte) : Prop where
  first_ne : v.getD 0 0 ≠ 0
  step : ∀ r, r + 1 < v.length → v.getD (r + 1) 0 = gmul (v.getD r 0) x

/-- L = 1, and the locator's root is the inverse of `x`. -/
def Locates (x : Byte) (t : BmState) : Prop := t.l = 1 ∧ t.c.getD 1 0 = x

theorem discrepancy_of_one (v c : List Byte) (r : Nat) :
    discrepancy v c 1 (r + 1) = v.getD (r + 1) 0 ^^^ gmul (c.getD 1 0) (v.getD r 0) := rfl

/-- What round 0 leaves if its syndrome is not 0: the locator 1 + S_1 x, and the starting locator as the older one. -/
structure AfterFirst (v : List Byte) (t : BmState) : Prop where
  l_eq : t.l = 1
  m_eq : t.m = 1
  delta_eq : t.delta = v.getD 0 0
  c_one : t.c.getD 1 0 = v.getD 0 0
  b_zero : t.b.getD 0 0 = 1

theorem afterFirst_bmAfter_one {v : List Byte} (hfirst : v.getD 0 0 ≠ 0) (hlen : 2 ≤ v.length) :
    AfterFirst v (bmAfter v 1) := by
  obtain ⟨n, hn⟩ := Nat.exists_eq_add_of_le hlen
  have hd : discrepancy v (bmStart v.length).c (bmStart v.length).l 0 = v.getD 0 0 := rfl
  have hround : bmAfter v 1 = bmRound v 0 (bmStart v.length) := rfl
  rw [hround, bmRound_of_grow (hd ▸ hfirst) (Nat.le_refl 0), hd]
  refine ⟨rfl, rfl, rfl, ?_, rfl⟩
  have hc1 : (bmStart v.length).c.getD 1 0 = 0 := by
    rw [hn, Nat.add_comm]
    rfl
  have hblen : (bmStart v.length).b.length = (bmStart v.length).c.length := rfl
  have hclen := (bmStart_ok v.length).c_length
  simp only
  rw [getD_xorShifted _ _ hblen (by omega), if_pos (show (bmStart v.length).m ≤ 1 from le_rfl), hc1, byte_zero_xor]
  exact gmul_gquot (v.getD 0 0) (b := 1) (by decide)

section
variable {v : List Byte} {x : Byte} (hgeo : Geometric x v) (hlen : 2 ≤ v.length)
include hgeo hlen

/-- The second syndrome corrects the coefficient of the locator to `x`. -/
theorem locates_bmAfter_two : Locates x (bmAfter v 2) := by
  have hfirst := hgeo.first_ne
  obtain ⟨hl, hm, hdelta, hc, hb⟩ := afterFirst_bmAfter_one hfirst hlen
  obtain ⟨hclen, hblen, -, -⟩ := bmAfter_ok v 1
  have hd : discrepancy v (bmAfter v 1).c (bmAfter v 1).l 1 = gmul (x ^^^ v.getD 0 0) (v.getD 0 0) := by
    rw [hl, discrepancy_of_one, hgeo.step 0 hlen, hc, gmul_comm, xor_gmul]
  rw [bmAfter_succ]
  by_cases hzero : discrepancy v (bmAfter v 1).c (bmAfter v 1).l 1 = 0
  · rw [bmRound_of_zero hzero]
    refine ⟨hl, hc.trans ?_⟩
    exact (byte_xor_eq_zero_iff.1 (gmul_eq_zero (hd.symm.trans hzero) hfirst)).symm
  · rw [bmRound_of_keep hzero (by omega)]
    refine ⟨hl, ?_⟩
    simp only
    rw [getD_xorShifted _ _ (hblen.trans hclen.symm) (by omega), hm, if_pos (Nat.le_refl 1), hd, hdelta,
      gquot_gmul _ hfirst, hc, Nat.sub_self, hb, gmul_one, BitVec.xor_comm, BitVec.xor_assoc, byte_xor_self,
      byte_xor_zero]

/-- Every later syndrome has discrepancy 0. -/
theorem locates_bmAfter {k : Nat} (hk : k + 2 ≤ v.length) : Locates x (bmAfter v (k + 2)) := by
  induction k with
  | zero => exact locates_bmAfter_two hgeo hlen
  | succ k ih =>
    obtain ⟨hl, hc⟩ := ih (by omega)
    have hd : discrepancy v (bmAfter v (k + 2)).c (bmAfter v (k + 2)).l (k + 2) = 0 := by
      rw [hl, discrepancy_of_one, hc, hgeo.step (k + 1) (by omega), gmul_comm, byte_xor_self]
    rw [Nat.add_right_comm, bmAfter_succ, bmRound_of_zero hd]
    exact ⟨hl, hc⟩

theorem locates_bm : Locates x (bm v) := by
  obtain ⟨n, hn⟩ := Nat.exists_eq_add_of_le' hlen
  rw [bm_eq_bmAfter, hn]
  exact locates_bmAfter hgeo hlen hn.ge

/-! ### Evaluator, roots and magnitude for one error -/

theorem evaluator_of_geometric :
    evaluator v (bm v).c (bm v).l = v.getD 0 0 :: List.replicate (v.length - 1) 0 := by
  obtain ⟨hl, hc⟩ := locates_bm hgeo hlen
  have hone : (bm v).c.getD 0 0 = 1 := (bmAfter_monicShifted v v.length).1
  refine List.ext_getElem? fun i => ?_
  by_cases hi : i < v.length
  · rw [getElem?_evaluator _ _ hi, hl]
    cases i with
    | zero =>
      show some (0 ^^^ gmul ((bm v).c.getD 0 0) (v.getD 0 0)) = some (v.getD 0 0)
      rw [hone, one_gmul, byte_zero_xor]
    | succ i =>
      have hsum : (List.range 2).foldl
          (fun r j => r ^^^ gmul ((bm v).c.getD j 0) (v.getD (i + 1 - j) 0)) 0 = 0 := by
        rw [foldl_range_zero_eq_xorSum, xorSum, xorSum, xorSum, hone, hc, one_gmul, byte_zero_xor, Nat.sub_zero,
          hgeo.step i hi, gmul_comm x, Nat.add_sub_cancel, byte_xor_self]
      rw [show min (i + 1) 1 + 1 = 2 by omega, hsum, List.getElem?_cons_succ, List.getElem?_replicate,
        if_pos (by omega)]
  · rw [List.getElem?_eq_none (by rw [evaluator_length]; omega), List.getElem?_eq_none (by simp; omega)]

end

theorem pevalLo_constant (a x : Byte) (n d : Nat) : pevalLo (a :: List.replicate n 0) d x = a := by
  have hzeros : ∀ k, (List.replicate k (0 : Byte)).foldr (fun c r => gmul r x ^^^ c) 0 = 0 := by
    intro k
    induction k with
    | zero => rfl
    | succ k ih => rw [List.replicate_succ, List.foldr_cons, ih, zero_gmul, byte_xor_zero]
  rw [pevalLo, List.take_succ_cons, List.take_replicate, List.foldr_cons, hzeros, zero_gmul, byte_zero_xor]

theorem pevalLo_one {q : List Byte} (hlen : 2 ≤ q.length) (x : Byte) :
    pevalLo q 1 x = gmul (q.getD 1 0) x ^^^ q.getD 0 0 := by
  match q, hlen with
  | a :: b :: q, _ =>
    show gmul (gmul 0 x ^^^ b) x ^^^ a = gmul b x ^^^ a
    rw [zero_gmul, byte_zero_xor]

theorem dpeval_one (q : List Byte) (x : Byte) : dpeval q 1 x = q.getD 1 0 := by
  have hodd : oddsUpTo 1 = [1] := by decide
  rw [dpeval, hodd]
  show 0 ^^^ gmul (q.getD 1 0) (gpow x 0) = q.getD 1 0
  rw [gpow_zero, gmul_one, byte_zero_xor]

theorem alphaPow_inj {a b : Nat} (ha : a < 255) (hb : b < 255) (h : alphaPow a = alphaPow b) : a = b := by
  have hlog := congrArg glog h
  rwa [glog_alphaPow, glog_alphaPow, Nat.mod_eq_of_lt ha, Nat.mod_eq_of_lt hb] at hlog

/-- A list that rises and has the one member `p`. -/
theorem eq_singleton_of_ascending {ps : List Nat} {p : Nat} (hps : ps.Pairwise (· < ·)) (hmem : ∀ q, q ∈ ps ↔ q = p) :
    ps = [p] := by
  have heq : ∀ q ∈ ps, q = p := fun q => (hmem q).1
  match ps, hps, heq with
  | [], _, _ => cases (hmem p).2 rfl
  | [a], _, heq => rw [heq a (List.mem_singleton_self a)]
  | a :: b :: rest, hps, heq =>
    have hlt := List.rel_of_pairwise_cons hps (List.mem_cons_self ..)
    have ha := heq a (by simp)
    have hb := heq b (by simp)
    omega

/-! ### One wrong codeword -/

section
variable {c : List Byte} {p nsym : Nat} {e : Byte} (hcode : IsCodeword c nsym) (hp : p < c.length) (he : e ≠ 0)
  (hnsym : 2 ≤ nsym)

/-- The message `c` with the error `e` at position `p`. -/
def withError (c : List Byte) (p : Nat) (e : Byte) : List Byte := c.set p (c.getD p 0 ^^^ e)

@[simp] theorem withError_length (c : List Byte) (p : Nat) (e : Byte) : (withError c p e).length = c.length :=
  List.length_set ..

include hcode hp

theorem getD_syndromes_withError {r : Nat} (hr : r < nsym) :
    (syndromes (withError c p e) nsym).getD r 0 = gmul e (alphaPow ((r + 1) * (c.length - 1 - p))) := by
  rw [List.getD_eq_getElem _ _ (by simpa using hr)]
  simp only [syndromes, List.getElem_map, List.getElem_range]
  exact syndrome_of_one_error e hp (hcode (r + 1) (by omega) hr)

include hnsym

theorem getD_syndromes_withError_zero :
    (syndromes (withError c p e) nsym).getD 0 0 = gmul e (alphaPow (c.length - 1 - p)) := by
  rw [getD_syndromes_withError hcode hp (by omega), Nat.zero_add, Nat.one_mul]

include he

theorem geometric_syndromes_withError :
    Geometric (alphaPow (c.length - 1 - p)) (syndromes (withError c p e) nsym) where
  first_ne := by
    rw [getD_syndromes_withError_zero hcode hp hnsym]
    exact gmul_ne_zero he (alphaPow_ne_zero _)
  step r hr := by
    rw [syndromes_length] at hr
    rw [getD_syndromes_withError hcode hp hr, getD_syndromes_withError hcode hp (by omega), gmul_assoc, ← alphaPow_add,
      ← Nat.succ_mul]

theorem locates_syndromes_withError :
    Locates (alphaPow (c.length - 1 - p)) (bm (syndromes (withError c p e) nsym)) :=
  locates_bm (geometric_syndromes_withError hcode hp he hnsym) (by rwa [syndromes_length])

theorem not_isCodeword_withError : ¬ IsCodeword (withError c p e) nsym := by
  intro h
  have hfirst := (geometric_syndromes_withError hcode hp he hnsym).first_ne
  rw [syndromes_of_isCodeword h] at hfirst
  exact hfirst (by simp [List.getD, Nat.pos_of_ne_zero (show nsym ≠ 0 by omega)])

/-- R203: with at most 255 codewords the powers of α at the positions differ, so the search finds `p` alone. -/
theorem chien_withError (hlen : c.length ≤ 255) :
    chien (bm (syndromes (withError c p e) nsym)).c (bm (syndromes (withError c p e) nsym)).l (withError c p e).length =
      [p] := by
  obtain ⟨hl, hc⟩ := locates_syndromes_withError hcode hp he hnsym
  have hone := (bmAfter_monicShifted (syndromes (withError c p e) nsym) (syndromes (withError c p e) nsym).length).1
  have hclen := (bm_ok (syndromes (withError c p e) nsym)).c_length
  rw [← bm_eq_bmAfter] at hone
  rw [syndromes_length] at hclen
  refine eq_singleton_of_ascending (chien_ascending ..) fun q => ?_
  rw [mem_chien, hl, pevalLo_one (by omega), hc, hone, withError_length, byte_xor_eq_zero_iff]
  constructor
  · rintro ⟨hq, hroot⟩
    have hsame := gmul_right_cancel (alphaInv_ne_zero _) (hroot.trans (gmul_alphaPow_alphaInv _).symm)
    have hdeg := alphaPow_inj (by omega) (by rw [degOf]; omega) hsame
    rw [degOf] at hdeg
    omega
  · rintro rfl
    exact ⟨hp, gmul_alphaPow_alphaInv _⟩

theorem denominator_withError (q n : Nat) :
    denominator (bm (syndromes (withError c p e) nsym)).c (bm (syndromes (withError c p e) nsym)).l n q =
      alphaPow (c.length - 1 - p) := by
  obtain ⟨hl, hc⟩ := locates_syndromes_withError hcode hp he hnsym
  rw [denominator, hl, dpeval_one, hc]

/-- R204: the magnitude is the error. -/
theorem magnitude_withError (q n : Nat) :
    magnitude (bm (syndromes (withError c p e) nsym)).c
      (evaluator (syndromes (withError c p e) nsym) (bm (syndromes (withError c p e) nsym)).c
        (bm (syndromes (withError c p e) nsym)).l) (bm (syndromes (withError c p e) nsym)).l nsym n q = e := by
  have hden := denominator_withError hcode hp he hnsym q n
  rw [denominator] at hden
  rw [magnitude, hden, evaluator_of_geometric (geometric_syndromes_withError hcode hp he hnsym)
    (by rwa [syndromes_length]), pevalLo_constant, getD_syndromes_withError_zero hcode hp hnsym,
    gquot_gmul _ (alphaPow_ne_zero _)]

theorem correctedMessage_withError (hlen : c.length ≤ 255) :
    correctedMessage (withError c p e) (syndromes (withError c p e) nsym) nsym = c := by
  simp only [correctedMessage, chien_withError hcode hp he hnsym hlen, magnitude_withError hcode hp he hnsym]
  refine List.ext_getElem (by simp) fun j h1 h2 => ?_
  simp only [List.getElem_mapIdx, List.mem_singleton, withError, List.getElem_set]
  by_cases hj : j = p
  · subst hj
    rw [if_pos rfl, if_pos rfl, List.getD_eq_getElem _ _ hp, BitVec.xor_assoc, byte_xor_self, byte_xor_zero]
  · rw [if_neg hj, if_neg (Ne.symm hj)]

theorem validated_withError (hlen : c.length ≤ 255) :
    Validated (withError c p e) (syndromes (withError c p e) nsym) nsym := by
  obtain ⟨hl, -⟩ := locates_syndromes_withError hcode hp he hnsym
  refine ⟨by rwa [withError_length], by omega, ?_, fun q _ => ?_, ?_⟩
  · rw [chien_withError hcode hp he hnsym hlen, hl, List.length_singleton]
  · rw [denominator_withError hcode hp he hnsym]
    exact alphaPow_ne_zero _
  · rwa [correctedMessage_withError hcode hp he hnsym hlen]

end

/-- Settles O46: the syndromes of one error are a geometric sequence, so the locator has one root, at its position. -/
theorem oneWrongCodewordIsCorrected : Obligations.OneWrongCodewordIsCorrected := by
  intro s c p e hr hnsym hlen hmax hcode hp he hm
  have hwrong := not_isCodeword_withError hcode hp he hnsym
  have hvalid := validated_withError hcode hp he hnsym hmax
  obtain ⟨hl, -⟩ := locates_syndromes_withError hcode hp he hnsym
  rw [exec_rsCorrect (m := withError c p e) hr (by rwa [withError_length]) hm, correctErrors_of_validated hvalid,
    Option.map_some, runCommand_correction_some hwrong]
  refine ⟨_, rfl, ?restored, ?nerr, rfl, rfl, rfl⟩
  case restored =>
    rw [correctedMessage_withError hcode hp he hnsym hmax]
    exact holds_writeRange _ _ _
  case nerr =>
    rw [hl]
    rfl

end Sys2Proof.Proofs
end

section
/-! SUPPORT. How a command can end early: the statements about the errors of each command and about the commands that
can stop at an unwritten element (60_exceptions.md R361, 70_reset_and_hazards.md R403). -/

namespace Sys2Proof.Proofs

open Sys2Proof.Machine Sys2Proof.Safety Sys2Proof.Laws

/-! ### The ends that the tables give a command -/

/-- The tables give the command `i` this end: an error of its row, or a stop if it reads elements. -/
def tableAllows (i : Instr) : Stop → Bool
  | .raise k => decide (k ∈ allowedErrors i)
  | .unwritten _ _ => readsElements i

/-- If `r` ends early, it is as the tables say of the command `i`. -/
def StopsAsTabled (i : Instr) {α : Type} (r : Except Stop α) : Prop := ∀ e, r = .error e → tableAllows i e = true

section
variable {i : Instr} {α β : Type}

theorem StopsAsTabled.ok (a : α) : StopsAsTabled i (.ok a : Except Stop α) := nofun

theorem StopsAsTabled.error {e : Stop} (h : tableAllows i e = true) : StopsAsTabled i (.error e : Except Stop α) := by
  rintro _ ⟨⟩
  exact h

theorem StopsAsTabled.bind {x : Except Stop α} {f : α → Except Stop β} (hx : StopsAsTabled i x)
    (hf : ∀ a, StopsAsTabled i (f a)) : StopsAsTabled i (x >>= f) := by
  cases x with
  | error e => exact .error (hx e rfl)
  | ok a => exact hf a

theorem StopsAsTabled.ite {c : Prop} [Decidable c] {r r' : Except Stop α} (h : StopsAsTabled i r)
    (h' : StopsAsTabled i r') : StopsAsTabled i (if c then r else r') := by
  split
  · exact h
  · exact h'

/-! ### Operands and readings -/

theorem StopsAsTabled.raiseIf {k : ErrorKind} (h : tableAllows i (.raise k) = true) {c : Bool} :
    StopsAsTabled i (raiseIf c k) :=
  .ite (.error h) (.ok ())

theorem StopsAsTabled.gdiv (h : tableAllows i (.raise .divisionByZero) = true) {a b : Byte} :
    StopsAsTabled i (gdiv a b) :=
  .ite (.error h) (.ok _)

theorem StopsAsTabled.selectSize (h : tableAllows i (.raise .dataTooLong) = true) {k : Nat} :
    StopsAsTabled i (selectSize k) := by
  unfold Machine.selectSize
  split
  · exact .ok _
  · exact .error h

theorem StopsAsTabled.lookupSize (h : tableAllows i (.raise .unsupportedSymbolSize) = true) {rows cols : Nat} :
    StopsAsTabled i (lookupSize rows cols) := by
  unfold Machine.lookupSize
  split
  · exact .ok _
  · exact .error h

section
variable (hbad : tableAllows i (.raise .badParameter) = true)
include hbad

theorem StopsAsTabled.byteOperand {w : Word} : StopsAsTabled i (byteOperand w) := .ite (.error hbad) (.ok _)

theorem StopsAsTabled.nsymOperand {s : State} : StopsAsTabled i (nsymOperand s) := .ite (.error hbad) (.ok _)

theorem StopsAsTabled.sizeOperand {s : State} : StopsAsTabled i (sizeOperand s) := .ite (.error hbad) (.ok _)

theorem StopsAsTabled.rsCheck {s : State} : StopsAsTabled i (rsCheck s) :=
  .bind (.nsymOperand hbad) fun _ => .ite (.error hbad) (.ok _)

end

theorem StopsAsTabled.collect {f : Nat → Except Stop α} (h : ∀ j, StopsAsTabled i (f j)) {j n : Nat} :
    StopsAsTabled i (collect f j n) := by
  induction n generalizing j with
  | zero => exact .ok []
  | succ n ih => exact .bind (h j) fun _ => .bind (ih) fun _ => .ok _

section
variable (hreads : readsElements i = true)
include hreads

theorem StopsAsTabled.readElem {w : Nat} {b : BufId} {buf : Buffer w} {j : Nat} :
    StopsAsTabled i (readElem b buf j) := by
  unfold Machine.readElem
  split
  · exact .ok _
  · exact .error hreads

theorem StopsAsTabled.readRange {w : Nat} {b : BufId} {buf : Buffer w} {j n : Nat} :
    StopsAsTabled i (readRange b buf j n) :=
  .collect fun _ => .readElem hreads

theorem StopsAsTabled.gridCodeword {e : SymbolSize} {g : Buffer 1} {j : Nat} :
    StopsAsTabled i (gridCodeword e g j) :=
  .bind (.collect fun _ => .ite (.readElem hreads) (.ok 0)) fun _ => .ok _

theorem StopsAsTabled.dpevalLoc {loc : Buffer 8} {x : Byte} {is : List Nat} {d : Byte} :
    StopsAsTabled i (dpevalLoc loc x is d) := by
  induction is generalizing d with
  | nil => exact .ok d
  | cons j is ih => exact .bind (.readElem hreads) fun _ => ih

theorem StopsAsTabled.forneyPosition (hbad : tableAllows i (.raise .badParameter) = true) {s : State} {k : Nat} :
    StopsAsTabled i (forneyPosition s k) :=
  .bind (.readElem hreads) fun _ => .ite (.error hbad) (.ok _)

theorem StopsAsTabled.forneyLoop (hunc : tableAllows i (.raise .uncorrectable) = true) {s : State} {n l nsym : Nat}
    {ps : List Nat} {m : Buffer 8} : StopsAsTabled i (forneyLoop s n l nsym ps m) := by
  induction ps generalizing m with
  | nil => exact .ok _
  | cons p ps ih =>
    exact .bind (.dpevalLoc hreads) fun _ => .bind (.raiseIf hunc) fun _ => .bind (.readRange hreads) fun _ =>
      .bind (.readElem hreads) fun _ => .bind ih fun _ => .ok _

end

end

/-! ### The commands -/

/-- A pseudocode run against `s` that ends early as the tables allow, and leaves ERR alone if it returns. -/
structure EndsAsTabled (i : Instr) (s : State) (r : Except Stop State) : Prop where
  stops : StopsAsTabled i r
  returns : ReturnsOnly (SameErr s) r

section
variable {i : Instr} {s : State}

theorem EndsAsTabled.ok {u : State} (h : SameErr s u) : EndsAsTabled i s (.ok u) := ⟨.ok u, .ok h⟩

theorem EndsAsTabled.error {e : Stop} (h : tableAllows i e = true) : EndsAsTabled i s (.error e) :=
  ⟨.error h, .error e⟩

theorem EndsAsTabled.bind {α : Type} {x : Except Stop α} {f : α → Except Stop State} (hx : StopsAsTabled i x)
    (hf : ∀ a, EndsAsTabled i s (f a)) : EndsAsTabled i s (x >>= f) :=
  ⟨.bind hx fun a => (hf a).stops, .bind fun a => (hf a).returns⟩

theorem EndsAsTabled.ite {c : Prop} [Decidable c] {r r' : Except Stop State} (h : EndsAsTabled i s r)
    (h' : EndsAsTabled i s r') : EndsAsTabled i s (if c then r else r') := by
  split
  · exact h
  · exact h'

end

/-- Each check and each reading of a command's pseudocode ends as the command's row allows. -/
theorem exec_endsAsTabled (s : State) : ∀ i : Instr, ∃ r, exec i s = runCommand s r ∧ EndsAsTabled i s r
  | .nop => ⟨_, rfl, .ok rfl⟩
  | .gfAdd | .gfMul => ⟨_, rfl, .bind (.byteOperand rfl) fun _ => .bind (.byteOperand rfl) fun _ => .ok rfl⟩
  | .gfDiv => ⟨_, rfl, .bind (.byteOperand rfl) fun _ => .bind (.byteOperand rfl) fun _ =>
      .bind (.gdiv rfl) fun _ => .ok rfl⟩
  | .gfPow => ⟨_, rfl, .bind (.byteOperand rfl) fun _ => .ok rfl⟩
  | .gfExp | .gfLog => ⟨_, rfl, .bind (.raiseIf rfl) fun _ => .ok rfl⟩
  | .rsGenpoly => ⟨_, rfl, .bind (.nsymOperand rfl) fun _ => .ok rfl⟩
  | .rsEncode | .rsSyndrome => ⟨_, rfl, .bind (.rsCheck rfl) fun _ => .bind (.readRange rfl) fun _ => .ok rfl⟩
  | .rsLocator => ⟨_, rfl, .bind (.nsymOperand rfl) fun _ => .bind (.readRange rfl) fun _ =>
      .bind (.raiseIf rfl) fun _ => .ok rfl⟩
  | .rsChien => ⟨_, rfl, .bind (.raiseIf rfl) fun _ => .bind (.readRange rfl) fun _ =>
      .bind (.raiseIf rfl) fun _ => .ok rfl⟩
  | .rsForney => ⟨_, rfl, .bind (.raiseIf rfl) fun _ => .bind (.collect fun _ => .forneyPosition rfl rfl) fun _ =>
      .bind (.collect fun _ => .readElem rfl) fun _ => .bind (.forneyLoop rfl rfl) fun _ => .ok rfl⟩
  | .rsCorrect | .rsCorrectBitflip => by
    refine ⟨_, rfl, .bind (.rsCheck rfl) fun _ => .bind (.readRange rfl) fun _ => .ite (.ok rfl) ?_⟩
    split
    · exact .error rfl
    · exact .ok rfl
  | .geoSelect => ⟨_, rfl, .bind (.selectSize rfl) fun _ => .ok rfl⟩
  | .geoLookup => ⟨_, rfl, .bind (.lookupSize rfl) fun _ => .ok rfl⟩
  | .geoInfo | .gridInit => ⟨_, rfl, .bind (.sizeOperand rfl) fun _ => .ok rfl⟩
  | .geoClassify | .placeMap | .placeUnmap =>
    ⟨_, rfl, .bind (.sizeOperand rfl) fun _ => .bind (.raiseIf rfl) fun _ => .ok rfl⟩
  | .placeWrite => ⟨_, rfl, .bind (.sizeOperand rfl) fun _ => .bind (.readRange rfl) fun _ => .ok rfl⟩
  | .placeRead =>
    ⟨_, rfl, .bind (.sizeOperand rfl) fun _ => .bind (.collect fun _ => .gridCodeword rfl) fun _ => .ok rfl⟩

/-! ### The statements -/

/-- Settles O19: a command that returns leaves ERR at 0, and what it raises is an error of its row. -/
theorem commandsRaiseOnlyTheirErrors : Obligations.CommandsRaiseOnlyTheirErrors := by
  intro i s t herr h
  obtain ⟨r, hrun, hstop, hret⟩ := exec_endsAsTabled s i
  obtain ⟨u, hr, rfl⟩ | ⟨k, hr, rfl⟩ := runCommand_next (hrun.symm.trans h)
  · exact .inl ((hret u hr).trans herr)
  · exact .inr ⟨k, of_decide_eq_true (hstop _ hr), rfl⟩

/-- Settles O20: a command that ends early raises, which answers a next state, or stops as its row allows. -/
theorem onlyElementReadersCanStop : Obligations.OnlyElementReadersCanStop := by
  intro i s
  obtain ⟨r, hrun, hstop, -⟩ := exec_endsAsTabled s i
  rw [hrun]
  rcases runCommand_cases s r with ⟨t, -, h⟩ | ⟨k, -, h⟩ | ⟨b, j, hr, h⟩
  · exact .inl ⟨_, h⟩
  · exact .inl ⟨_, h⟩
  · exact .inr ⟨hstop _ hr, b, j, h⟩

end Sys2Proof.Proofs
end

section
/-! SUPPORT. The frame of the 24 commands: what the tables of registers, flags and memories name no writer for stays
as it is (10_state.md R30, R32; 30_encoding.md R104). -/

namespace Sys2Proof.Proofs

open Sys2Proof.Machine Sys2Proof.Safety Sys2Proof.Laws

/-! ### What the tables keep from a command -/

/-- The registers that command `i` may not write are in `g'` as in `g` (R30, R104). -/
structure RegsFrame (i : Instr) (g g' : Regs) : Prop where
  cmd : g'.cmd = g.cmd
  operands : g'.opa = g.opa ∧ g'.opb = g.opb ∧ g'.len = g.len ∧ g'.nsym = g.nsym
  result : i ∉ [.gfAdd, .gfMul, .gfDiv, .gfPow, .gfExp, .gfLog, .geoClassify, .placeUnmap] → g'.result = g.result
  nerr : i ∉ [.rsLocator, .rsCorrect, .rsCorrectBitflip] → g'.nerr = g.nerr
  nfound : i ∉ [.rsChien] → g'.nfound = g.nfound
  sizeIdx : i ∉ [.geoSelect, .geoLookup] → g'.sizeIdx = g.sizeIdx
  dims : i ∉ [.geoSelect, .geoInfo] → g'.rows = g.rows ∧ g'.cols = g.cols
  counts : i ∉ [.geoSelect, .geoLookup, .geoInfo] → g'.dataCw = g.dataCw ∧ g'.ecCw = g.ecCw
  bitidx : i ∉ [.placeUnmap] → g'.bitidx = g.bitidx
  cell : i ∉ [.placeMap] → g'.row = g.row ∧ g'.col = g.col

/-- The flags that command `i` may not write before it completes are in `st'` as in `st` (R32). -/
structure FlagsFrame (i : Instr) (st st' : Status) : Prop where
  haz : st'.haz = st.haz
  synz : i ∉ [.rsSyndrome, .rsCorrect, .rsCorrectBitflip] → st'.synz = st.synz
  corr : i ∉ [.rsCorrect, .rsCorrectBitflip] → st'.corr = st.corr

/-- The memories that command `i` may not write are in `m'` as in `m` (R104). -/
structure MemFrame (i : Instr) (m m' : Memory) : Prop where
  msg : i ∉ [.rsEncode, .rsForney, .rsCorrect, .rsCorrectBitflip, .placeRead] → m'.msg = m.msg
  gen : i ∉ [.rsGenpoly, .rsEncode] → m'.gen = m.gen
  syn : i ∉ [.rsSyndrome, .rsCorrect, .rsCorrectBitflip] → m'.syn = m.syn
  loc : i ∉ [.rsLocator] → m'.loc = m.loc ∧ m'.eval = m.eval
  pos : i ∉ [.rsChien] → m'.pos = m.pos
  mag : i ∉ [.rsForney] → m'.mag = m.mag
  grid : i ∉ [.gridInit, .placeWrite] → m'.grid = m.grid

/-- What the pseudocode of command `i` has not written in `u`, which it returns for `s`. -/
structure Frame (i : Instr) (s u : State) : Prop where
  regs : RegsFrame i s.regs u.regs
  flags : FlagsFrame i s.status u.status
  mem : MemFrame i s.mem u.mem
  own : u.wait = s.wait ∧ u.accepted = s.accepted ∧ u.inputs = s.inputs ∧ u.replies = s.replies

section
variable {i : Instr} {s : State}

theorem RegsFrame.refl (i : Instr) (g : Regs) : RegsFrame i g g := by constructor <;> simp

theorem FlagsFrame.refl (i : Instr) (st : Status) : FlagsFrame i st st := by constructor <;> simp

theorem MemFrame.refl (i : Instr) (m : Memory) : MemFrame i m m := by constructor <;> simp

theorem Frame.refl (i : Instr) (s : State) : Frame i s s :=
  ⟨.refl .., .refl .., .refl .., rfl, rfl, rfl, rfl⟩

theorem Frame.ofRegs {g : Regs} (h : RegsFrame i s.regs g) : Frame i s { s with regs := g } :=
  ⟨h, .refl .., .refl .., rfl, rfl, rfl, rfl⟩

theorem Frame.ofMem {m : Memory} (h : MemFrame i s.mem m) : Frame i s { s with mem := m } :=
  ⟨.refl .., .refl .., h, rfl, rfl, rfl, rfl⟩

theorem Frame.ofRegsMem {g : Regs} {m : Memory} (hg : RegsFrame i s.regs g) (hm : MemFrame i s.mem m) :
    Frame i s { s with regs := g, mem := m } :=
  ⟨hg, .refl .., hm, rfl, rfl, rfl, rfl⟩

/-- RESULT alone is written. -/
theorem Frame.setResult (hi : i ∈ [.gfAdd, .gfMul, .gfDiv, .gfPow, .gfExp, .gfLog, .geoClassify, .placeUnmap])
    (v : Word) : Frame i s (s.setResult v) := by
  refine .ofRegs ?_
  constructor
  case result => exact fun hn => absurd hi hn
  all_goals simp

/-- GRID alone is written. -/
theorem Frame.setGrid (hi : i ∈ [.gridInit, .placeWrite]) (b : Buffer 1) :
    Frame i s { s with mem := { s.mem with grid := b } } := by
  refine .ofMem ?_
  constructor
  case grid => exact fun hn => absurd hi hn
  all_goals simp

/-- NERR, SYNZ, CORR, SYN and MSG are written, at most. -/
theorem Frame.corrected (hi : i ∈ [.rsCorrect, .rsCorrectBitflip]) (n : Word) (z c : Bool) (msg syn : Buffer 8) :
    Frame i s { s with
      regs := { s.regs with nerr := n }
      status := s.status.setSynzCorr z c
      mem := { s.mem with msg := msg, syn := syn } } := by
  have hsynz : i ∈ [.rsSyndrome, .rsCorrect, .rsCorrectBitflip] := List.mem_cons_of_mem _ hi
  refine ⟨?regs, ⟨rfl, fun hn => absurd hsynz hn, fun hn => absurd hi hn⟩, ?mem, rfl, rfl, rfl, rfl⟩
  case regs =>
    constructor
    case nerr => exact fun hn => absurd (List.mem_cons_of_mem _ hi) hn
    all_goals simp
  case mem =>
    have hmsg : i ∈ [.rsEncode, .rsForney, .rsCorrect, .rsCorrectBitflip, .placeRead] := by
      simp only [List.mem_cons] at hi ⊢
      tauto
    constructor
    case msg => exact fun hn => absurd hmsg hn
    case syn => exact fun hn => absurd hsynz hn
    all_goals simp

end

/-! ### The commands -/

/-- The writes of each command are those that the tables give it. -/
theorem exec_returns_frame (s : State) : ∀ i : Instr, ∃ r, exec i s = runCommand s r ∧ ReturnsOnly (Frame i s) r
  | .nop => ⟨_, rfl, .ok (.refl ..)⟩
  | .gfPow | .gfExp | .gfLog => ⟨_, rfl, .bind fun _ => .ok (.setResult (by decide) _)⟩
  | .gfAdd | .gfMul | .geoClassify => ⟨_, rfl, .bind fun _ => .bind fun _ => .ok (.setResult (by decide) _)⟩
  | .gfDiv => ⟨_, rfl, .bind fun _ => .bind fun _ => .bind fun _ => .ok (.setResult (by decide) _)⟩
  | .rsGenpoly => ⟨_, rfl, .bind fun _ => .ok (.ofMem (by constructor <;> simp))⟩
  | .rsEncode => ⟨_, rfl, .bind fun _ => .bind fun _ => .ok (.ofMem (by constructor <;> simp))⟩
  | .rsSyndrome => ⟨_, rfl, .bind fun _ => .bind fun _ =>
      .ok ⟨.refl .., by constructor <;> simp, by constructor <;> simp, rfl, rfl, rfl, rfl⟩⟩
  | .rsLocator | .rsChien => ⟨_, rfl, .bind fun _ => .bind fun _ => .bind fun _ =>
      .ok (.ofRegsMem (by constructor <;> simp) (by constructor <;> simp))⟩
  | .rsForney => ⟨_, rfl, .bind fun _ => .bind fun _ => .bind fun _ => .bind fun _ =>
      .ok (.ofMem (by constructor <;> simp))⟩
  | .rsCorrect | .rsCorrectBitflip => by
    refine ⟨_, rfl, .bind fun _ => .bind fun _ => .ite (.ok (.corrected (by decide) ..)) ?_⟩
    split
    · exact .error _
    · exact .ok (.corrected (by decide) ..)
  | .geoSelect | .geoLookup | .geoInfo => ⟨_, rfl, .bind fun _ =>
      .ok (.ofRegs (by constructor <;> simp [Regs.setSizeIdx, Regs.setDims, Regs.setCounts]))⟩
  | .gridInit => ⟨_, rfl, .bind fun _ => .ok (.setGrid (by decide) _)⟩
  | .placeWrite => ⟨_, rfl, .bind fun _ => .bind fun _ => .ok (.setGrid (by decide) _)⟩
  | .placeRead => ⟨_, rfl, .bind fun _ => .bind fun _ => .ok (.ofMem (by constructor <;> simp))⟩
  | .placeMap | .placeUnmap => ⟨_, rfl, .bind fun _ => .bind fun _ => .ok (.ofRegs (by constructor <;> simp))⟩

/-- Completion and raising touch the handshake fields only, so the frame holds at the end too (R37). -/
theorem exec_frame {i : Instr} {s t : State} (h : exec i s = .next t) :
    Frame i s t ∧ t.status.busy = false ∧ t.status.done = true ∧ t.pending = none := by
  obtain ⟨r, hrun, hret⟩ := exec_returns_frame s i
  obtain ⟨u, hr, rfl⟩ | ⟨k, -, rfl⟩ := runCommand_next (hrun.symm.trans h)
  · obtain ⟨hregs, ⟨hhaz, hsynz, hcorr⟩, hmem, hown⟩ := hret u hr
    exact ⟨⟨hregs, ⟨hhaz, hsynz, hcorr⟩, hmem, hown⟩, rfl, rfl, rfl⟩
  · exact ⟨⟨.refl .., ⟨rfl, fun _ => rfl, fun _ => rfl⟩, .refl .., rfl, rfl, rfl, rfl⟩, rfl, rfl, rfl⟩

/-- Settles O21: the clauses of the frame, one by one. -/
theorem commandsWriteOnlyWhatTheTableNames : Obligations.CommandsWriteOnlyWhatTheTableNames := by
  intro i s t h
  obtain ⟨⟨hregs, hflags, hmem, hwait, haccepted, hinputs, hreplies⟩, hbusy, hdone, hpending⟩ := exec_frame h
  obtain ⟨hopa, hopb, hlen, hnsym⟩ := hregs.operands
  exact ⟨hregs.cmd, hopa, hopb, hlen, hnsym, hflags.haz, hbusy, hdone, hpending, hregs.result, hregs.nerr,
    hregs.nfound, hregs.sizeIdx, hregs.dims, hregs.counts, hregs.bitidx, hregs.cell, hflags.synz, hflags.corr,
    hmem.msg, hmem.gen, hmem.syn, hmem.loc, hmem.pos, hmem.mag, hmem.grid, hwait, haccepted, hinputs, hreplies⟩

end Sys2Proof.Proofs
end

section
/-! SUPPORT. The statement that no command reads a flag (10_state.md R48): run from two states that differ in flags
only, a pseudocode makes the same checks and readings. -/

namespace Sys2Proof.Proofs

open Sys2Proof.Machine Sys2Proof.Safety Sys2Proof.Laws

/-- The two states have the same registers, memories and error. -/
structure SameVisible (u u' : State) : Prop where
  regs : u'.regs = u.regs
  mem : u'.mem = u.mem
  err : u'.status.err = u.status.err

/-- Two runs of a pseudocode that end in the same way, and return states alike but for flags. -/
inductive Alike : Except Stop State → Except Stop State → Prop
  | ok {u u' : State} (h : SameVisible u u') : Alike (.ok u) (.ok u')
  | error (e : Stop) : Alike (.error e) (.error e)

/-- A check or a reading answers both runs alike. -/
theorem Alike.bind {α : Type} {x : Except Stop α} {f f' : α → Except Stop State} (h : ∀ a, Alike (f a) (f' a)) :
    Alike (x >>= f) (x >>= f') := by
  cases x with
  | error e => exact .error e
  | ok a => exact h a

theorem Alike.ite {c : Prop} [Decidable c] {r₁ r₂ r₁' r₂' : Except Stop State} (h₁ : Alike r₁ r₁') (h₂ : Alike r₂ r₂') :
    Alike (if c then r₁ else r₂) (if c then r₁' else r₂') := by
  split
  · exact h₁
  · exact h₂

/-- RS_FORNEY's loop looks at LOC and EVAL only. -/
theorem forneyLoop_withFlags (s : State) (z c h : Bool) (n l nsym : Nat) (ps : List Nat) (m : Buffer 8) :
    forneyLoop (withFlags s z c h) n l nsym ps m = forneyLoop s n l nsym ps m := by
  induction ps generalizing m with
  | nil => rfl
  | cons p ps ih =>
    simp only [forneyLoop, ih]
    rfl

/-- The runs of one command from `s` and from `s` with other flags. -/
theorem exec_alike (s : State) (z c h : Bool) : ∀ i : Instr, ∃ r r',
    exec i s = runCommand s r ∧ exec i (withFlags s z c h) = runCommand (withFlags s z c h) r' ∧ Alike r r'
  | .nop => ⟨.ok s, .ok (withFlags s z c h), rfl, rfl, .ok ⟨rfl, rfl, rfl⟩⟩
  | .gfPow | .gfExp | .gfLog | .rsGenpoly | .geoSelect | .geoLookup | .geoInfo | .gridInit =>
    ⟨_, _, rfl, rfl, .bind fun _ => .ok ⟨rfl, rfl, rfl⟩⟩
  | .gfAdd | .gfMul | .rsEncode | .rsSyndrome | .geoClassify | .placeWrite | .placeRead | .placeMap | .placeUnmap =>
    ⟨_, _, rfl, rfl, .bind fun _ => .bind fun _ => .ok ⟨rfl, rfl, rfl⟩⟩
  | .gfDiv | .rsLocator | .rsChien =>
    ⟨_, _, rfl, rfl, .bind fun _ => .bind fun _ => .bind fun _ => .ok ⟨rfl, rfl, rfl⟩⟩
  | .rsForney => by
    refine ⟨_, _, rfl, rfl, .bind fun _ => .bind fun _ => .bind fun _ => ?_⟩
    rw [forneyLoop_withFlags]
    exact .bind fun _ => .ok ⟨rfl, rfl, rfl⟩
  | .rsCorrect => by
    refine ⟨_, _, rfl, rfl, .bind fun p => .bind fun m => .ite (.ok ⟨rfl, rfl, rfl⟩) ?_⟩
    cases correctErrors m (syndromes m p.2) p.2 with
    | none => exact .error _
    | some r => exact .ok ⟨rfl, rfl, rfl⟩
  | .rsCorrectBitflip => by
    refine ⟨_, _, rfl, rfl, .bind fun p => .bind fun m => .ite (.ok ⟨rfl, rfl, rfl⟩) ?_⟩
    cases bitflipSearch m p.2 with
    | none => exact .error _
    | some k => exact .ok ⟨rfl, rfl, rfl⟩

/-- Settles O22: the two runs return or raise alike, and raising keeps registers and memories. -/
theorem noCommandReadsAFlag : Obligations.NoCommandReadsAFlag := by
  intro i s z c h
  obtain ⟨r, r', hrun, hrun', halike⟩ := exec_alike s z c h i
  rw [hrun, hrun']
  cases halike with
  | ok hsame =>
    refine ⟨?_, nofun⟩
    rintro _ ⟨⟩
    exact ⟨_, rfl, hsame.regs, hsame.mem, hsame.err⟩
  | error e =>
    cases e with
    | raise k =>
      refine ⟨?_, nofun⟩
      rintro _ ⟨⟩
      exact ⟨_, rfl, rfl, rfl, rfl⟩
    | unwritten b j => exact ⟨nofun, fun f hf => hf⟩

end Sys2Proof.Proofs
end

section
/-! SUPPORT. The invariant of the machine: what the commands may leave in memories, RESULT and the codeword counts,
and what the host's accesses and reset leave (10_state.md R31 to R42; 70_reset_and_hazards.md R400). -/

namespace Sys2Proof.Proofs

open Sys2Proof.Machine Sys2Proof.Safety Sys2Proof.Laws

/-! ### The part of the invariant that commands write -/

/-- The canonical form of the eight memories, by name. -/
structure MemOk (m : Memory) : Prop where
  msg : Buffer.wf BufId.msg.cap m.msg
  gen : Buffer.wf BufId.gen.cap m.gen
  syn : Buffer.wf BufId.syn.cap m.syn
  loc : Buffer.wf BufId.loc.cap m.loc
  eval : Buffer.wf BufId.eval.cap m.eval
  pos : Buffer.wf BufId.pos.cap m.pos
  mag : Buffer.wf BufId.mag.cap m.mag
  grid : Buffer.wf BufId.grid.cap m.grid

theorem memOk_iff {m : Memory} : MemOk m ↔ m.wf :=
  ⟨fun ⟨h1, h2, h3, h4, h5, h6, h7, h8⟩ => ⟨h1, h2, h3, h4, h5, h6, h7, h8⟩,
    fun ⟨h1, h2, h3, h4, h5, h6, h7, h8⟩ => ⟨h1, h2, h3, h4, h5, h6, h7, h8⟩⟩

theorem MemOk.setGrid {m : Memory} (h : MemOk m) {g : Buffer 1} (hg : Buffer.wf BufId.grid.cap g) :
    MemOk { m with grid := g } :=
  { h with grid := hg }

/-- DATA_CW and EC_CW are those of one entry, or both still 0. -/
def CountsOk (g : Regs) : Prop :=
  (g.dataCw = 0 ∧ g.ecCw = 0) ∨
    ∃ i, i < 30 ∧ g.dataCw.toNat = (sizeAt i).dataCw ∧ g.ecCw.toNat = (sizeAt i).ecCw

/-- What of the invariant is about registers and memories. -/
structure DataInv (s : State) : Prop where
  mem : MemOk s.mem
  result : s.regs.result.toNat < 256
  counts : CountsOk s.regs

theorem DataInv.setResult {s : State} (h : DataInv s) {v : Word} (hv : v.toNat < 256) : DataInv (s.setResult v) :=
  ⟨h.mem, hv, h.counts⟩

theorem DataInv.setMem {s : State} (h : DataInv s) {m : Memory} (hm : MemOk m) : DataInv { s with mem := m } :=
  ⟨hm, h.result, h.counts⟩

/-! ### Sizes -/

theorem toNat_setWidth_lt {w : Nat} (hw : w ≤ 8) (v : BitVec w) : (v.setWidth 32).toNat < 256 := by
  have hlt : v.toNat < 2 ^ 8 := v.isLt.trans_le (Nat.pow_le_pow_right (by decide) hw)
  rw [BitVec.toNat_setWidth, Nat.mod_eq_of_lt (by omega)]
  exact hlt

theorem toNat_ofNat_lt {n : Nat} (hn : n < 256) : (BitVec.ofNat 32 n).toNat < 256 := by
  rw [BitVec.toNat_ofNat, Nat.mod_eq_of_lt (by omega)]
  exact hn

theorem sizeAt_bounds {i : Nat} (hi : i < 30) :
    (sizeAt i).rows ≤ 144 ∧ (sizeAt i).dataCw ≤ 1558 ∧ (sizeAt i).ecCw ≤ 620 := by
  have htable : ∀ a < 30, (sizeAt a).rows ≤ 144 ∧ (sizeAt a).dataCw ≤ 1558 ∧ (sizeAt a).ecCw ≤ 620 := by decide
  exact htable i hi

theorem countsOk_setCounts {i : Nat} (hi : i < 30) (g : Regs) : CountsOk (g.setCounts (sizeAt i)) := by
  obtain ⟨-, hdata, hec⟩ := sizeAt_bounds hi
  refine .inr ⟨i, hi, ?_, ?_⟩ <;> exact (BitVec.toNat_ofNat ..).trans (Nat.mod_eq_of_lt (by omega))

theorem selectSize_lt {k i : Nat} (h : selectSize k = .ok i) : i < 30 := by
  unfold selectSize at h
  split at h
  case h_1 hfind =>
    cases h
    exact (findIdx?_sizeTable_eq_some_iff.1 hfind).1
  case h_2 => cases h

theorem lookupSize_lt {rows cols i : Nat} (h : lookupSize rows cols = .ok i) : i < 30 := by
  unfold lookupSize at h
  split at h
  case h_1 hfind =>
    cases h
    exact (findIdx?_sizeTable_eq_some_iff.1 hfind).1
  case h_2 => cases h

/-- R291: the cell of an index of the interior is a cell of GRID. -/
theorem placeIndex_lt_cap {i k : Nat} (hi : i ≤ 29) (hk : k < (sizeAt i).interior) :
    placeIndex (sizeAt i) k < BufId.grid.cap := by
  obtain ⟨hrows, -, -⟩ := sizeAt_bounds (Nat.lt_succ_of_le hi)
  have hcols := cols_sizeAt_le hi
  obtain ⟨⟨hr1, hr2⟩, hc1, hc2⟩ := cellOf_mem_interior (evenDims_sizeAt hi) hk
  exact gridIndex_lt_cap (by omega) (by omega)

theorem placeBits_wf {e : SymbolSize} {cap : Nat} (d : List Byte) {n k : Nat} {g : Buffer 1} (hg : Buffer.wf cap g)
    (hk : ∀ j < k + n, placeIndex e j < cap) : Buffer.wf cap (placeBits e d k n g) := by
  induction n generalizing k g with
  | zero => exact hg
  | succ n ih => exact ih (write_wf _ hg (hk k (by omega))) fun j hj => hk j (by omega)

theorem forneyPosition_lt {s : State} {k p : Nat} (h : forneyPosition s k = .ok p) : p < s.regs.len.toNat := by
  obtain ⟨v, -, h⟩ := bind_ok h
  split_ifs at h with hv
  cases h
  omega

/-- The positions that RS_FORNEY has checked (R212). -/
theorem collect_forneyPosition_lt {s : State} {n : Nat} {ps : List Nat}
    (h : collect (forneyPosition s) 0 n = .ok ps) : ps.length = n ∧ ∀ p ∈ ps, p < s.regs.len.toNat := by
  obtain ⟨hlen, heach⟩ := collect_eq_ok _ h
  refine ⟨hlen, fun p hp => ?_⟩
  obtain ⟨k, hk, rfl⟩ := List.getElem_of_mem hp
  exact forneyPosition_lt (heach k hk)

theorem length_of_correctErrors {m v m' : List Byte} {nsym l : Nat} (h : correctErrors m v nsym = some (l, m')) :
    m'.length = m.length := by
  obtain ⟨-, heq⟩ := correctErrors_eq_some_iff.1 h
  cases heq
  exact correctedMessage_length ..

/-! ### What each command leaves -/

/-- As `ReturnsOnly.bind`, for a pseudocode whose later part needs what the check or reading answered. -/
theorem ReturnsOnly.bind_of {P : State → Prop} {α : Type} {x : Except Stop α} {f : α → Except Stop State}
    (h : ∀ a, x = .ok a → ReturnsOnly P (f a)) : ReturnsOnly P (x >>= f) := by
  intro u hu
  obtain ⟨a, hx, ha⟩ := bind_ok hu
  exact h a hx u ha

/-- What the pseudocode of command `i` returns for `s` is within the sizes. -/
def KeepsData (i : Instr) (s : State) : Prop := ∃ r, exec i s = runCommand s r ∧ ReturnsOnly DataInv r

section
variable {s : State} (h : DataInv s)
include h

theorem keepsData_rsGenpoly : KeepsData .rsGenpoly s := by
  refine ⟨_, rfl, .bind_of fun nsym hnsym => .ok (h.setMem { h.mem with gen := writeRange_wf _ h.mem.gen ?_ })⟩
  obtain ⟨-, -, hmax⟩ := nsymOperand_eq_ok hnsym
  show 0 + (genpoly nsym).length ≤ 1024
  rw [genpoly_length]
  omega

theorem keepsData_rsEncode : KeepsData .rsEncode s := by
  refine ⟨_, rfl, .bind_of fun p hp => .bind fun d => .ok (h.setMem
    { h.mem with msg := writeRange_wf _ h.mem.msg ?_, gen := writeRange_wf _ h.mem.gen ?_ })⟩
  all_goals obtain ⟨-, -, -, hmax, hle, hcap⟩ := rsCheck_eq_ok hp
  · show p.1 - p.2 + (rsRemainder d p.2).length ≤ 4096
    rw [rsRemainder_length]
    omega
  · show 0 + (genpoly p.2).length ≤ 1024
    rw [genpoly_length]
    omega

theorem keepsData_rsSyndrome : KeepsData .rsSyndrome s := by
  refine ⟨_, rfl, .bind_of fun p hp => .bind fun m => .ok ⟨{ h.mem with syn := writeRange_wf _ h.mem.syn ?_ },
    h.result, h.counts⟩⟩
  obtain ⟨-, -, -, hmax, -, -⟩ := rsCheck_eq_ok hp
  show 0 + (syndromes m p.2).length ≤ 1024
  rw [syndromes_length]
  omega

theorem keepsData_rsLocator : KeepsData .rsLocator s := by
  refine ⟨_, rfl, .bind_of fun nsym hnsym => .bind_of fun v hv => .bind fun _ => .ok ⟨{ h.mem with
    loc := writeRange_wf _ h.mem.loc ?_, eval := writeRange_wf _ h.mem.eval ?_ }, h.result, h.counts⟩⟩
  all_goals
    obtain ⟨-, -, hmax⟩ := nsymOperand_eq_ok hnsym
    obtain ⟨hlen, -⟩ := readRange_eq_ok hv
  · show 0 + (bm v).c.length ≤ 1024
    rw [(bm_ok v).c_length]
    omega
  · show 0 + (evaluator v (bm v).c (bm v).l).length ≤ 1024
    rw [evaluator_length]
    omega

theorem keepsData_rsChien : KeepsData .rsChien s := by
  refine ⟨_, rfl, .bind_of fun _ hrange => .bind fun q => .bind_of fun _ hroots => .ok ⟨{ h.mem with
    pos := writeRange_wf _ h.mem.pos ?_ }, h.result, h.counts⟩⟩
  have hl := raiseIf_ok hrange
  have hps := raiseIf_ok hroots
  simp only [Config.nsymMax, Bool.or_eq_false_iff, decide_eq_false_iff_not, not_lt, gt_iff_lt, ne_eq, not_not]
    at hl hps
  show 0 + (List.map _ _).length ≤ 1024
  rw [List.length_map]
  omega

theorem keepsData_rsForney : KeepsData .rsForney s := by
  refine ⟨_, rfl, .bind_of fun _ hrange => .bind_of fun ps hps => .bind fun _ => .bind_of fun r hloop => .ok (h.setMem
    { h.mem with msg := ?_, mag := writeRange_wf _ h.mem.mag ?_ })⟩
  all_goals
    obtain ⟨hlen, hbelow⟩ := collect_forneyPosition_lt hps
    obtain ⟨hmag, -, hmsg⟩ := forneyLoop_spec hloop
    have hr := not_not.1 (mt (forneyCheck_iff s).2 (Bool.eq_false_iff.1 (raiseIf_ok hrange)))
    obtain ⟨-, -, hcap, -, hfound⟩ := hr
  · exact hmsg _ (fun p hp => (hbelow p hp).trans_le hcap) h.mem.msg
  · show 0 + r.2.length ≤ 1024
    omega

theorem dataInv_noErrors {nsym : Nat} (hmax : nsym ≤ 1023) : DataInv (s.noErrors nsym) := by
  refine ⟨{ h.mem with syn := writeRange_wf _ h.mem.syn ?_ }, h.result, h.counts⟩
  show 0 + (List.replicate nsym 0).length ≤ 1024
  rw [List.length_replicate]
  omega

theorem dataInv_corrected {msg : Buffer 8} (hmsg : Buffer.wf BufId.msg.cap msg) (m : List Byte) {nsym : Nat}
    (hmax : nsym ≤ 1023) (l : Nat) : DataInv (s.corrected msg (syndromes m nsym) l) := by
  refine ⟨{ h.mem with msg := hmsg, syn := writeRange_wf _ h.mem.syn ?_ }, h.result, h.counts⟩
  show 0 + (syndromes m nsym).length ≤ 1024
  rw [syndromes_length]
  omega

theorem keepsData_rsCorrect : KeepsData .rsCorrect s := by
  refine ⟨_, rfl, .bind_of fun p hp => .bind_of fun m hm => ?_⟩
  obtain ⟨-, -, -, hmax, -, hcap⟩ := rsCheck_eq_ok hp
  obtain ⟨hlen, -⟩ := readRange_eq_ok hm
  refine .ite (.ok (dataInv_noErrors h hmax)) ?_
  cases hfind : correctErrors m (syndromes m p.2) p.2 with
  | none => exact .error _
  | some r =>
    refine .ok (dataInv_corrected h (writeRange_wf _ h.mem.msg ?_) m hmax r.1)
    show 0 + r.2.length ≤ 4096
    rw [length_of_correctErrors hfind]
    omega

theorem keepsData_rsCorrectBitflip : KeepsData .rsCorrectBitflip s := by
  refine ⟨_, rfl, .bind_of fun p hp => .bind_of fun m hm => ?_⟩
  obtain ⟨-, -, -, hmax, -, hcap⟩ := rsCheck_eq_ok hp
  obtain ⟨hlen, -⟩ := readRange_eq_ok hm
  refine .ite (.ok (dataInv_noErrors h hmax)) ?_
  cases hfind : bitflipSearch m p.2 with
  | none => exact .error _
  | some k =>
    have hk := List.mem_range.1 (List.mem_of_find?_eq_some hfind)
    refine .ok (dataInv_corrected h (write_wf _ h.mem.msg ?_) m hmax 1)
    show k / 8 < 4096
    omega

theorem keepsData_gridInit : KeepsData .gridInit s :=
  ⟨_, rfl, .bind fun _ => .ok (h.setMem (h.mem.setGrid (fill_wf (Config.gridDim * Config.gridDim) _)))⟩

theorem keepsData_placeWrite : KeepsData .placeWrite s := by
  refine ⟨_, rfl, .bind_of fun e he => .bind fun d => .ok (h.setMem (h.mem.setGrid (placeBits_wf d h.mem.grid ?_)))⟩
  obtain ⟨hs, rfl⟩ := sizeOperand_eq_ok he
  intro k hk
  have hplaced : (sizeAt s.regs.sizeIdx.toNat).placed ≤ (sizeAt s.regs.sizeIdx.toNat).interior := Nat.min_le_right ..
  exact placeIndex_lt_cap hs (by omega)

theorem keepsData_placeRead : KeepsData .placeRead s := by
  refine ⟨_, rfl, .bind_of fun e he => .bind_of fun d hd => .ok (h.setMem
    { h.mem with msg := writeRange_wf _ h.mem.msg ?_ })⟩
  obtain ⟨hs, rfl⟩ := sizeOperand_eq_ok he
  obtain ⟨hlen, -⟩ := collect_eq_ok _ hd
  obtain ⟨-, hdata, hec⟩ := sizeAt_bounds (Nat.lt_succ_of_le hs)
  rw [SymbolSize.codewords] at hlen
  show 0 + d.length ≤ 4096
  omega

theorem keepsData_placeUnmap : KeepsData .placeUnmap s := by
  refine ⟨_, rfl, .bind fun e => .bind fun _ => .ok ⟨h.mem, ?_, h.counts⟩⟩
  show (if _ < e.budget then (1 : Word) else 0).toNat < 256
  split <;> decide

theorem keepsData : ∀ i : Instr, KeepsData i s
  | .nop => ⟨_, rfl, .ok h⟩
  | .gfPow | .gfExp => ⟨_, rfl, .bind fun _ => .ok (h.setResult (toNat_setWidth_lt le_rfl _))⟩
  | .gfLog => ⟨_, rfl, .bind fun _ => .ok (h.setResult (toNat_ofNat_lt ((glog_lt _).trans (by decide))))⟩
  | .gfAdd | .gfMul => ⟨_, rfl, .bind fun _ => .bind fun _ => .ok (h.setResult (toNat_setWidth_lt le_rfl _))⟩
  | .gfDiv => ⟨_, rfl, .bind fun _ => .bind fun _ => .bind fun _ => .ok (h.setResult (toNat_setWidth_lt le_rfl _))⟩
  | .rsGenpoly => keepsData_rsGenpoly h
  | .rsEncode => keepsData_rsEncode h
  | .rsSyndrome => keepsData_rsSyndrome h
  | .rsLocator => keepsData_rsLocator h
  | .rsChien => keepsData_rsChien h
  | .rsForney => keepsData_rsForney h
  | .rsCorrect => keepsData_rsCorrect h
  | .rsCorrectBitflip => keepsData_rsCorrectBitflip h
  | .geoSelect => ⟨_, rfl, .bind_of fun _ hi => .ok ⟨h.mem, h.result, countsOk_setCounts (selectSize_lt hi) _⟩⟩
  | .geoLookup => ⟨_, rfl, .bind_of fun _ hi => .ok ⟨h.mem, h.result, countsOk_setCounts (lookupSize_lt hi) _⟩⟩
  | .geoInfo => ⟨_, rfl, .bind_of fun _ he => .ok ⟨h.mem, h.result, by
      obtain ⟨hs, rfl⟩ := sizeOperand_eq_ok he
      exact countsOk_setCounts (Nat.lt_succ_of_le hs) _⟩⟩
  | .gridInit => keepsData_gridInit h
  | .geoClassify => ⟨_, rfl, .bind fun _ => .bind fun _ => .ok (h.setResult (toNat_setWidth_lt (by decide) _))⟩
  | .placeWrite => keepsData_placeWrite h
  | .placeRead => keepsData_placeRead h
  | .placeMap => ⟨_, rfl, .bind fun _ => .bind fun _ => .ok ⟨h.mem, h.result, h.counts⟩⟩
  | .placeUnmap => keepsData_placeUnmap h

end

/-! ### The engine's step -/

theorem dataInv_of_inv {s : State} (h : Inv s) : DataInv s := ⟨memOk_iff.2 h.mem_wf, h.result_byte, h.counts_entry⟩

/-- With nothing pending and DONE = 1 the invariant is about registers and memories only. -/
theorem DataInv.inv {s : State} (h : DataInv s) (hbusy : s.status.busy = false) (hdone : s.status.done = true)
    (hpending : s.pending = none) : Inv s where
  mem_wf := memOk_iff.1 h.mem
  busy_pending := by rw [hbusy, hpending, Option.isSome_none]
  pending_cmd w hw := by cases hpending.symm.trans hw
  busy_clear hb := by cases hbusy.symm.trans hb
  err_done _ := hdone
  result_byte := h.result
  counts_entry := h.counts

theorem inv_raiseError {s : State} (h : DataInv s) (k : ErrorKind) : Inv (s.raiseError k) :=
  DataInv.inv ⟨h.mem, h.result, h.counts⟩ rfl rfl rfl

theorem inv_exec {i : Instr} {s t : State} (h : DataInv s) (hrun : exec i s = .next t) : Inv t := by
  obtain ⟨r, hexec, hret⟩ := keepsData h i
  obtain ⟨u, hr, rfl⟩ | ⟨k, -, rfl⟩ := runCommand_next (hexec.symm.trans hrun)
  · have hu := hret u hr
    exact DataInv.inv ⟨hu.mem, hu.result, hu.counts⟩ rfl rfl rfl
  · exact inv_raiseError h k

theorem inv_engineStep {w : Word} {s t : State} (h : DataInv s) (hrun : engineStep w s = .next t) : Inv t := by
  rcases engineStep_cases w s with ⟨i, -, hi⟩ | ⟨e, -, he⟩
  · exact inv_exec h (hi.symm.trans hrun)
  · cases he.symm.trans hrun
    exact inv_raiseError h _

/-! ### The host's step -/

/-- Settles O17: nothing is listed in the memories, and everything else is 0. -/
theorem resetMeetsTheInvariant : Obligations.ResetMeetsTheInvariant where
  mem_wf := reset_wf
  busy_pending := rfl
  pending_cmd := nofun
  busy_clear := nofun
  err_done h := absurd rfl h
  result_byte := by decide
  counts_entry := .inl ⟨rfl, rfl⟩

section
variable {s : State} (h : Inv s)
include h

/-- The model's own fields are no part of the invariant. -/
theorem inv_setOwn (n a : Nat) (is : List Input) (rs : List Reply) :
    Inv { s with wait := n, accepted := a, inputs := is, replies := rs } :=
  ⟨h.mem_wf, h.busy_pending, h.pending_cmd, h.busy_clear, h.err_done, h.result_byte, h.counts_entry⟩

/-- HAZ is no part of the invariant. -/
theorem inv_withHaz (z : Bool) : Inv { s with status := { s.status with haz := z } } :=
  ⟨h.mem_wf, h.busy_pending, h.pending_cmd, h.busy_clear, h.err_done, h.result_byte, h.counts_entry⟩

theorem inv_writeReg (r : RegId) (v : Word) : Inv (s.writeReg r v) := by
  cases r with
  | cmd =>
    refine ⟨h.mem_wf, rfl, ?_, fun _ => ⟨rfl, rfl⟩, fun hne => absurd rfl hne, h.result_byte, h.counts_entry⟩
    rintro _ ⟨⟩
    rfl
  | status =>
    rw [State.writeReg, status_hostWrite]
    exact inv_withHaz h _
  | _ => exact ⟨h.mem_wf, h.busy_pending, h.pending_cmd, h.busy_clear, h.err_done, h.result_byte, h.counts_entry⟩

theorem inv_setElem {b : BufId} {i : Nat} (hi : i < b.cap) (v : Word) : Inv { s with mem := s.mem.setElem b i v } :=
  ⟨setElem_wf b v h.mem_wf hi, h.busy_pending, h.pending_cmd, h.busy_clear, h.err_done, h.result_byte, h.counts_entry⟩

theorem inv_hostWrite {t : Target} (ht : validTarget t) (v : Word) : Inv (hostWrite s t v) := by
  cases hb : s.status.busy with
  | true =>
    rw [hostWrite_busy hb]
    exact inv_withHaz h true
  | false =>
    cases t with
    | reg r =>
      rw [hostWrite_idle_reg hb]
      exact inv_writeReg h r v
    | elem b i =>
      rw [hostWrite_idle_elem hb]
      exact inv_setElem h ht v

theorem inv_hostStep {t : State} (hrun : hostStep s = .next t) : Inv t := by
  rcases hostStep_cases s with ⟨-, heq⟩ | ⟨rest, -, heq⟩ | ⟨a, tg, v, rest, -, -, -, heq⟩ |
    ⟨a, tg, v, rest, -, htg, heq⟩ | ⟨rest, -, heq⟩ | ⟨f, heq⟩ <;> cases heq.symm.trans hrun
  · exact h
  · exact inv_setOwn resetMeetsTheInvariant 0 s.accepted rest s.replies
  · exact inv_setOwn h _ _ _ _
  · obtain ⟨-, hvalid⟩ := eq_addr_of_targetAt htg
    exact inv_setOwn (inv_hostWrite h hvalid v) _ _ _ _
  · exact inv_setOwn h _ _ _ _

end

/-- Settles O16: a step is the host's, perhaps with less latency left, or the engine's. -/
theorem stepKeepsTheInvariant : Obligations.StepKeepsTheInvariant := by
  intro s t h hrun
  cases hp : s.pending with
  | none => exact inv_hostStep h ((step_pending_none hp).symm.trans hrun)
  | some w =>
    cases hw : s.wait with
    | zero => exact inv_engineStep (dataInv_of_inv h) ((step_engine hp hw).symm.trans hrun)
    | succ k =>
      exact inv_hostStep (inv_setOwn h k s.accepted s.inputs s.replies) ((step_waiting hp hw).symm.trans hrun)

end Sys2Proof.Proofs
end

section
/-! SUPPORT. The host's operations on an idle block, one by one: writing registers and runs of elements, reading them,
and running a command whose end is known (49_host_sequences.md R331; 30_encoding.md R106). -/

namespace Sys2Proof.Proofs

open Sys2Proof.Machine Sys2Proof.Safety Sys2Proof.Laws

/-! ### Registers and elements -/

theorem wrRegNow_idle {s : State} (hb : s.status.busy = false) (r : RegId) (v : Word) :
    wrRegNow r v s = s.writeReg r v :=
  hostWrite_idle_reg hb r v

/-- LEN and NSYM, as the sequences write them before an RS command. -/
theorem wrRegNow_len_nsym {s : State} (hb : s.status.busy = false) (n nsym : Word) :
    wrRegNow .nsym nsym (wrRegNow .len n s) = { s with regs := { s.regs with len := n, nsym := nsym } } := by
  rw [wrRegNow_idle hb, wrRegNow_idle (s := s.writeReg .len n) hb]
  rfl

theorem setWidth_byte_word (v : Byte) : (v.setWidth 32 : Word).setWidth 8 = v := by simp

theorem loadNow_msg (vs : List Byte) (i : Nat) {s : State} (hb : s.status.busy = false) :
    loadNow .msg i (vs.map fun v => v.setWidth 32) s =
      { s with mem := { s.mem with msg := Buffer.writeRange s.mem.msg i vs } } := by
  induction vs generalizing i s with
  | nil => rfl
  | cons v vs ih =>
    have hstep : hostWrite s (.elem .msg i) (v.setWidth 32) =
        { s with mem := { s.mem with msg := Buffer.write s.mem.msg i v } } := by
      rw [hostWrite_idle_elem hb, Memory.setElem, setWidth_byte_word]
    rw [List.map_cons, loadNow, hstep]
    refine ih (i + 1) ?_
    exact hb

theorem loadNow_grid (vs : List Word) (i : Nat) {s : State} (hb : s.status.busy = false) :
    loadNow .grid i vs s =
      { s with mem := { s.mem with
          grid := Buffer.writeRange s.mem.grid i (vs.map fun v => v.setWidth 1) } } := by
  induction vs generalizing i s with
  | nil => rfl
  | cons v vs ih =>
    rw [loadNow, hostWrite_idle_elem hb]
    refine ih (i + 1) ?_
    exact hb

/-- What a read of an element answers while nothing runs. -/
theorem hostRead_idle_elem {s : State} (hb : s.status.busy = false) {b : BufId} {i : Nat} {v : Word}
    (hv : s.mem.elem b i = some v) : hostRead s (.elem b i) = .ok v := by
  simp [hostRead, hb, hv]

/-- A run of reads of elements that have the values `vs`. -/
theorem readNow_eq {b : BufId} {s : State} (hb : s.status.busy = false) {vs : List Word} {i : Nat}
    (hv : ∀ j (hj : j < vs.length), s.mem.elem b (i + j) = some vs[j]) : readNow b s i vs.length = .ok vs := by
  induction vs generalizing i with
  | nil => rfl
  | cons v vs ih =>
    have hrest : readNow b s (i + 1) vs.length = .ok vs := ih fun j hj => by
      rw [Nat.add_right_comm]
      exact hv (j + 1) (Nat.succ_lt_succ hj)
    have hfirst : hostRead s (.elem b i) = .ok v := hostRead_idle_elem hb (hv 0 (Nat.succ_pos _))
    rw [List.length_cons, readNow, hfirst, hrest]
    rfl

theorem readNow_msg {vs : List Byte} {s : State} (hb : s.status.busy = false) (hv : Holds s.mem.msg 0 vs) :
    readNow .msg s 0 vs.length = .ok (vs.map fun v => v.setWidth 32) := by
  have hread := readNow_eq (b := .msg) (vs := vs.map fun v => v.setWidth 32) (i := 0) hb fun j hj => by
    rw [List.length_map] at hj
    rw [Memory.elem, hv j hj, List.getElem?_eq_getElem hj, List.getElem_map]
    rfl
  rwa [List.length_map] at hread

/-! ### Running a command -/

theorem runChecked_eq {i : Instr} {s t : State} (h : exec i (s.accept (encode i) 0) = .next t) :
    runChecked i s = hostCheck t >>= fun _ => .ok t := by
  rw [runChecked, engineStep, decode_encode]
  simp only [h]

/-- R331: a command that ends without error. -/
theorem runChecked_of_next {i : Instr} {s t : State} (h : exec i (s.accept (encode i) 0) = .next t)
    (herr : t.status.err = none) : runChecked i s = .ok t := by
  have hcheck : hostCheck t = .ok () := by
    rw [hostCheck, herr]
  rw [runChecked_eq h, hcheck, ok_bind]

theorem runChecked_dataTooLong {i : Instr} {s u : State}
    (h : exec i (s.accept (encode i) 0) = .next (afterError u .dataTooLong)) :
    runChecked i s = .error (.failed .dataTooLong) :=
  runChecked_eq h

theorem runChecked_unsupportedSymbolSize {i : Instr} {s u : State}
    (h : exec i (s.accept (encode i) 0) = .next (afterError u .unsupportedSymbolSize)) :
    runChecked i s = .error (.failed .unsupportedSymbolSize) :=
  runChecked_eq h

end Sys2Proof.Proofs
end

section
/-! SUPPORT. The host's encoder and decoder command by command, between idle states whose size registers are those of
one entry of SIZE_TABLE (49_host_sequences.md R332, R334). -/

namespace Sys2Proof.Proofs

open Sys2Proof.Machine Sys2Proof.Safety Sys2Proof.Laws

/-- Nothing runs. -/
def Idle (s : State) : Prop := s.status.busy = false

/-- The size registers are those of entry `i`. -/
structure HasEntry (g : Regs) (i : Nat) : Prop where
  lt : i < 30
  sizeIdx : g.sizeIdx.toNat = i
  rows : g.rows.toNat = (sizeAt i).rows
  cols : g.cols.toNat = (sizeAt i).cols
  dataCw : g.dataCw.toNat = (sizeAt i).dataCw
  ecCw : g.ecCw.toNat = (sizeAt i).ecCw

/-- The operand registers are not among them. -/
theorem HasEntry.setOperands {g : Regs} {i : Nat} (h : HasEntry g i) (cmd len nsym : Word) :
    HasEntry { g with cmd := cmd, len := len, nsym := nsym } i :=
  ⟨h.lt, h.sizeIdx, h.rows, h.cols, h.dataCw, h.ecCw⟩

theorem HasEntry.le {g : Regs} {i : Nat} (h : HasEntry g i) : g.sizeIdx.toNat ≤ 29 := by
  have hlt := h.lt
  rw [h.sizeIdx]
  omega

/-- Every entry has error-correction codewords. -/
theorem ecCw_sizeAt_pos {i : Nat} (hi : i < 30) : 1 ≤ (sizeAt i).ecCw := by
  have htable : ∀ a < 30, 1 ≤ (sizeAt a).ecCw := by decide
  exact htable i hi

theorem toNat_ofNat_dims {i : Nat} (hi : i < 30) :
    (BitVec.ofNat 32 (sizeAt i).rows).toNat = (sizeAt i).rows ∧
    (BitVec.ofNat 32 (sizeAt i).cols).toNat = (sizeAt i).cols := by
  obtain ⟨hrows, -, -⟩ := sizeAt_bounds hi
  have hcols := cols_sizeAt_le (Nat.le_of_lt_succ hi)
  constructor <;> exact (BitVec.toNat_ofNat ..).trans (Nat.mod_eq_of_lt (by omega))

theorem toNat_ofNat_counts {i : Nat} (hi : i < 30) :
    (BitVec.ofNat 32 (sizeAt i).dataCw).toNat = (sizeAt i).dataCw ∧
    (BitVec.ofNat 32 (sizeAt i).ecCw).toNat = (sizeAt i).ecCw := by
  obtain ⟨-, hdata, hec⟩ := sizeAt_bounds hi
  constructor <;> exact (BitVec.toNat_ofNat ..).trans (Nat.mod_eq_of_lt (by omega))

/-! ### Selection and lookup -/

/-- R332: GEO_SELECT for at most 1558 codewords. -/
theorem runChecked_geoSelect {s : State} (hs : Idle s) {k : Nat} (hk : k ≤ 1558) :
    ∃ t i, runChecked .geoSelect (wrRegNow .opa (hostWord k) s) = .ok t ∧ Idle t ∧ HasEntry t.regs i ∧
      k ≤ (sizeAt i).dataCw := by
  have hopa : (hostWord k).toNat = k := hostWord_of_lt (by omega)
  rw [wrRegNow_idle hs]
  obtain ⟨-, hfit, -⟩ := geoSelectTakesTheFirstFit
  obtain ⟨i, hi, hki, -, -, hrun⟩ :=
    hfit ((s.writeReg .opa (hostWord k)).accept (encode .geoSelect) 0) (hopa.trans_le hk)
  obtain ⟨hrows, hcols⟩ := toNat_ofNat_dims hi
  obtain ⟨hdata, hec⟩ := toNat_ofNat_counts hi
  have hidx : (BitVec.ofNat 32 i).toNat = i := (BitVec.toNat_ofNat ..).trans (Nat.mod_eq_of_lt (by omega))
  exact ⟨_, i, runChecked_of_next hrun rfl, rfl, ⟨hi, hidx, hrows, hcols, hdata, hec⟩, hopa.symm.trans_le hki⟩

/-- R332: GEO_SELECT for more codewords than any symbol holds. -/
theorem runChecked_geoSelect_tooLong {s : State} (hs : Idle s) {k : Nat} (hk : 1558 < k) :
    runChecked .geoSelect (wrRegNow .opa (hostWord k) s) = .error (.failed .dataTooLong) := by
  have hopa : 1558 < (hostWord k).toNat := by
    rw [hostWord_toNat]
    omega
  rw [wrRegNow_idle hs]
  obtain ⟨-, -, htooLong⟩ := geoSelectTakesTheFirstFit
  exact runChecked_dataTooLong (htooLong ((s.writeReg .opa (hostWord k)).accept (encode .geoSelect) 0) hopa)

/-- ROWS and COLS, as the decoder writes them. -/
theorem wrRegNow_rows_cols {s : State} (hs : Idle s) (rows cols : Word) :
    wrRegNow .cols cols (wrRegNow .rows rows s) = { s with regs := { s.regs with rows := rows, cols := cols } } := by
  rw [wrRegNow_idle hs, wrRegNow_idle (s := s.writeReg .rows rows) hs]
  rfl

/-- R334: GEO_LOOKUP of the dimensions of an entry. -/
theorem runChecked_geoLookup {s : State} (hs : Idle s) {i : Nat} (hi : i < 30) :
    ∃ t, runChecked .geoLookup
        (wrRegNow .cols (hostWord (sizeAt i).cols) (wrRegNow .rows (hostWord (sizeAt i).rows) s)) = .ok t ∧
      Idle t ∧ HasEntry t.regs i := by
  obtain ⟨hrows, -, -⟩ := sizeAt_bounds hi
  have hcols := cols_sizeAt_le (Nat.le_of_lt_succ hi)
  have hr : (hostWord (sizeAt i).rows).toNat = (sizeAt i).rows := hostWord_of_lt (by omega)
  have hc : (hostWord (sizeAt i).cols).toNat = (sizeAt i).cols := hostWord_of_lt (by omega)
  rw [wrRegNow_rows_cols hs]
  obtain ⟨-, hentry, -⟩ := geoLookupFindsTheEntry
  have hrun := hentry (({ s with regs := { s.regs with
    rows := hostWord (sizeAt i).rows
    cols := hostWord (sizeAt i).cols } } : State).accept (encode .geoLookup) 0) i hi hr hc
  obtain ⟨hdata, hec⟩ := toNat_ofNat_counts hi
  have hidx : (BitVec.ofNat 32 i).toNat = i := (BitVec.toNat_ofNat ..).trans (Nat.mod_eq_of_lt (by omega))
  exact ⟨_, runChecked_of_next hrun rfl, rfl, hi, hidx, hr, hc, hdata, hec⟩

/-- R334: GEO_LOOKUP of dimensions of no entry; a number that no word holds is none of them either. -/
theorem runChecked_geoLookup_unsupported {s : State} (hs : Idle s) {rows cols : Nat}
    (hnone : ∀ e ∈ sizeTable, ¬ (rows = e.rows ∧ cols = e.cols)) :
    runChecked .geoLookup (wrRegNow .cols (hostWord cols) (wrRegNow .rows (hostWord rows) s)) =
      .error (.failed .unsupportedSymbolSize) := by
  rw [wrRegNow_rows_cols hs]
  obtain ⟨-, -, hunsupported⟩ := geoLookupFindsTheEntry
  refine runChecked_unsupportedSymbolSize (hunsupported _ fun i hi => ?_)
  rintro ⟨hr, hc⟩
  obtain ⟨hrows, -, -⟩ := sizeAt_bounds hi
  have hcols := cols_sizeAt_le (Nat.le_of_lt_succ hi)
  refine hnone (sizeAt i) ?_ ⟨(hostWord_eq_small hrows).1 hr, (hostWord_eq_small hcols).1 hc⟩
  rw [sizeAt_eq_getElem (by exact hi)]
  exact List.getElem_mem _

/-! ### RS_ENCODE and RS_CORRECT -/

/-- The size registers are those of entry `i`, and LEN and NSYM are set for its codewords. -/
structure RsReady (s : State) (i : Nat) : Prop where
  entry : HasEntry s.regs i
  len : s.regs.len.toNat = (sizeAt i).codewords
  nsym : s.regs.nsym.toNat = (sizeAt i).ecCw

theorem RsReady.rsRange {s : State} {i : Nat} (h : RsReady s i) : RsRange s := by
  obtain ⟨-, hdata, hec⟩ := sizeAt_bounds h.entry.lt
  have hpos := ecCw_sizeAt_pos h.entry.lt
  rw [RsRange, h.len, h.nsym, SymbolSize.codewords]
  omega

/-- Another CMD and another status, as an accepted command has them, are no part of being ready. -/
theorem RsReady.accept {s : State} {i : Nat} (h : RsReady s i) (w : Word) : RsReady (s.accept w 0) i :=
  ⟨h.entry.setOperands w _ _, h.len, h.nsym⟩

theorem rsReady_wrRegNow {s : State} (hs : Idle s) {i : Nat} (h : HasEntry s.regs i) :
    ∃ u, wrRegNow .nsym (hostWord s.regs.ecCw.toNat)
        (wrRegNow .len (hostWord (s.regs.dataCw.toNat + s.regs.ecCw.toNat)) s) = u ∧ RsReady u i ∧ u.mem = s.mem := by
  obtain ⟨-, hdata, hec⟩ := sizeAt_bounds h.lt
  rw [wrRegNow_len_nsym hs, h.dataCw, h.ecCw]
  exact ⟨_, rfl, ⟨h.setOperands _ _ _, hostWord_of_lt (by omega), hostWord_of_lt (by omega)⟩, rfl⟩

/-- R332: RS_ENCODE of data in MSG. -/
theorem runChecked_rsEncode {u : State} {i : Nat} (h : RsReady u i) {d : List Byte}
    (hlen : d.length = (sizeAt i).dataCw) (hd : Holds u.mem.msg 0 d) :
    ∃ t, runChecked .rsEncode u = .ok t ∧ HasEntry t.regs i ∧
      Holds t.mem.msg 0 (d ++ rsRemainder d (sizeAt i).ecCw) := by
  have hready := h.accept (encode .rsEncode)
  have hrun := exec_rsEncode hready.rsRange
    (by rw [hready.len, hready.nsym, SymbolSize.codewords, hlen, Nat.add_sub_cancel]) hd
  have hmsg := holds_append_writeRange hd (rsRemainder d (sizeAt i).ecCw)
  rw [Nat.zero_add] at hmsg
  rw [hready.nsym] at hrun
  exact ⟨_, runChecked_of_next hrun rfl, hready.entry, hmsg⟩

/-- R334: RS_CORRECT of an encoded message in MSG. -/
theorem runChecked_rsCorrect {u : State} {i : Nat} (h : RsReady u i) {m : List Byte}
    (hlen : m.length = (sizeAt i).codewords) (hm : Holds u.mem.msg 0 m) (hcode : IsCodeword m (sizeAt i).ecCw) :
    ∃ t, runChecked .rsCorrect u = .ok t ∧ Idle t ∧ Holds t.mem.msg 0 m := by
  have hready := h.accept (encode .rsCorrect)
  rw [← hready.nsym] at hcode
  have hrun := exec_rsCorrect hready.rsRange (by rw [hready.len, hlen]) hm
  obtain ⟨t, hnext, ht, -, -⟩ := runCommand_correction_codeword (s := u.accept (encode .rsCorrect) 0) hcode
    ((correctErrors m (syndromes m u.regs.nsym.toNat) u.regs.nsym.toNat).map fun r =>
      (Buffer.writeRange u.mem.msg 0 r.2, r.1))
  refine ⟨t, runChecked_of_next (hrun.trans hnext) ?_, ?_, ?_⟩ <;> rw [ht]
  · rfl
  · rfl
  · exact hm

/-! ### The grid -/

/-- Every module of GRID has a value. -/
def GridWritten (g : Buffer 1) : Prop := ∀ r c, r < 144 → c < 144 → (Buffer.read g (gridIndex r c)).isSome

/-- The interior cells of `e` hold the stream of the codewords `m`. -/
def HoldsStream (e : SymbolSize) (m : List Byte) (g : Buffer 1) : Prop :=
  ∀ k < e.budget, Buffer.read g (placeIndex e k) = some (BitVec.ofBool (streamBool m k))

theorem isSome_read_placeBits (e : SymbolSize) (d : List Byte) {n k j : Nat} {g : Buffer 1}
    (h : (Buffer.read g j).isSome) : (Buffer.read (placeBits e d k n g) j).isSome := by
  induction n generalizing k g with
  | zero => exact h
  | succ n ih =>
    refine ih ?_
    rw [read_write]
    split
    · rfl
    · exact h

section
variable {s : State} {i : Nat} (h : HasEntry s.regs i)
include h

/-- R332: GRID_INIT gives every module a value. -/
theorem runChecked_gridInit :
    ∃ t, runChecked .gridInit s = .ok t ∧ HasEntry t.regs i ∧ t.mem.msg = s.mem.msg ∧ GridWritten t.mem.grid := by
  obtain ⟨g, hrun, -, hcells⟩ := exec_gridInit (s := s.accept (encode .gridInit) 0) h.le
  refine ⟨_, runChecked_of_next hrun rfl, h.setOperands _ _ _, rfl, fun r c hr hc => ?_⟩
  exact Option.isSome_of_eq_some (hcells r c hr hc)

/-- R332: PLACE_WRITE of the codewords in MSG. -/
theorem runChecked_placeWrite {m : List Byte} (hlen : m.length = (sizeAt i).codewords) (hm : Holds s.mem.msg 0 m)
    (hg : GridWritten s.mem.grid) :
    ∃ t, runChecked .placeWrite s = .ok t ∧ Idle t ∧ HasEntry t.regs i ∧ GridWritten t.mem.grid ∧
      HoldsStream (sizeAt i) m t.mem.grid := by
  have hle := h.le
  have hidx := h.sizeIdx
  have hrun := exec_placeWrite (s := s.accept (encode .placeWrite) 0) (d := m) hle (by rwa [← hidx] at hlen) hm
  refine ⟨_, runChecked_of_next hrun rfl, rfl, h.setOperands _ _ _, fun r c hr hc => ?_,
    fun k hk => ?_⟩
  · exact isSome_read_placeBits _ m (hg r c hr hc)
  · rw [← hidx] at hk ⊢
    exact read_placeBits_sizeAt hle m s.mem.grid hk

/-- R334: PLACE_READ of a grid that holds the stream of `m`. -/
theorem runChecked_placeRead {m : List Byte} (hlen : m.length = (sizeAt i).codewords)
    (hg : HoldsStream (sizeAt i) m s.mem.grid) :
    ∃ t, runChecked .placeRead s = .ok t ∧ Idle t ∧ HasEntry t.regs i ∧ Holds t.mem.msg 0 m := by
  have hidx := h.sizeIdx
  rw [← hidx] at hlen hg
  have hrun := exec_placeRead_stream (u := s.accept (encode .placeRead) 0) h.le hlen hg
  exact ⟨_, runChecked_of_next hrun rfl, rfl, h.setOperands _ _ _, holds_writeRange _ _ _⟩

end

end Sys2Proof.Proofs
end

section
/-! SUPPORT. The grid as the host reads and writes it, the payload's codewords, and the statement that the host's
decoder undoes its encoder (49_host_sequences.md R332 to R336). -/

namespace Sys2Proof.Proofs

open Sys2Proof.Machine Sys2Proof.Safety Sys2Proof.Laws

/-! ### Rows of the grid -/

/-- The word the host reads from GRID[r][c], where it has a value. -/
def gridWord (g : Buffer 1) (r c : Nat) : Word := ((Buffer.read g (gridIndex r c)).getD 0).setWidth 32

/-- The first `cols` words of row `r`. -/
def gridRow (g : Buffer 1) (cols r : Nat) : List Word := (List.range cols).map (gridWord g r)

@[simp] theorem gridRow_length (g : Buffer 1) (cols r : Nat) : (gridRow g cols r).length = cols := by
  simp [gridRow]

theorem gridIndex_add (r c : Nat) : gridIndex r 0 + c = gridIndex r c := by
  rw [gridIndex, gridIndex, Nat.add_zero]

/-- Nothing of a row lies at or above the next row's start. -/
theorem gridIndex_lt_next {r c : Nat} (hc : c < 144) : gridIndex r c < gridIndex (r + 1) 0 := by
  rw [gridIndex, gridIndex, Config.gridDim]
  omega

section
variable {s : State} (hs : Idle s) (hg : GridWritten s.mem.grid) {cols : Nat} (hcols : cols ≤ 144)
include hs hg hcols

theorem readNow_gridRow {r : Nat} (hr : r < 144) :
    readNow .grid s (gridIndex r 0) cols = .ok (gridRow s.mem.grid cols r) := by
  have hread := readNow_eq (b := .grid) (vs := gridRow s.mem.grid cols r) (i := gridIndex r 0) hs fun c hc => by
    rw [gridRow_length] at hc
    obtain ⟨v, hv⟩ := Option.isSome_iff_exists.1 (hg r c hr (by omega))
    simp only [gridRow, gridWord, List.getElem_map, List.getElem_range, Memory.elem, gridIndex_add, hv, Option.map_some,
      Option.getD_some]
  rwa [gridRow_length] at hread

theorem readRows_eq {r n : Nat} (hr : r + n ≤ 144) :
    readRows s cols r n = .ok ((List.range n).map fun j => gridRow s.mem.grid cols (r + j)) := by
  induction n generalizing r with
  | zero => rfl
  | succ n ih =>
    rw [readRows, readNow_gridRow hs hg hcols (by omega), ok_bind, ih (by omega), ok_bind, List.range_succ_eq_map,
      List.map_cons, List.map_map]
    simp only [Function.comp_def, Nat.add_zero, Nat.succ_eq_add_one, Nat.add_right_comm r 1, Nat.add_assoc]

end

/-- The host's writes of rows: GRID alone changes, nothing below the first row does, and each module written holds the
low bit of its word. -/
theorem loadRows_eq {cols : Nat} (hcols : cols ≤ 144) (rows : List (List Word))
    (hrows : ∀ row ∈ rows, row.length = cols) (r : Nat) {s : State} (hs : Idle s) :
    ∃ g, loadRows r rows s = { s with mem := { s.mem with grid := g } } ∧
      (∀ j < gridIndex r 0, Buffer.read g j = Buffer.read s.mem.grid j) ∧
      ∀ j c (hj : j < rows.length), c < cols →
        Buffer.read g (gridIndex (r + j) c) = rows[j][c]?.map fun v => v.setWidth 1 := by
  induction rows generalizing r s with
  | nil => exact ⟨s.mem.grid, rfl, fun _ _ => rfl, fun j c hj => absurd hj (Nat.not_lt_zero j)⟩
  | cons row rows ih =>
    obtain ⟨hrow, hrest⟩ := List.forall_mem_cons.1 hrows
    obtain ⟨g, hload, hbelow, hcells⟩ := ih hrest (r + 1) (s := { s with mem := { s.mem with
      grid := Buffer.writeRange s.mem.grid (gridIndex r 0) (row.map fun v => v.setWidth 1) } }) hs
    refine ⟨g, by rw [loadRows, loadNow_grid row _ hs, hload], fun j hj => ?below, fun j c hj hc => ?cell⟩
    case below =>
      have hnext := gridIndex_lt_next (r := r) (c := 0) (by decide)
      rw [hbelow j (by omega), read_writeRange_outside _ _ (.inl hj)]
    case cell =>
      cases j with
      | zero =>
        have hread := holds_writeRange s.mem.grid (gridIndex r 0) (row.map fun v => v.setWidth 1) c
          (by rw [List.length_map]; omega)
        rw [gridIndex_add, List.getElem?_map] at hread
        exact (hbelow _ (gridIndex_lt_next (by omega))).trans hread
      | succ j =>
        have hcell := hcells j c (Nat.lt_of_succ_lt_succ hj) hc
        rwa [Nat.add_assoc, Nat.add_comm 1] at hcell

/-- R334: the rows that the host has read from a grid, written to another block, bring their stream along. -/
theorem loadRows_stream {i : Nat} (hi : i < 30) {m : List Byte} {g : Buffer 1} (hstream : HoldsStream (sizeAt i) m g)
    {s : State} (hs : Idle s) :
    ∃ g', loadRows 0 ((List.range (sizeAt i).rows).map (gridRow g (sizeAt i).cols)) s =
        { s with mem := { s.mem with grid := g' } } ∧ HoldsStream (sizeAt i) m g' := by
  have hle : i ≤ 29 := Nat.le_of_lt_succ hi
  obtain ⟨g', hload, -, hcells⟩ := loadRows_eq (cols_sizeAt_le hle)
    ((List.range (sizeAt i).rows).map (gridRow g (sizeAt i).cols)) (by simp) 0 hs
  refine ⟨g', hload, fun k hk => ?_⟩
  obtain ⟨⟨-, hr⟩, -, hc⟩ := cellOf_mem_interior (evenDims_sizeAt hle) (hk.trans_le (budget_le_interior_sizeAt hle))
  have hdims := evenDims_sizeAt hle
  have hrow : (cellOf (sizeAt i) k).1 < (sizeAt i).rows := by have := hdims.two_le_rows; omega
  have hcol : (cellOf (sizeAt i) k).2 < (sizeAt i).cols := by have := hdims.two_le_cols; omega
  have hcell := hcells (cellOf (sizeAt i) k).1 (cellOf (sizeAt i) k).2 (by simpa using hrow) hcol
  have hword : gridWord g (cellOf (sizeAt i) k).1 (cellOf (sizeAt i) k).2 =
      (BitVec.ofBool (streamBool m k)).setWidth 32 := by
    have hread : Buffer.read g (gridIndex (cellOf (sizeAt i) k).1 (cellOf (sizeAt i) k).2) = _ := hstream k hk
    rw [gridWord, hread, Option.getD_some]
  rw [Nat.zero_add, List.getElem_map, List.getElem_range, gridRow, List.getElem?_map, List.getElem?_range hcol,
    Option.map_some, Option.map_some, hword] at hcell
  rw [placeIndex, hcell]
  simp

/-! ### The payload -/

/-- The codewords of a payload of characters up to 127 (R332, R333). -/
def payloadBytes (payload : List Nat) : List Byte :=
  (if payload.head? = some 40 then [232#8] else []) ++ payload.map fun ch => BitVec.ofNat 8 (ch + 1)

theorem payloadBytes_length (payload : List Nat) :
    (payloadBytes payload).length = payload.length + (if payload.head? = some 40 then 1 else 0) := by
  rw [payloadBytes, List.length_append, List.length_map, Nat.add_comm]
  split <;> rfl

theorem payloadCodewords_ok {payload : List Nat} (h : ∀ ch ∈ payload, ch ≤ 127) :
    payloadCodewords payload = .ok (payloadBytes payload) :=
  if_neg (by simpa using h)

theorem payloadCodewords_unsupported {payload : List Nat} (h : ∃ ch ∈ payload, 127 < ch) :
    payloadCodewords payload = .error (.failed .unsupportedMode) :=
  if_pos (by simpa using h)

/-- R335: the pad codeword ends the text. -/
theorem interpretFrom_pad (n : Nat) (text : List Nat) (zero : Bool) :
    interpretFrom (List.replicate n 129#8) text zero = .ok (text, zero) := by
  cases n <;> rfl

/-- R335: a character's codeword is read as the character. -/
theorem interpretFrom_char {ch : Nat} (h : ch ≤ 127) (cs : List Byte) (text : List Nat) (zero : Bool) :
    interpretFrom (BitVec.ofNat 8 (ch + 1) :: cs) text zero = interpretFrom cs (text ++ [ch]) zero := by
  have hcode : (BitVec.ofNat 8 (ch + 1)).toNat = ch + 1 :=
    (BitVec.toNat_ofNat ..).trans (Nat.mod_eq_of_lt (by omega))
  rw [interpretFrom, hcode, if_neg (by omega), if_neg (by omega), if_neg (by omega), if_pos (by omega),
    Nat.add_sub_cancel]

theorem interpretFrom_chars {payload : List Nat} (h : ∀ ch ∈ payload, ch ≤ 127) (n : Nat) (text : List Nat) :
    interpretFrom ((payload.map fun ch => BitVec.ofNat 8 (ch + 1)) ++ List.replicate n 129#8) text false =
      .ok (text ++ payload, false) := by
  induction payload generalizing text with
  | nil => rw [List.map_nil, List.nil_append, interpretFrom_pad, List.append_nil]
  | cons ch payload ih =>
    obtain ⟨hch, hrest⟩ := List.forall_mem_cons.1 h
    rw [List.map_cons, List.cons_append, interpretFrom_char hch, ih hrest, List.append_assoc]
    rfl

/-- R335: the padded codewords of a payload read as the payload; a leading 232 is passed over. -/
theorem interpretCodewords_payload {payload : List Nat} (h : ∀ ch ∈ payload, ch ≤ 127) (n : Nat) :
    interpretCodewords (payloadBytes payload ++ List.replicate n 129#8) = .ok (payload, false) := by
  have hchars := interpretFrom_chars h n []
  rw [List.nil_append] at hchars
  rw [interpretCodewords, payloadBytes, List.append_assoc]
  split
  · exact hchars
  · exact hchars

/-! ### The two sequences -/

/-- The data codewords of a payload, padded for entry `i`. -/
def paddedData (payload : List Nat) (i : Nat) : List Byte :=
  payloadBytes payload ++ List.replicate ((sizeAt i).dataCw - (payloadBytes payload).length) 129#8

/-- The codewords in the grid of a payload at entry `i`. -/
def symbolCodewords (payload : List Nat) (i : Nat) : List Byte :=
  paddedData payload i ++ rsRemainder (paddedData payload i) (sizeAt i).ecCw

section
variable {payload : List Nat} {i : Nat} (hfit : (payloadBytes payload).length ≤ (sizeAt i).dataCw)
include hfit

theorem paddedData_length : (paddedData payload i).length = (sizeAt i).dataCw := by
  rw [paddedData, List.length_append, List.length_replicate]
  omega

theorem symbolCodewords_length : (symbolCodewords payload i).length = (sizeAt i).codewords := by
  rw [symbolCodewords, List.length_append, paddedData_length hfit, rsRemainder_length, SymbolSize.codewords]

end

theorem holds_of_append {w : Nat} {b : Buffer w} {i : Nat} {us vs : List (BitVec w)} (h : Holds b i (us ++ vs)) :
    Holds b i us := by
  intro j hj
  rw [h j (by rw [List.length_append]; omega), List.getElem?_append_left hj]

/-- R332: the encoder's data in MSG, and LEN and NSYM set for them. -/
theorem rsReady_loadNow {s : State} (hs : Idle s) {i : Nat} (h : HasEntry s.regs i) (d : List Byte) :
    ∃ u, wrRegNow .nsym (hostWord s.regs.ecCw.toNat)
        (wrRegNow .len (hostWord (s.regs.dataCw.toNat + s.regs.ecCw.toNat))
          (loadNow .msg 0 (d.map fun v => v.setWidth 32) s)) = u ∧ RsReady u i ∧ Holds u.mem.msg 0 d := by
  rw [loadNow_msg d 0 hs]
  obtain ⟨u, hu, hready, hmem⟩ := rsReady_wrRegNow (s := { s with mem := { s.mem with
    msg := Buffer.writeRange s.mem.msg 0 d } }) hs h
  refine ⟨u, hu, hready, ?_⟩
  rw [hmem]
  exact holds_writeRange _ _ _

/-- R332: the encoder's block at the end has the entry's dimensions, and the grid read holds the codewords' stream. -/
theorem hostEncode_ok {payload : List Nat} (h : ∀ ch ∈ payload, ch ≤ 127) (hlen : (payloadBytes payload).length ≤ 1558)
    {s : State} (hs : Idle s) :
    ∃ t g i, hostEncode payload s = .ok (t, (List.range (sizeAt i).rows).map (gridRow g (sizeAt i).cols)) ∧
      HasEntry t.regs i ∧ (payloadBytes payload).length ≤ (sizeAt i).dataCw ∧
      HoldsStream (sizeAt i) (symbolCodewords payload i) g := by
  obtain ⟨t₁, i, hrun₁, hidle₁, hentry₁, hfit⟩ := runChecked_geoSelect hs hlen
  have hpadded : (payloadBytes payload ++
      List.replicate (t₁.regs.dataCw.toNat - (payloadBytes payload).length) 129#8).take t₁.regs.dataCw.toNat =
        paddedData payload i := by
    rw [hentry₁.dataCw]
    exact List.take_of_length_le (paddedData_length hfit).le
  obtain ⟨u, hu, hready, hdata⟩ := rsReady_loadNow hidle₁ hentry₁ (paddedData payload i)
  obtain ⟨t₂, hrun₂, hentry₂, hmsg₂⟩ := runChecked_rsEncode hready (paddedData_length hfit) hdata
  obtain ⟨t₃, hrun₃, hentry₃, hmsg₃, hgrid₃⟩ := runChecked_gridInit hentry₂
  obtain ⟨t₄, hrun₄, hidle₄, hentry₄, hgrid₄, hstream⟩ :=
    runChecked_placeWrite hentry₃ (symbolCodewords_length hfit) (hmsg₃ ▸ hmsg₂) hgrid₃
  obtain ⟨hrows, -, -⟩ := sizeAt_bounds hentry₁.lt
  have hread := readRows_eq hidle₄ hgrid₄ (cols_sizeAt_le (Nat.le_of_lt_succ hentry₁.lt)) (r := 0)
    (n := (sizeAt i).rows) (by omega)
  simp only [Nat.zero_add] at hread
  refine ⟨t₄, t₄.mem.grid, i, ?_, hentry₄, hfit, hstream⟩
  rw [hostEncode, payloadCodewords_ok h, ok_bind, hrun₁, ok_bind]
  dsimp only
  rw [hpadded, hu, hrun₂, ok_bind, hrun₃, ok_bind, hrun₄, ok_bind, hentry₁.rows, hentry₁.cols, hread, ok_bind]

/-- R334: the decoder on a grid that holds the stream of a payload's codewords. -/
theorem hostDecode_ok {payload : List Nat} (h : ∀ ch ∈ payload, ch ≤ 127) {i : Nat} (hi : i < 30)
    (hfit : (payloadBytes payload).length ≤ (sizeAt i).dataCw) {g : Buffer 1}
    (hstream : HoldsStream (sizeAt i) (symbolCodewords payload i) g) {s : State} (hs : Idle s) :
    ∃ t, hostDecode (sizeAt i).rows (sizeAt i).cols
      ((List.range (sizeAt i).rows).map (gridRow g (sizeAt i).cols)) s = .ok (t, payload, false) := by
  obtain ⟨t₁, hrun₁, hidle₁, hentry₁⟩ := runChecked_geoLookup hs hi
  obtain ⟨g', hload, hstream'⟩ := loadRows_stream hi hstream hidle₁
  obtain ⟨t₂, hrun₂, hidle₂, hentry₂, hmsg₂⟩ := runChecked_placeRead
    (s := { t₁ with mem := { t₁.mem with grid := g' } }) hentry₁ (symbolCodewords_length hfit) hstream'
  obtain ⟨u, hu, hready, hmem⟩ := rsReady_wrRegNow hidle₂ hentry₂
  obtain ⟨t₃, hrun₃, hidle₃, hmsg₃⟩ := runChecked_rsCorrect hready (symbolCodewords_length hfit) (hmem ▸ hmsg₂)
    (isCodeword_append_rsRemainder _ _)
  have hread := readNow_msg hidle₃ (holds_of_append hmsg₃)
  rw [paddedData_length hfit] at hread
  have hwhole : (((List.range (sizeAt i).rows).map (gridRow g (sizeAt i).cols)).take (sizeAt i).rows).map
      (fun row => row.take (sizeAt i).cols) = (List.range (sizeAt i).rows).map (gridRow g (sizeAt i).cols) := by
    rw [List.take_of_length_le (by simp), List.map_map]
    exact List.map_congr_left fun r _ => List.take_of_length_le (gridRow_length ..).le
  have hbytes : ((paddedData payload i).map fun v => (v.setWidth 32 : Word)).map (fun v => (v.setWidth 8 : Byte)) =
      paddedData payload i := by
    rw [List.map_map]
    exact List.map_id'' setWidth_byte_word _
  have htext : interpretCodewords (paddedData payload i) = .ok (payload, false) := interpretCodewords_payload h _
  refine ⟨t₃, ?_⟩
  rw [hostDecode]
  dsimp only
  rw [hrun₁, ok_bind, hwhole, hload, hrun₂, ok_bind, hu, hrun₃, ok_bind, hentry₂.dataCw, hread, ok_bind, hbytes, htext,
    ok_bind]

/-- Settles O60: the encoder's grid holds the stream of an encoded message whose data are the padded payload, and every
step of the decoder hands that message on. -/
theorem hostDecodeUndoesHostEncode : Obligations.HostDecodeUndoesHostEncode := by
  refine ⟨fun payload s hs hchars => ⟨fun hlen => ?roundTrip, fun hlen => ?tooLong⟩, fun payload s hchars => ?mode,
    fun rows cols grid u hu hnone => ?size⟩
  case roundTrip =>
    rw [← payloadBytes_length] at hlen
    obtain ⟨t, g, i, hencode, hentry, hfit, hstream⟩ := hostEncode_ok hchars hlen hs
    refine ⟨t, _, hencode, fun u hu => ?_⟩
    rw [hentry.rows, hentry.cols]
    exact hostDecode_ok hchars hentry.lt hfit hstream hu
  case tooLong =>
    rw [← payloadBytes_length] at hlen
    rw [hostEncode, payloadCodewords_ok hchars, ok_bind, runChecked_geoSelect_tooLong hs hlen, error_bind]
  case mode => rw [hostEncode, payloadCodewords_unsupported hchars, error_bind]
  case size =>
    rw [hostDecode]
    dsimp only
    rw [runChecked_geoLookup_unsupported hu hnone, error_bind]

end Sys2Proof.Proofs
end

section
/-! SUPPORT. The statements about reset, about host reads while nothing runs, about the operands of a running command
and about the STATUS word (10_state.md R32; 20_memory.md R79, R80; 70_reset_and_hazards.md R400, R401). -/

namespace Sys2Proof.Proofs

open Sys2Proof.Machine Sys2Proof.Safety Sys2Proof.Laws

/-! ### Reset -/

/-- R400: the reset input clears the block; the outside keeps its lists. -/
theorem hostStep_reset {s : State} {rest : List Input} (hi : s.inputs = .reset :: rest) :
    hostStep s = .next { s.afterReset with inputs := rest } := by
  simp [hostStep, hi]

/-- The engine's step leaves nothing pending, and the host's operations and answers to the host. -/
theorem engineStep_own {w : Word} {s u : State} (h : engineStep w s = .next u) :
    u.pending = none ∧ u.inputs = s.inputs ∧ u.replies = s.replies := by
  rcases engineStep_cases w s with ⟨i, -, hi⟩ | ⟨e, -, he⟩
  · obtain ⟨hframe, -, -, hpending⟩ := exec_frame (hi.symm.trans h)
    obtain ⟨-, -, hinputs, hreplies⟩ := hframe.own
    exact ⟨hpending, hinputs, hreplies⟩
  · cases he.symm.trans h
    exact ⟨rfl, rfl, rfl⟩

/-- Settles O7: a reset before the engine's step aborts the command, and after that step nothing is pending. -/
theorem resetAbortsTheRunningCommand : Obligations.ResetAbortsTheRunningCommand := by
  refine ⟨fun s rest hi hhost => ?host, fun s u w rest hi hp hw hstep => ?due⟩
  case host =>
    obtain ⟨k, hk⟩ := step_eq_hostStep hhost
    exact ⟨_, hk.trans (hostStep_reset (s := { s with wait := k }) hi), rfl, rfl, rfl, rfl, rfl, rfl⟩
  case due =>
    obtain ⟨hpending, hinputs, hreplies⟩ := engineStep_own ((step_engine hp hw).symm.trans hstep)
    exact ⟨_, (step_pending_none hpending).trans (hostStep_reset (hinputs.trans hi)), rfl, rfl, rfl, rfl, rfl, hreplies⟩

/-! ### Reads while nothing runs -/

theorem hostStep_read_error {s : State} {a : Addr} {t : Target} {f : Fault} {rest : List Input}
    (hi : s.inputs = .read a :: rest) (ht : targetAt a = some t) (hf : hostRead s t = .error f) :
    hostStep s = .fault f := by
  simp [hostStep, hi, ht, hf]

theorem hostRead_idle_missing {s : State} (hb : s.status.busy = false) {b : BufId} {i : Nat}
    (hv : s.mem.elem b i = none) : hostRead s (.elem b i) = .error (.unwrittenRead b i) := by
  simp [hostRead, hb, hv]

/-- Settles O11: the address names the register or element, and a read changes only the host's lists. -/
theorem readsHaveNoSideEffects : Obligations.ReadsHaveNoSideEffects := by
  refine fun s rest hp hb => ⟨fun r hi => step_idle_readReg hp hb hi, fun b i v hcap hv hi => ?value,
    fun b i hcap hv hi => ?missing⟩ <;> rw [step_pending_none hp]
  case value => exact hostStep_read hi (targetAt_elem hcap) (hostRead_idle_elem hb hv)
  case missing => exact hostStep_read_error hi (targetAt_elem hcap) (hostRead_idle_missing hb hv)

/-! ### The operands of a running command -/

/-- Settles O23: while BUSY = 1 the host's operations other than a reset change HAZ and the model's own fields only. -/
theorem operandsAreFrozenWhileBusy : Obligations.OperandsAreFrozenWhileBusy := by
  intro s t w k hp hb hw hnoReset hstep
  rw [step_waiting hp hw] at hstep
  rcases hostStep_cases { s with wait := k } with ⟨-, heq⟩ | ⟨rest, hi, -⟩ | ⟨a, tg, v, rest, -, -, -, heq⟩ |
    ⟨a, tg, v, rest, -, -, heq⟩ | ⟨rest, -, heq⟩ | ⟨f, heq⟩
  · cases heq.symm.trans hstep
    exact ⟨rfl, rfl, rfl, rfl, rfl, id, rfl⟩
  · exact absurd (congrArg List.head? hi) hnoReset
  · cases heq.symm.trans hstep
    exact ⟨rfl, rfl, rfl, rfl, rfl, id, rfl⟩
  · rw [hostWrite_busy (s := { s with wait := k }) hb] at heq
    cases heq.symm.trans hstep
    exact ⟨rfl, rfl, rfl, rfl, rfl, fun _ => rfl, rfl⟩
  · cases heq.symm.trans hstep
    exact ⟨rfl, rfl, rfl, rfl, rfl, id, rfl⟩
  · cases heq.symm.trans hstep

/-! ### The STATUS word -/

section
variable {w : Nat} {x : BitVec w}

theorem getLsbD_append_zero {b : Bool} : (x ++ BitVec.ofBool b).getLsbD 0 = b := by
  rw [BitVec.getLsbD_append]
  simp

theorem getLsbD_append_succ {b : Bool} {n : Nat} {c : Bool} (h : x.getLsbD n = c) :
    (x ++ BitVec.ofBool b).getLsbD (n + 1) = c := by
  rw [BitVec.getLsbD_append, if_neg (by omega), Nat.add_sub_cancel, h]

end

/-- R32: the five flags from bit 0 up. -/
theorem getLsbD_word_flags (st : Status) :
    st.word.getLsbD 0 = st.busy ∧ st.word.getLsbD 1 = st.done ∧ st.word.getLsbD 2 = st.synz ∧
      st.word.getLsbD 3 = st.corr ∧ st.word.getLsbD 4 = st.haz := by
  exact ⟨getLsbD_append_zero, getLsbD_append_succ getLsbD_append_zero,
    getLsbD_append_succ (getLsbD_append_succ getLsbD_append_zero),
    getLsbD_append_succ (getLsbD_append_succ (getLsbD_append_succ getLsbD_append_zero)),
    getLsbD_append_succ (getLsbD_append_succ (getLsbD_append_succ (getLsbD_append_succ getLsbD_append_zero)))⟩

/-- R32: above the flags three zeros, then ERR, then zeros. -/
theorem getLsbD_word_add_five (st : Status) (n : Nat) :
    st.word.getLsbD (n + 5) = if n < 3 then false else (errField st.err).getLsbD (n - 3) := by
  have hupper : (0#20 ++ errField st.err ++ 0#3).getLsbD n =
      if n < 3 then false else (errField st.err).getLsbD (n - 3) := by
    have herr : (0#20 ++ errField st.err).getLsbD (n - 3) = (errField st.err).getLsbD (n - 3) := by
      rw [BitVec.getLsbD_append]
      split
      · rfl
      · rw [BitVec.getLsbD_zero, BitVec.getLsbD_of_ge (errField st.err) _ (by omega)]
    rw [BitVec.getLsbD_append, herr]
    simp
  exact getLsbD_append_succ (getLsbD_append_succ (getLsbD_append_succ (getLsbD_append_succ (getLsbD_append_succ
    hupper))))

/-- The ERR field is the code of R360. -/
theorem errField_toNat (e : Option ErrorKind) : (errField e).toNat =
    (match e with
      | none => 0
      | some .divisionByZero => 1
      | some .uncorrectable => 2
      | some .unsupportedSymbolSize => 3
      | some .dataTooLong => 4
      | some .illegalCommand => 5
      | some .badParameter => 6) := by
  rcases e with _ | (_ | _) <;> rfl

/-- Settles O13: the flags one by one, and above them the word bit by bit. -/
theorem statusWordHasTheSpecsBits : Obligations.StatusWordHasTheSpecsBits := by
  intro st
  obtain ⟨hbusy, hdone, hsynz, hcorr, hhaz⟩ := getLsbD_word_flags st
  refine ⟨hbusy, hdone, hsynz, hcorr, hhaz, ?code, ?low, ?high⟩
  case code =>
    have herr : st.word.extractLsb' 8 4 = errField st.err := by
      refine BitVec.eq_of_getLsbD_eq fun i hi => ?_
      have hbit := getLsbD_word_add_five st (3 + i)
      rw [if_neg (by omega), Nat.add_sub_cancel_left] at hbit
      rw [BitVec.getLsbD_extractLsb', decide_eq_true hi, Bool.true_and, ← hbit]
      congr 1
      omega
    rw [herr]
    exact errField_toNat st.err
  case low =>
    refine BitVec.eq_of_getLsbD_eq fun i hi => ?_
    have hbit := getLsbD_word_add_five st i
    rw [if_pos hi] at hbit
    rw [BitVec.getLsbD_extractLsb', Nat.add_comm, hbit, Bool.and_false, BitVec.getLsbD_zero]
  case high =>
    refine BitVec.eq_of_getLsbD_eq fun i hi => ?_
    have hbit := getLsbD_word_add_five st (7 + i)
    rw [if_neg (by omega), BitVec.getLsbD_of_ge (errField st.err) _ (by omega)] at hbit
    rw [BitVec.getLsbD_extractLsb', show 12 + i = 7 + i + 5 by omega, hbit, Bool.and_false, BitVec.getLsbD_zero]

end Sys2Proof.Proofs
end

section
/-! SUPPORT. The statement that the scan of the source visits the interior in the order of the closed form
(44_placement.md R292, R293). -/

namespace Sys2Proof.Proofs

open Sys2Proof.Machine Sys2Proof.Safety Sys2Proof.Laws

/-- Cell `k` of a scan of `n` row pairs, `w` columns each, that starts in row 2n (R293). -/
def scanCell (w n k : Nat) : Nat × Nat := (2 * n - 2 * (k / (2 * w)) - k % (2 * w) % 2, w - k % (2 * w) / 2)

/-- The columns 1..w of one row pair, right to left. -/
theorem traversePair_eq {rows cols y : Nat} (hy : 2 ≤ y) (hrows : y ≤ rows - 2) {w : Nat} (hw : w + 2 ≤ cols) :
    traversePair rows cols y (w + 1) = (List.range (2 * w)).map fun t => (y - t % 2, w - t / 2) := by
  induction w with
  | zero => simp [traversePair]
  | succ w ih =>
    have hhere : [(y, w + 1), (y - 1, w + 1)].filter
        (fun p => 1 ≤ p.2 && p.2 ≤ cols - 2 && 1 ≤ p.1 && p.1 ≤ rows - 2) = [(y, w + 1), (y - 1, w + 1)] := by
      refine List.filter_eq_self.2 fun p hp => ?_
      simp only [List.mem_cons, List.not_mem_nil, or_false] at hp
      rcases hp with rfl | rfl <;> simp <;> omega
    have hlater : ∀ t, (y - (2 + t) % 2, w + 1 - (2 + t) / 2) = (y - t % 2, w - t / 2) := fun t => by
      rw [show (2 + t) % 2 = t % 2 by omega, show w + 1 - (2 + t) / 2 = w - t / 2 by omega]
    rw [traversePair, hhere, ih (by omega), show 2 * (w + 1) = 2 + 2 * w by omega, List.range_add, List.map_append,
      List.map_map]
    simp only [Function.comp_def, hlater]
    rfl

/-- The border column right of the interior gives no cell. -/
theorem traversePair_border (rows y w : Nat) :
    traversePair rows (w + 2) y (w + 2) = traversePair rows (w + 2) y (w + 1) := by
  have hborder : [(y, w + 1), (y - 1, w + 1)].filter
      (fun p => 1 ≤ p.2 && p.2 ≤ w + 2 - 2 && 1 ≤ p.1 && p.1 ≤ rows - 2) = [] :=
    List.filter_eq_nil_iff.2 (by simp)
  rw [traversePair, hborder, List.nil_append]

/-- The row pairs from row 2n down, by induction on their number. -/
theorem traverseFrom_eq {rows w n fuel : Nat} (hrows : 2 * n ≤ rows - 2) (hfuel : n ≤ fuel) :
    traverseFrom rows (w + 2) fuel (2 * n) = (List.range (n * (2 * w))).map (scanCell w n) := by
  induction n generalizing fuel with
  | zero => cases fuel <;> simp [traverseFrom]
  | succ n ih =>
    obtain ⟨fuel, rfl⟩ := Nat.exists_eq_add_of_le' hfuel
    have hfirst : ∀ t ∈ List.range (2 * w), (2 * (n + 1) - t % 2, w - t / 2) = scanCell w (n + 1) t := by
      intro t ht
      have ht := List.mem_range.1 ht
      rw [scanCell, Nat.div_eq_of_lt ht, Nat.mod_eq_of_lt ht, Nat.mul_zero, Nat.sub_zero]
    have hlater : ∀ k ∈ List.range (n * (2 * w)), scanCell w n k = scanCell w (n + 1) (2 * w + k) := by
      intro k hk
      have hwidth : 0 < 2 * w := Nat.pos_of_lt_mul_left (List.mem_range.1 hk)
      rw [scanCell, scanCell, Nat.add_div_left _ hwidth, Nat.add_mod_left,
        show 2 * (n + 1) - 2 * (k / (2 * w)).succ = 2 * n - 2 * (k / (2 * w)) by omega]
    have hpair := (traversePair_border rows (2 * (n + 1)) w).trans
      (traversePair_eq (by omega) hrows (Nat.le_refl (w + 2)))
    have hrest := ih (fuel := fuel + n) (by omega) (Nat.le_add_left n fuel)
    rw [← Nat.add_assoc, traverseFrom, if_pos (by omega), hpair, show 2 * (n + 1) - 2 = 2 * n by omega, hrest,
      show (n + 1) * (2 * w) = 2 * w + n * (2 * w) by ring, List.range_add, List.map_append, List.map_map,
      List.map_congr_left hfirst, List.map_congr_left hlater]
    rfl

theorem traversal_eq {e : SymbolSize} (he : EvenDims e) :
    traversal e.rows e.cols = (List.range e.interior).map (cellOf e) := by
  obtain ⟨hr, hrows, hc, -⟩ := he
  obtain ⟨w, hw⟩ := Nat.exists_eq_add_of_le' hc
  obtain ⟨n, hn⟩ : ∃ n, e.rows = 2 * n + 2 := ⟨(e.rows - 2) / 2, by omega⟩
  have hcell : scanCell w n = cellOf e := by
    funext k
    rw [scanCell, cellOf, hn, hw, Nat.add_sub_cancel, Nat.add_sub_cancel]
  have hscan := traverseFrom_eq (rows := e.rows) (w := w) (n := n) (fuel := e.rows) (by omega) (by omega)
  rw [traversal, SymbolSize.interior, ← hcell, hw, Nat.add_sub_cancel, show e.rows - 2 = 2 * n by omega, hscan]
  congr 2
  ring

theorem evenDims_of_mem {e : SymbolSize} (h : e ∈ sizeTable) : EvenDims e := by
  obtain ⟨i, hi, rfl⟩ := List.getElem_of_mem h
  rw [← sizeAt_eq_getElem hi]
  exact evenDims_sizeAt (Nat.le_of_lt_succ hi)

/-- Settles O54: the scan by induction on its row pairs and their columns; index and cell are inverse as in R293. -/
theorem traversalIsTheClosedForm : Obligations.TraversalIsTheClosedForm := by
  intro e hmem
  have he := evenDims_of_mem hmem
  refine ⟨traversal_eq he, fun k hk => ?cell, fun r c hr1 hr2 hc1 hc2 =>
    ⟨indexOf_lt_interior he hr1 hr2 hc1 hc2, cellOf_indexOf he hr1 hr2 hc1 hc2⟩⟩
  case cell =>
    obtain ⟨⟨hr1, hr2⟩, hc1, hc2⟩ := cellOf_mem_interior he hk
    exact ⟨hr1, hr2, hc1, hc2, indexOf_cellOf he hk⟩

end Sys2Proof.Proofs
end

section
/-! SUPPORT. The statement about RS_CHIEN (42_rs_decode.md R202, R211). -/

namespace Sys2Proof.Proofs

open Sys2Proof.Machine Sys2Proof.Safety Sys2Proof.Laws

/-- The coefficients RS_CHIEN reads have the roots of `q`: with LEN = 0 it reads none and needs none. -/
theorem readRange_loc_chien {loc : Buffer 8} {q : List Byte} {n l : Nat}
    (h : n = 0 ∨ (q.length = l + 1 ∧ Holds loc 0 q)) :
    ∃ q', readRange .loc loc 0 (if n = 0 then 0 else l + 1) = .ok q' ∧ chien q' l n = chien q l n := by
  by_cases hn : n = 0
  · subst hn
    exact ⟨[], rfl, rfl⟩
  · obtain ⟨hlen, hq⟩ := h.resolve_left hn
    exact ⟨q, by rw [if_neg hn, ← hlen, readRange_of_holds .loc hq], rfl⟩

section
variable {s : State} {q : List Byte} (hlen : s.regs.len.toNat ≤ 4096) (hnerr : s.regs.nerr.toNat ≤ 1023)
  (hq : s.regs.len.toNat = 0 ∨ (q.length = s.regs.nerr.toNat + 1 ∧ Holds s.mem.loc 0 q))
include hlen hnerr hq

/-- With the registers in range, RS_CHIEN is the comparison of the number of roots with NERR. -/
theorem exec_rsChien_eq_chien :
    exec .rsChien s = runCommand s (do
      let ps := chien q s.regs.nerr.toNat s.regs.len.toNat
      raiseIf (ps.length ≠ s.regs.nerr.toNat) .uncorrectable
      .ok { s with
        regs := { s.regs with nfound := BitVec.ofNat 32 ps.length }
        mem := { s.mem with pos := Buffer.writeRange s.mem.pos 0 (ps.map (BitVec.ofNat 16)) } }) := by
  obtain ⟨q', hread, hchien⟩ := readRange_loc_chien hq
  rw [exec, execRsChien]
  dsimp only
  rw [raiseIf_of_false (by simp [Config.msgCap, Config.nsymMax]; omega), ok_bind, hread, ok_bind, hchien]

theorem exec_rsChien_ok (hroots : (chien q s.regs.nerr.toNat s.regs.len.toNat).length = s.regs.nerr.toNat) :
    exec .rsChien s = .next (afterSuccess s { s.regs with nfound := s.regs.nerr } s.status
      { s.mem with
        pos := Buffer.writeRange s.mem.pos 0
          ((chien q s.regs.nerr.toNat s.regs.len.toNat).map (BitVec.ofNat 16)) }) := by
  rw [exec_rsChien_eq_chien hlen hnerr hq]
  dsimp only
  rw [hroots, raiseIf_of_false (by simp), ok_bind, runCommand_ok, BitVec.ofNat_toNat, BitVec.setWidth_eq]
  rfl

theorem exec_rsChien_uncorrectable
    (hroots : (chien q s.regs.nerr.toNat s.regs.len.toNat).length ≠ s.regs.nerr.toNat) :
    exec .rsChien s = .next (afterError s .uncorrectable) := by
  rw [exec_rsChien_eq_chien hlen hnerr hq]
  dsimp only
  rw [raiseIf_of_true (by simpa using hroots), error_bind, runCommand_raise_eq_afterError]

end

theorem exec_rsChien_of_not_range {s : State} (h : 4096 < s.regs.len.toNat ∨ 1023 < s.regs.nerr.toNat) :
    exec .rsChien s = .next (afterError s .badParameter) := by
  rw [exec, execRsChien]
  dsimp only
  rw [raiseIf_of_true (by simpa [Config.msgCap, Config.nsymMax] using h), error_bind, runCommand_raise_eq_afterError]

/-- A position found, written to POS, is read back: it is below 2^16. -/
theorem read_writeRange_positions (pos : Buffer 16) {ps : List Nat} (hps : ∀ p ∈ ps, p < 2 ^ 16) {k : Nat}
    (hk : k < ps.length) :
    (Buffer.read (Buffer.writeRange pos 0 (ps.map (BitVec.ofNat 16))) k).map BitVec.toNat = ps[k]? := by
  have hread := holds_writeRange pos 0 (ps.map (BitVec.ofNat 16)) k (by simpa using hk)
  have hp := hps _ (List.getElem_mem hk)
  rw [Nat.zero_add] at hread
  rw [hread, List.getElem?_map, List.getElem?_eq_getElem hk, Option.map_some, Option.map_some, BitVec.toNat_ofNat,
    Nat.mod_eq_of_lt hp]

/-- Settles O42: the list the statement names is the search `chien`, and each position fits an element of POS. -/
theorem rsChienListsTheRoots : Obligations.RsChienListsTheRoots := by
  refine ⟨rfl, ?run, fun s => exec_rsChien_of_not_range⟩
  intro s q ps hlen hnerr hq hps
  obtain rfl : ps = chien q s.regs.nerr.toNat s.regs.len.toNat := hps
  refine ⟨fun hroots => ⟨_, exec_rsChien_ok hlen hnerr hq hroots, rfl, fun k => ?found, fun j hj => ?frame⟩,
    exec_rsChien_uncorrectable hlen hnerr hq⟩
  case found =>
    exact read_writeRange_positions s.mem.pos fun p hp => by
      have := (mem_chien.1 hp).1
      omega
  case frame => exact read_writeRange_outside _ _ (.inr (by rw [List.length_map]; omega))

end Sys2Proof.Proofs
end

section
/-! SUPPORT. Commands that stop at an unwritten element, and the statement about the nine readers (10_state.md R46). -/

namespace Sys2Proof.Proofs

open Sys2Proof.Machine Sys2Proof.Safety Sys2Proof.Laws

/-! ### Stopping at an element of one buffer -/

/-- The computation stops at an unwritten element of the buffer `b`. -/
def StopsAt {α : Type} (b : BufId) (x : Except Stop α) : Prop := ∃ i, x = .error (.unwritten b i)

/-- The computation answers, or stops at an unwritten element of the buffer `b`. -/
def AnswersOrStopsAt {α : Type} (b : BufId) (x : Except Stop α) : Prop := (∃ a, x = .ok a) ∨ StopsAt b x

section
variable {α β : Type} {b : BufId}

theorem StopsAt.bind {x : Except Stop α} (h : StopsAt b x) (f : α → Except Stop β) : StopsAt b (x >>= f) := by
  obtain ⟨i, rfl⟩ := h
  exact ⟨i, rfl⟩

theorem StopsAt.fault {x : Except Stop State} (h : StopsAt b x) (s : State) :
    ∃ i, runCommand s x = .fault (.unwrittenRead b i) := by
  obtain ⟨i, rfl⟩ := h
  exact ⟨i, runCommand_unwritten s b i⟩

/-- A computation stops if its first part may only stop there, and its second part stops after every answer. -/
theorem AnswersOrStopsAt.bind_stopsAt {x : Except Stop α} (h : AnswersOrStopsAt b x) {f : α → Except Stop β}
    (hf : ∀ a, x = .ok a → StopsAt b (f a)) : StopsAt b (x >>= f) := by
  obtain ⟨a, ha⟩ | hstop := h
  · rw [ha, ok_bind]
    exact hf a ha
  · exact hstop.bind f

/-- A run of readings of which one stops and the others may only stop in the same buffer. -/
theorem stopsAt_collect {f : Nat → Except Stop α} {n i j : Nat} (hall : ∀ k < n, AnswersOrStopsAt b (f (i + k)))
    (hj : j < n) (hstop : StopsAt b (f (i + j))) : StopsAt b (collect f i n) := by
  induction n generalizing i j with
  | zero => omega
  | succ n ih =>
    rw [collect]
    refine (hall 0 n.succ_pos).bind_stopsAt fun a ha => ?_
    cases j with
    | zero =>
      obtain ⟨k, hk⟩ := hstop
      cases ha.symm.trans hk
    | succ j =>
      have hrest : StopsAt b (collect f (i + 1) n) :=
        ih (fun k hk => Nat.succ_add_eq_add_succ i k ▸ hall (k + 1) (by omega)) (by omega)
          (Nat.succ_add_eq_add_succ i j ▸ hstop)
      exact hrest.bind _

theorem answersOrStopsAt_collect {f : Nat → Except Stop α} {n i : Nat}
    (hall : ∀ k < n, AnswersOrStopsAt b (f (i + k))) : AnswersOrStopsAt b (collect f i n) := by
  by_cases hstop : ∃ j < n, StopsAt b (f (i + j))
  · obtain ⟨j, hj, hstop⟩ := hstop
    exact .inr (stopsAt_collect hall hj hstop)
  · have hok : ∀ j : Fin n, ∃ a, f (i + j) = .ok a := fun j =>
      (hall j j.2).resolve_right fun h => hstop ⟨j, j.2, h⟩
    choose v hv using hok
    refine .inl ⟨List.ofFn v, ?_⟩
    have hrun := collect_of_ok f (List.ofFn v) i fun j hj => by
      rw [List.getElem_ofFn]
      exact hv ⟨j, by simpa using hj⟩
    rwa [List.length_ofFn] at hrun

end

section
variable {w : Nat} {buf : Buffer w} (b : BufId)

theorem stopsAt_readElem {i : Nat} (h : Buffer.read buf i = none) : StopsAt b (readElem b buf i) :=
  ⟨i, by rw [readElem, h]⟩

theorem answersOrStopsAt_readElem (buf : Buffer w) (i : Nat) : AnswersOrStopsAt b (readElem b buf i) := by
  cases h : Buffer.read buf i with
  | none => exact .inr (stopsAt_readElem b h)
  | some v => exact .inl ⟨v, readElem_eq_ok.2 h⟩

theorem stopsAt_readRange {n j : Nat} (hj : j < n) (h : Buffer.read buf j = none) :
    StopsAt b (readRange b buf 0 n) :=
  stopsAt_collect (fun k _ => answersOrStopsAt_readElem b buf (0 + k)) hj
    (stopsAt_readElem b (by rwa [Nat.zero_add]))

/-- Reading the elements at the positions `ps`, of which one is missing. -/
theorem stopsAt_collect_positions {ps : List Nat} (h : ∃ p ∈ ps, Buffer.read buf p = none) :
    StopsAt b (collect (fun k => readElem b buf (ps.getD k 0)) 0 ps.length) := by
  obtain ⟨p, hp, hnone⟩ := h
  obtain ⟨k, hk, rfl⟩ := List.getElem_of_mem hp
  refine stopsAt_collect (fun j _ => answersOrStopsAt_readElem b buf _) hk (stopsAt_readElem b ?_)
  rwa [Nat.zero_add, List.getD_eq_getElem _ _ hk]

end

/-! ### The readers of MSG, SYN and LOC -/

section
variable {s : State} {j : Nat} (hr : RsRange s) (hmissing : Buffer.read s.mem.msg j = none)
include hr hmissing

theorem exec_rsSyndrome_missing (hj : j < s.regs.len.toNat) :
    ∃ i, exec .rsSyndrome s = .fault (.unwrittenRead .msg i) := by
  rw [exec, execRsSyndrome, rsCheck_of_rsRange hr, ok_bind]
  exact ((stopsAt_readRange .msg hj hmissing).bind _).fault s

theorem exec_rsCorrect_missing (hj : j < s.regs.len.toNat) :
    ∃ i, exec .rsCorrect s = .fault (.unwrittenRead .msg i) := by
  rw [exec, execRsCorrect, rsCheck_of_rsRange hr, ok_bind]
  exact ((stopsAt_readRange .msg hj hmissing).bind _).fault s

theorem exec_rsCorrectBitflip_missing (hj : j < s.regs.len.toNat) :
    ∃ i, exec .rsCorrectBitflip s = .fault (.unwrittenRead .msg i) := by
  rw [exec, execRsCorrectBitflip, rsCheck_of_rsRange hr, ok_bind]
  exact ((stopsAt_readRange .msg hj hmissing).bind _).fault s

theorem exec_rsEncode_missing (hj : j < s.regs.len.toNat - s.regs.nsym.toNat) :
    ∃ i, exec .rsEncode s = .fault (.unwrittenRead .msg i) := by
  rw [exec, execRsEncode, rsCheck_of_rsRange hr, ok_bind]
  exact ((stopsAt_readRange .msg hj hmissing).bind _).fault s

end

theorem exec_rsLocator_missing {s : State} {j : Nat} (h1 : 1 ≤ s.regs.nsym.toNat) (hmax : s.regs.nsym.toNat ≤ 1023)
    (hj : j < s.regs.nsym.toNat) (hmissing : Buffer.read s.mem.syn j = none) :
    ∃ i, exec .rsLocator s = .fault (.unwrittenRead .syn i) := by
  rw [exec, execRsLocator, nsymOperand_ok h1 hmax, ok_bind]
  exact ((stopsAt_readRange .syn hj hmissing).bind _).fault s

theorem exec_rsChien_missing {s : State} {j : Nat} (h1 : 1 ≤ s.regs.len.toNat) (hmax : s.regs.len.toNat ≤ 4096)
    (hnerr : s.regs.nerr.toNat ≤ 1023) (hj : j ≤ s.regs.nerr.toNat) (hmissing : Buffer.read s.mem.loc j = none) :
    ∃ i, exec .rsChien s = .fault (.unwrittenRead .loc i) := by
  rw [exec, execRsChien]
  dsimp only
  rw [raiseIf_of_false (by simp [Config.msgCap, Config.nsymMax]; omega), ok_bind, if_neg (by omega)]
  exact ((stopsAt_readRange .loc (Nat.lt_succ_of_le hj) hmissing).bind _).fault s

/-! ### The placement -/

theorem exec_placeWrite_missing {s : State} {j : Nat} (hs : s.regs.sizeIdx.toNat ≤ 29)
    (hj : j < (sizeAt s.regs.sizeIdx.toNat).codewords) (hmissing : Buffer.read s.mem.msg j = none) :
    ∃ i, exec .placeWrite s = .fault (.unwrittenRead .msg i) := by
  rw [exec, execPlaceWrite, sizeOperand_ok hs, ok_bind, placed_codewords_sizeAt hs]
  exact ((stopsAt_readRange .msg hj hmissing).bind _).fault s

theorem answersOrStopsAt_gridBit (e : SymbolSize) (g : Buffer 1) (k : Nat) :
    AnswersOrStopsAt .grid (gridBit e g k) := by
  unfold gridBit
  split_ifs
  · exact answersOrStopsAt_readElem .grid g _
  · exact .inl ⟨0, rfl⟩

theorem answersOrStopsAt_gridCodeword (e : SymbolSize) (g : Buffer 1) (i : Nat) :
    AnswersOrStopsAt .grid (gridCodeword e g i) := by
  unfold gridCodeword
  obtain ⟨bits, hbits⟩ | hstop := answersOrStopsAt_collect fun k _ => answersOrStopsAt_gridBit e g (8 * i + k)
  · exact .inl ⟨packByte bits, by rw [hbits, ok_bind]⟩
  · exact .inr (hstop.bind _)

/-- Codeword j div 8 holds bit j, so it stops where the module of bit j is missing. -/
theorem stopsAt_gridCodeword {e : SymbolSize} {g : Buffer 1} {j : Nat} (hj : j < e.interior)
    (hmissing : Buffer.read g (placeIndex e j) = none) : StopsAt .grid (gridCodeword e g (j / 8)) := by
  have hbit : StopsAt .grid (gridBit e g (8 * (j / 8) + j % 8)) := by
    rw [Nat.div_add_mod, gridBit, if_pos hj]
    exact stopsAt_readElem .grid hmissing
  exact (stopsAt_collect (fun k _ => answersOrStopsAt_gridBit e g _) (Nat.mod_lt j (by omega)) hbit).bind _

theorem exec_placeRead_missing {s : State} {j : Nat} (hs : s.regs.sizeIdx.toNat ≤ 29)
    (hj : j < (sizeAt s.regs.sizeIdx.toNat).budget)
    (hmissing : Buffer.read s.mem.grid (placeIndex (sizeAt s.regs.sizeIdx.toNat) j) = none) :
    ∃ i, exec .placeRead s = .fault (.unwrittenRead .grid i) := by
  have hstop := stopsAt_gridCodeword (hj.trans_le (budget_le_interior_sizeAt hs)) hmissing
  rw [SymbolSize.budget] at hj
  have hcodewords : StopsAt .grid (collect (gridCodeword (sizeAt s.regs.sizeIdx.toNat) s.mem.grid) 0
      (sizeAt s.regs.sizeIdx.toNat).codewords) :=
    stopsAt_collect (fun k _ => answersOrStopsAt_gridCodeword _ _ _) (show j / 8 < _ by omega)
      (by rwa [Nat.zero_add])
  rw [exec, execPlaceRead, sizeOperand_ok hs, ok_bind]
  exact (hcodewords.bind _).fault s

/-! ### RS_FORNEY -/

/-- The check of a position may only stop in POS, where every written position is below LEN. -/
theorem answersOrStopsAt_forneyPosition {s : State} {k : Nat}
    (hbelow : ∀ v, Buffer.read s.mem.pos k = some v → v.toNat < s.regs.len.toNat) :
    AnswersOrStopsAt .pos (forneyPosition s k) := by
  cases hv : Buffer.read s.mem.pos k with
  | none => exact .inr ((stopsAt_readElem .pos hv).bind _)
  | some v =>
    have hlt := hbelow v hv
    exact .inl ⟨v.toNat, by rw [forneyPosition_of_read (p := v.toNat) (by rw [hv]; rfl), if_neg (by omega)]⟩

theorem mem_oddsUpTo {j l : Nat} (hodd : j % 2 = 1) (hj : j ≤ l) : j ∈ oddsUpTo l := by
  simp only [oddsUpTo, List.mem_map, List.mem_range]
  exact ⟨j / 2, by omega, by omega⟩

/-- R204's derivative reads every element of its list. -/
theorem stopsAt_dpevalLoc {loc : Buffer 8} {j : Nat} (hmissing : Buffer.read loc j = none) (x : Byte) {is : List Nat}
    (hj : j ∈ is) (d : Byte) : StopsAt .loc (dpevalLoc loc x is d) := by
  induction is generalizing d with
  | nil => cases hj
  | cons i is ih =>
    rw [dpevalLoc]
    refine (answersOrStopsAt_readElem .loc loc i).bind_stopsAt fun q hq => ?_
    obtain rfl | hrest := List.mem_cons.1 hj
    · cases hmissing.symm.trans (readElem_eq_ok.1 hq)
    · exact ih hrest _

section
variable {s : State} {l nsym n p j : Nat} (ps : List Nat) (m : Buffer 8)

theorem stopsAt_forneyLoop_loc (hodd : j % 2 = 1) (hj : j ≤ l) (hmissing : Buffer.read s.mem.loc j = none) :
    StopsAt .loc (forneyLoop s n l nsym (p :: ps) m) :=
  (stopsAt_dpevalLoc hmissing _ (mem_oddsUpTo hodd hj) 0).bind _

theorem stopsAt_forneyLoop_eval {q : List Byte} (hqlen : q.length = l + 1) (hq : Holds s.mem.loc 0 q)
    (hden : denominator q l n p ≠ 0) (hj : j < nsym) (hmissing : Buffer.read s.mem.eval j = none) :
    StopsAt .eval (forneyLoop s n l nsym (p :: ps) m) := by
  rw [forneyLoop]
  dsimp only
  rw [dpevalLoc_eq_denominator hq hqlen, ok_bind, raiseIf_of_false (by simpa using hden), ok_bind]
  exact (stopsAt_readRange .eval hj hmissing).bind _

end

section
variable {s : State} (hr : ForneyRange s)
include hr

theorem exec_rsForney_missing_pos {j : Nat} (hj : j < s.regs.nfound.toNat) (hmissing : Buffer.read s.mem.pos j = none)
    (hbelow : ∀ k v, k < s.regs.nfound.toNat → Buffer.read s.mem.pos k = some v → v.toNat < s.regs.len.toNat) :
    ∃ i, exec .rsForney s = .fault (.unwrittenRead .pos i) := by
  have hpositions : StopsAt .pos (collect (forneyPosition s) 0 s.regs.nfound.toNat) :=
    stopsAt_collect
      (fun k hk => answersOrStopsAt_forneyPosition fun v => hbelow _ v (by rwa [Nat.zero_add])) hj
      ((stopsAt_readElem .pos (by rwa [Nat.zero_add])).bind _)
  rw [exec, execRsForney]
  dsimp only
  rw [raiseIf_of_false (Bool.eq_false_iff.2 fun h => (forneyCheck_iff s).1 h hr), ok_bind]
  exact (hpositions.bind _).fault s

variable {ps : List Nat} (hlen : ps.length = s.regs.nfound.toNat)
  (hps : ∀ k, k < ps.length → (Buffer.read s.mem.pos k).map BitVec.toNat = ps[k]?)
  (hbelow : ∀ p ∈ ps, p < s.regs.len.toNat)
include hlen hps hbelow

theorem exec_rsForney_missing_msg (hmissing : ∃ p ∈ ps, Buffer.read s.mem.msg p = none) :
    ∃ i, exec .rsForney s = .fault (.unwrittenRead .msg i) := by
  rw [exec, execRsForney]
  dsimp only
  rw [raiseIf_of_false (Bool.eq_false_iff.2 fun h => (forneyCheck_iff s).1 h hr), ok_bind, ← hlen,
    collect_forneyPosition_ok hps hbelow, ok_bind]
  exact ((stopsAt_collect_positions .msg hmissing).bind _).fault s

/-- With positions and MSG written, RS_FORNEY stops where its loop stops. -/
theorem exec_rsForney_of_loop_stopsAt (hmsg : ∀ p ∈ ps, (Buffer.read s.mem.msg p).isSome) {b : BufId}
    (hloop : StopsAt b (forneyLoop s s.regs.len.toNat s.regs.nerr.toNat s.regs.nsym.toNat ps s.mem.msg)) :
    ∃ i, exec .rsForney s = .fault (.unwrittenRead b i) := by
  rw [exec_rsForney_eq_loop hr hlen hps hbelow hmsg]
  exact (hloop.bind _).fault s

end

/-- Settles O48: in each of the nine commands everything before the missing element answers, or stops in the same
buffer. -/
theorem missingElementsStopTheReaders : Obligations.MissingElementsStopTheReaders := by
  refine ⟨?msg, ?syn, ?loc, ?placement, ?forney⟩
  case msg =>
    intro s j hr hj hmissing
    exact ⟨exec_rsSyndrome_missing hr hmissing hj, exec_rsCorrect_missing hr hmissing hj,
      exec_rsCorrectBitflip_missing hr hmissing hj, exec_rsEncode_missing hr hmissing⟩
  case syn => exact fun s j => exec_rsLocator_missing
  case loc => exact fun s j => exec_rsChien_missing
  case placement =>
    rintro s e j hs rfl
    exact ⟨exec_placeWrite_missing hs, exec_placeRead_missing hs⟩
  case forney =>
    intro s h1 h2 h3 h4 h5
    have hr : ForneyRange s := ⟨h1, h2, h3, h4, h5⟩
    refine ⟨fun j => exec_rsForney_missing_pos hr, fun ps hlen hps hbelow =>
      ⟨exec_rsForney_missing_msg hr hlen hps hbelow, fun hmsg hne => ?loop⟩⟩
    have hfault := fun b => exec_rsForney_of_loop_stopsAt hr hlen hps hbelow hmsg (b := b)
    obtain ⟨p, ps, rfl⟩ := List.exists_cons_of_ne_nil hne
    exact ⟨fun j hodd hj hmissing => hfault .loc (stopsAt_forneyLoop_loc ps _ hodd hj hmissing),
      fun q j hqlen hq hden hj hmissing => hfault .eval (stopsAt_forneyLoop_eval ps _ hqlen hq hden hj hmissing)⟩

end Sys2Proof.Proofs
end
